-- ==== Sys2Proof/Word.lean ====
section
/-! DEFINITION. The word types of SSBML-CORE and the two selectors every command carries. -/

namespace Sys2Proof

/-- The whole content of one operand register (R14). -/
abbrev RegWord := BitVec 256

/-- One 64-bit word of a register, the unit of the host port (R8, R22). -/
abbrev PortWord := BitVec 64

/-- One 32-bit command word (R39). -/
abbrev CommandWord := BitVec 32

/-- A register index, a 4-bit unsigned field with no scaling or offset (R14, R44). -/
abbrev Reg := Fin 16

/-- A word index within a register, a 2-bit port field (R22). -/
abbrev WordIndex := Fin 4

/-- The width W of a command (R3, R40). -/
inductive Width where
  | w128
  | w256
  deriving DecidableEq, Repr

/-- The number of bits of a width. -/
def Width.bits : Width → Nat
  | .w128 => 128
  | .w256 => 256

/-- The signedness S of a command (R3, R40). -/
inductive Signedness where
  | unsigned
  | signed
  deriving DecidableEq, Repr

end Sys2Proof
end

