-- ==== Sys2Proof/Syntax.lean ====
section
/-! DEFINITION. The commands of SSBML-CORE: one constructor for each row of spec/opcode_table.json (R46). -/

namespace Sys2Proof

/-- A decoded command. Operands stand in the assembler's order (R52). The S bit is kept where R46 lets it take either
value, also where the result ignores it (R51), because a disassembler prints it as it stands (R52). -/
inductive Instr where
  /-- NOP (R104) -/
  | nop
  /-- ADD (R56) -/
  | add (w : Width) (sg : Signedness) (rd rs1 rs2 : Reg)
  /-- SUB (R57) -/
  | sub (w : Width) (sg : Signedness) (rd rs1 rs2 : Reg)
  /-- MUL (R60) -/
  | mul (w : Width) (sg : Signedness) (rd rs1 rs2 : Reg)
  /-- DIVREM with S = 0 (R64): quotient to rd, remainder to rd2 -/
  | divremU (w : Width) (rd rd2 rs1 rs2 : Reg)
  /-- DIVREM with S = 1 (R65): quotient to rd, remainder to rd2 -/
  | divremS (w : Width) (rd rd2 rs1 rs2 : Reg)
  /-- CMP with S = 0 (R70) -/
  | cmpU (w : Width) (rd rs1 rs2 : Reg)
  /-- CMP with S = 1 (R71) -/
  | cmpS (w : Width) (rd rs1 rs2 : Reg)
  /-- SHL (R75) -/
  | shl (w : Width) (sg : Signedness) (rd rs1 rs2 : Reg)
  /-- SHR (R76), S = 0 only -/
  | shr (w : Width) (rd rs1 rs2 : Reg)
  /-- SHLI (R77) -/
  | shli (w : Width) (sg : Signedness) (rd rs1 : Reg) (imm : BitVec 16)
  /-- SHRI (R78), S = 0 only -/
  | shri (w : Width) (rd rs1 : Reg) (imm : BitVec 16)
  /-- AND (R81) -/
  | and (w : Width) (sg : Signedness) (rd rs1 rs2 : Reg)
  /-- OR (R82) -/
  | or (w : Width) (sg : Signedness) (rd rs1 rs2 : Reg)
  /-- XOR (R83) -/
  | xor (w : Width) (sg : Signedness) (rd rs1 rs2 : Reg)
  /-- NOT (R84) -/
  | not (w : Width) (sg : Signedness) (rd rs1 : Reg)
  /-- DECACC (R85), S = 0 only; the digit is IMM16[3:0], with IMM16[15:4] zero (R46) -/
  | decacc (w : Width) (rd rs1 : Reg) (digit : BitVec 4)
  /-- LDI (R93) -/
  | ldi (w : Width) (sg : Signedness) (rd : Reg) (imm : BitVec 16)
  /-- EXT (R94), W = 1 only -/
  | ext (sg : Signedness) (rd rs1 : Reg)
  /-- TRUNC (R95), W = 0 and S = 0 only -/
  | trunc (rd rs1 : Reg)
  /-- TRUNCC (R96), W = 0 only -/
  | truncc (sg : Signedness) (rd rs1 : Reg)
  /-- NEG (R101) -/
  | neg (w : Width) (sg : Signedness) (rd rs1 : Reg)
  /-- ABS (R102), S = 1 only -/
  | abs (w : Width) (rd rs1 : Reg)
  /-- SIGN (R103) -/
  | sign (w : Width) (sg : Signedness) (rd rs1 : Reg)
  /-- CLRST (R105) -/
  | clrst
  /-- the table's row "(reserved)": any word with OP in 0x17 to 0x3F (R47). `rest` is c[31:6]. -/
  | reserved (op : BitVec 6) (rest : BitVec 26)
  deriving DecidableEq, Repr

end Sys2Proof
end

