-- ==== Sys2Proof/WellFormed.lean ====
section
/-! DEFINITION. The constraints of R46 that the shape of `Instr` does not already carry. -/

namespace Sys2Proof

/-- The "other constraint" column of R46, and the range of the reserved row. Fixed W and S bits and must-be-zero
fields have no place in `Instr`, so no term can break them. -/
def Instr.wellFormed : Instr → Bool
  | .divremU _ rd rd2 _ _ => rd != rd2
  | .divremS _ rd rd2 _ _ => rd != rd2
  | .decacc _ _ _ digit => digit.toNat ≤ 9
  | .reserved op _ => 0x17 ≤ op.toNat
  | .nop | .add .. | .sub .. | .mul .. | .cmpU .. | .cmpS .. | .shl .. | .shr .. | .shli .. | .shri ..
  | .and .. | .or .. | .xor .. | .not .. | .ldi .. | .ext .. | .trunc .. | .truncc .. | .neg .. | .abs ..
  | .sign .. | .clrst => true

/-- A command that R46 defines: well formed and not of the reserved row (R47). -/
def Instr.legal : Instr → Bool
  | .reserved _ _ => false
  | i => i.wellFormed

end Sys2Proof
end

