-- ==== Sys2Proof/Decode.lean ====
section
/-! DEFINITION. Decoding of command words (R48), total and rejecting by name, and the encoder (R41 to R43, R46). -/

namespace Sys2Proof

/-- Why a word with a defined opcode is no command (R47). -/
inductive Illegal where
  /-- NOP or CLRST with any other bit set (R43) -/
  | fixedWord
  /-- Z = c[31:24] is not zero (R41) -/
  | zField
  /-- RD2 is not zero where R46 wants zero -/
  | rd2Field
  /-- RS2 is not zero where R46 wants zero -/
  | rs2Field
  /-- RS1 of LDI is not zero -/
  | rs1Field
  /-- W differs from the value R46 fixes -/
  | widthBit
  /-- S differs from the value R46 fixes -/
  | signBit
  /-- DIVREM with RD = RD2 -/
  | sameDestination
  /-- DECACC with IMM16 above 9 -/
  | digit
  deriving DecidableEq, Repr

/-! ### Fields (R40 to R42) -/

/-- A 4-bit register field read as an index (R44). -/
def Reg.ofBits (b : BitVec 4) : Reg := ⟨b.toNat, b.isLt⟩

/-- The 4-bit field that names a register (R44). -/
def Reg.toBits (r : Reg) : BitVec 4 := BitVec.ofNat 4 r.val

/-- Bit W: 0 is 128 bits, 1 is 256 bits (R40). -/
def Width.ofBit (b : BitVec 1) : Width := if b = 1#1 then .w256 else .w128

/-- The W bit of a width (R40). -/
def Width.toBit : Width → BitVec 1
  | .w128 => 0#1
  | .w256 => 1#1

/-- Bit S: 0 is unsigned, 1 is signed (R40). -/
def Signedness.ofBit (b : BitVec 1) : Signedness := if b = 1#1 then .signed else .unsigned

/-- The S bit of a signedness (R40). -/
def Signedness.toBit : Signedness → BitVec 1
  | .unsigned => 0#1
  | .signed => 1#1

/-- OP = c[5:0] (R40). -/
def opField (c : CommandWord) : BitVec 6 := c.extractLsb' 0 6
/-- W = c[6] (R40). -/
def widthField (c : CommandWord) : Width := .ofBit (c.extractLsb' 6 1)
/-- S = c[7] (R40). -/
def signField (c : CommandWord) : Signedness := .ofBit (c.extractLsb' 7 1)
/-- RD = c[11:8] (R41, R42). -/
def rdField (c : CommandWord) : Reg := .ofBits (c.extractLsb' 8 4)
/-- RS1 = c[15:12] (R41, R42). -/
def rs1Field (c : CommandWord) : Reg := .ofBits (c.extractLsb' 12 4)
/-- RS2 = c[19:16] (R41). -/
def rs2Field (c : CommandWord) : Reg := .ofBits (c.extractLsb' 16 4)
/-- RD2 = c[23:20] (R41). -/
def rd2Field (c : CommandWord) : Reg := .ofBits (c.extractLsb' 20 4)
/-- Z = c[31:24] (R41). -/
def zField (c : CommandWord) : BitVec 8 := c.extractLsb' 24 8
/-- IMM16 = c[31:16] (R42). -/
def immField (c : CommandWord) : BitVec 16 := c.extractLsb' 16 16

/-! ### Decode (R48) -/

/-- Go on with `k` if the condition holds, else reject under the name given. -/
def require (ok : Bool) (why : Illegal) (k : Except Illegal Instr) : Except Illegal Instr :=
  if ok then k else .error why

/-- Format R with RD2 unused: Z and RD2 must be 0 (R41, R46). -/
def decodeThree (c : CommandWord) (i : Instr) : Except Illegal Instr :=
  require (zField c == 0#8) .zField (require (rd2Field c == 0) .rd2Field (.ok i))

/-- Format R with RD2 and RS2 unused: Z, RD2 and RS2 must be 0 (R41, R46). -/
def decodeTwo (c : CommandWord) (i : Instr) : Except Illegal Instr :=
  require (zField c == 0#8) .zField
    (require (rd2Field c == 0) .rd2Field (require (rs2Field c == 0) .rs2Field (.ok i)))

/-- DIVREM: Z must be 0 and RD differ from RD2 (R46). -/
def decodeDivrem (c : CommandWord) (i : Instr) : Except Illegal Instr :=
  require (zField c == 0#8) .zField (require (rdField c != rd2Field c) .sameDestination (.ok i))

/-- S is fixed by R46. -/
def requireSign (c : CommandWord) (sg : Signedness) (k : Except Illegal Instr) : Except Illegal Instr :=
  require (signField c == sg) .signBit k

/-- W is fixed by R46. -/
def requireWidth (c : CommandWord) (w : Width) (k : Except Illegal Instr) : Except Illegal Instr :=
  require (widthField c == w) .widthBit k

/-- `Decode(c)` of R48 over the opcode map R46. A word of the reserved range decodes to the table's own row for it,
`Instr.reserved`, whose meaning is the IllegalCommand that R47 gives every such word (log 6). -/
def decode (c : CommandWord) : Except Illegal Instr :=
  let w := widthField c
  let sg := signField c
  let rd := rdField c
  let rs1 := rs1Field c
  let rs2 := rs2Field c
  let rd2 := rd2Field c
  let imm := immField c
  match (opField c).toNat with
  | 0x00 => require (c == 0x00000000#32) .fixedWord (.ok .nop)
  | 0x01 => decodeThree c (.add w sg rd rs1 rs2)
  | 0x02 => decodeThree c (.sub w sg rd rs1 rs2)
  | 0x03 => decodeThree c (.mul w sg rd rs1 rs2)
  | 0x04 =>
    match sg with
    | .unsigned => decodeDivrem c (.divremU w rd rd2 rs1 rs2)
    | .signed => decodeDivrem c (.divremS w rd rd2 rs1 rs2)
  | 0x05 =>
    match sg with
    | .unsigned => decodeThree c (.cmpU w rd rs1 rs2)
    | .signed => decodeThree c (.cmpS w rd rs1 rs2)
  | 0x06 => decodeThree c (.shl w sg rd rs1 rs2)
  | 0x07 => requireSign c .unsigned (decodeThree c (.shr w rd rs1 rs2))
  | 0x08 => .ok (.shli w sg rd rs1 imm)
  | 0x09 => requireSign c .unsigned (.ok (.shri w rd rs1 imm))
  | 0x0A => decodeThree c (.and w sg rd rs1 rs2)
  | 0x0B => decodeThree c (.or w sg rd rs1 rs2)
  | 0x0C => decodeThree c (.xor w sg rd rs1 rs2)
  | 0x0D => decodeTwo c (.not w sg rd rs1)
  | 0x0E =>
    requireSign c .unsigned (require (imm.toNat ≤ 9) .digit (.ok (.decacc w rd rs1 (imm.setWidth 4))))
  | 0x0F => require (rs1 == 0) .rs1Field (.ok (.ldi w sg rd imm))
  | 0x10 => requireWidth c .w256 (decodeTwo c (.ext sg rd rs1))
  | 0x11 => requireWidth c .w128 (requireSign c .unsigned (decodeTwo c (.trunc rd rs1)))
  | 0x12 => requireWidth c .w128 (decodeTwo c (.truncc sg rd rs1))
  | 0x13 => decodeTwo c (.neg w sg rd rs1)
  | 0x14 => requireSign c .signed (decodeTwo c (.abs w rd rs1))
  | 0x15 => decodeTwo c (.sign w sg rd rs1)
  | 0x16 => require (c == 0x00000016#32) .fixedWord (.ok .clrst)
  | _ => .ok (.reserved (opField c) (c.extractLsb' 6 26))

/-- The instruction that the decoder reads from an opcode-table word of `nbits` bits. Every row is one 32-bit word
(R39) and the block has no byte view (R29), so the word is the number itself (log 6). -/
def decodeTableWord (nbits w : Nat) : Option Instr :=
  if nbits ≤ 32 then (decode (BitVec.ofNat 32 (w % 2 ^ nbits))).toOption else none

/-! ### Encode (R41 to R43, R46) -/

/-- Format R, bit 31 first: `00000000 eeee bbbb aaaa dddd s w oooooo` (R41). -/
def formatR (op : BitVec 6) (w : Width) (sg : Signedness) (rd rs1 rs2 rd2 : Reg) : CommandWord :=
  0#8 ++ rd2.toBits ++ rs2.toBits ++ rs1.toBits ++ rd.toBits ++ sg.toBit ++ w.toBit ++ op

/-- Format I, bit 31 first: `iiiiiiiiiiiiiiii aaaa dddd s w oooooo` (R42). -/
def formatI (op : BitVec 6) (w : Width) (sg : Signedness) (rd rs1 : Reg) (imm : BitVec 16) : CommandWord :=
  imm ++ rs1.toBits ++ rd.toBits ++ sg.toBit ++ w.toBit ++ op

/-- The command word of an instruction (R46). -/
def encode : Instr → CommandWord
  | .nop => 0x00000000#32
  | .add w sg rd rs1 rs2 => formatR 0x01 w sg rd rs1 rs2 0
  | .sub w sg rd rs1 rs2 => formatR 0x02 w sg rd rs1 rs2 0
  | .mul w sg rd rs1 rs2 => formatR 0x03 w sg rd rs1 rs2 0
  | .divremU w rd rd2 rs1 rs2 => formatR 0x04 w .unsigned rd rs1 rs2 rd2
  | .divremS w rd rd2 rs1 rs2 => formatR 0x04 w .signed rd rs1 rs2 rd2
  | .cmpU w rd rs1 rs2 => formatR 0x05 w .unsigned rd rs1 rs2 0
  | .cmpS w rd rs1 rs2 => formatR 0x05 w .signed rd rs1 rs2 0
  | .shl w sg rd rs1 rs2 => formatR 0x06 w sg rd rs1 rs2 0
  | .shr w rd rs1 rs2 => formatR 0x07 w .unsigned rd rs1 rs2 0
  | .shli w sg rd rs1 imm => formatI 0x08 w sg rd rs1 imm
  | .shri w rd rs1 imm => formatI 0x09 w .unsigned rd rs1 imm
  | .and w sg rd rs1 rs2 => formatR 0x0A w sg rd rs1 rs2 0
  | .or w sg rd rs1 rs2 => formatR 0x0B w sg rd rs1 rs2 0
  | .xor w sg rd rs1 rs2 => formatR 0x0C w sg rd rs1 rs2 0
  | .not w sg rd rs1 => formatR 0x0D w sg rd rs1 0 0
  | .decacc w rd rs1 digit => formatI 0x0E w .unsigned rd rs1 (digit.setWidth 16)
  | .ldi w sg rd imm => formatI 0x0F w sg rd 0 imm
  | .ext sg rd rs1 => formatR 0x10 .w256 sg rd rs1 0 0
  | .trunc rd rs1 => formatR 0x11 .w128 .unsigned rd rs1 0 0
  | .truncc sg rd rs1 => formatR 0x12 .w128 sg rd rs1 0 0
  | .neg w sg rd rs1 => formatR 0x13 w sg rd rs1 0 0
  | .abs w rd rs1 => formatR 0x14 w .signed rd rs1 0 0
  | .sign w sg rd rs1 => formatR 0x15 w sg rd rs1 0 0
  | .clrst => 0x00000016#32
  | .reserved op rest => rest ++ op

end Sys2Proof
end

