-- ==== Sys2Proof/Config.lean ====
section
/-! DEFINITION. What the spec leaves open: the free values, and the named parameters with their defaults. -/

namespace Sys2Proof

/-- DEC_LEADING_ZEROS: whether decimal input may carry leading zeros (R8, R87, D15). -/
inductive LeadingZeros where
  | reject
  | accept
  deriving DecidableEq, Repr

/-- The spec's default for DEC_LEADING_ZEROS (R8, D15). The parser takes the parameter as an argument. -/
def Config.decLeadingZeros : LeadingZeros := .reject

/-- The content of each register after the n-th HostReset: "any 256-bit value" (R116, I1). A FREE VALUE: it has no
body, so nothing about it can be proved (log 2). -/
opaque Config.freeReg : Nat → Reg → RegWord

end Sys2Proof
end

