-- ==== Sys2Proof/Machine/State.lean ====
section
/-! DEFINITION. The state of SSBML-CORE, its reset value, and the reasons a run can stop. Plain data only. -/

namespace Sys2Proof.Machine

/-- The error kinds (R13, R108). Commands raise `divideByZero`, `overflow` and `illegalCommand`; `formatError` and
`invalidArgument` are raised by host functions only. -/
inductive ErrorKind where
  | divideByZero
  | overflow
  | formatError
  | invalidArgument
  | illegalCommand
  deriving DecidableEq, Repr

/-- The five port operations through which the host reaches the block (R22). -/
inductive PortOp where
  /-- HostWriteWord(i, k, v) -/
  | writeWord (i : Reg) (k : WordIndex) (v : PortWord)
  /-- HostReadWord(i, k) -/
  | readWord (i : Reg) (k : WordIndex)
  /-- HostIssue(c) -/
  | issue (c : CommandWord)
  /-- HostReadStatus() -/
  | readStatus
  /-- HostReset() -/
  | reset
  deriving DecidableEq, Repr

/-- What a port operation returns to the host (R22, column "result"). -/
inductive Reply where
  /-- the 64-bit word a HostReadWord returns -/
  | word (v : PortWord)
  /-- the 32-bit STATUS a HostReadStatus returns -/
  | status (v : BitVec 32)
  deriving DecidableEq, Repr

/-- The block's registers, the spec's model-only bookkeeping, and the host agent at the other end of the port. -/
structure State where
  /-- operand registers r0 to r15 (R14) -/
  regs : Vector RegWord 16
  /-- STATUS (R18) -/
  status : BitVec 32
  /-- written[i], the spec's bookkeeping (R26) -/
  written : Vector Bool 16
  /-- wmask[i]: bit k is set when word k was written by HostWriteWord since reset (R26) -/
  wmask : Vector (BitVec 4) 16
  /-- the port operations the host has still to perform, first one next (R21, R123, log 4) -/
  pending : List PortOp
  /-- the results handed to the host, oldest first (R22, log 5) -/
  replies : List Reply
  /-- the model's own counter of HostReset operations, the argument of the free values (log 2) -/
  draws : Nat
  deriving DecidableEq, Repr

/-- Why a run may stop with a fault. -/
inductive Fault where
  /-- UnwrittenRead(i): a command reads register i, which nothing has written since reset (R26). Raised by
  `strictStep` only, the step that adds the spec's model-only check; `step` and `exec` never raise it, since "the
  hardware has no such fault". Safe. -/
  | unwrittenRead (i : Reg)
  deriving DecidableEq, Repr

/-- Why a run may stop without a meaning. -/
inductive Refusal where
  /-- The instruction with this mnemonic has no meaning yet. Raised by `exec` only, and by no arm of it now. Safe. -/
  | notModelled (mnemonic : String)
  deriving DecidableEq, Repr

/-- The machine right after reset (R116, R117): STATUS 0, nothing written, nothing pending. The registers' contents
are unspecified; the model names 0 for each (DESIGN CHOICE, unsafe, log 1). -/
def State.reset : State where
  regs := Vector.replicate 16 0#256
  status := 0#32
  written := Vector.replicate 16 false
  wmask := Vector.replicate 16 0#4
  pending := []
  replies := []
  draws := 0

end Sys2Proof.Machine
end

