-- ==== Sys2Proof/Machine/Flags.lean ====
section
/-! DEFINITION. STATUS: its fields, and what a successful command and an error write to it (R18, R19, R108, R110).
The block has no condition flags (R20). -/

namespace Sys2Proof.Machine

/-- The numeric code of an error kind (R108). -/
def ErrorKind.code : ErrorKind → BitVec 3
  | .divideByZero => 1#3
  | .overflow => 2#3
  | .formatError => 3#3
  | .invalidArgument => 4#3
  | .illegalCommand => 5#3

/-- The sticky bit that an error sets (R110): DZ is bit 4, OV bit 5, IL bit 6 (R18). The host functions' two kinds
have none. -/
def ErrorKind.sticky : ErrorKind → BitVec 32
  | .divideByZero => 0x10#32
  | .overflow => 0x20#32
  | .illegalCommand => 0x40#32
  | .formatError => 0#32
  | .invalidArgument => 0#32

/-- STATUS.CODE, bits 2:0 (R18). -/
def statusCode (st : BitVec 32) : BitVec 3 := st.extractLsb' 0 3
/-- STATUS.DZ, bit 4 (R18). -/
def statusDZ (st : BitVec 32) : Bool := st.getLsbD 4
/-- STATUS.OV, bit 5 (R18). -/
def statusOV (st : BitVec 32) : Bool := st.getLsbD 5
/-- STATUS.IL, bit 6 (R18). -/
def statusIL (st : BitVec 32) : Bool := st.getLsbD 6

/-- The bits of STATUS that exist; bit 3 and bits 31:7 are hardwired 0 (R18). -/
def statusMask : BitVec 32 := 0x77#32

/-- STATUS with CODE replaced and every other bit kept. -/
def withCode (st : BitVec 32) (k : BitVec 3) : BitVec 32 := (st &&& ~~~0x7#32) ||| k.setWidth 32

/-- STATUS after a command that completes: CODE <- 0, the sticky bits unchanged (R19). -/
def statusAfterSuccess (st : BitVec 32) : BitVec 32 := withCode st 0#3

/-- STATUS after a command that raises an error: CODE <- k and the error's sticky bit <- 1 (R110). -/
def statusAfterError (e : ErrorKind) (st : BitVec 32) : BitVec 32 := withCode st e.code ||| e.sticky

end Sys2Proof.Machine
end

