-- ==== Sys2Proof/Machine/Numbers.lean ====
section
/-! DEFINITION. The notation of R9 and R10: words and limbs of a value, and its readings as an integer. -/

namespace Sys2Proof

/-- Word k of a register, bits 64k+63..64k (R9). -/
def getWord (v : RegWord) (k : WordIndex) : PortWord := v.extractLsb' (64 * k.val) 64

/-- A register with word k replaced and every other bit kept (R22). -/
def setWord (v : RegWord) (k : WordIndex) (x : PortWord) : RegWord :=
  (v &&& ~~~((BitVec.allOnes 64).setWidth 256 <<< (64 * k.val))) ||| (x.setWidth 256 <<< (64 * k.val))

/-- uval_W: the unsigned value of the W low bits (R10). -/
def uval (w : Width) (v : RegWord) : Nat := v.toNat % 2 ^ w.bits

/-- v[W-1] (R10). -/
def topBit (w : Width) (v : RegWord) : Bool := v.getLsbD (w.bits - 1)

/-- sval_W: the two's-complement value of the W low bits (R10). -/
def sval (w : Width) (v : RegWord) : Int := (uval w v : Int) - if topBit w v then 2 ^ w.bits else 0

/-- zext_256(enc_W(n)): the register content that a W-bit result n leaves (R10, R16). -/
def enc (w : Width) (n : Int) : RegWord := BitVec.ofInt 256 (n % 2 ^ w.bits)

/-- MaxU(W) (R10). -/
def maxU (w : Width) : Nat := 2 ^ w.bits - 1

/-- MaxS(W) (R10). -/
def maxS (w : Width) : Int := 2 ^ (w.bits - 1) - 1

/-- MinS(W) (R10). -/
def minS (w : Width) : Int := -2 ^ (w.bits - 1)

/-- The value of a list of words, least significant first (R9). -/
def wordsValue {n : Nat} (ws : List (BitVec n)) : Nat := ws.foldr (fun x acc => x.toNat + 2 ^ n * acc) 0

/-- The n-bit words of a W-bit value, least significant first: words at n = 64, limbs at n = 32 (R9). -/
def wordsOf (n : Nat) {m : Nat} (v : BitVec m) : List (BitVec n) :=
  (List.range (m / n)).map fun k => v.extractLsb' (n * k) n

end Sys2Proof
end

