-- ==== Sys2Proof/Machine/Ops.lean ====
section
/-! DEFINITION. The named operations over the state: registers, STATUS, raising an error (the block's only
exception, R110), and four of the five port operations (R22). HostIssue is in Machine/Port.lean. -/

namespace Sys2Proof.Machine

/-! ### Registers (R14) -/

/-- x[i]. -/
def State.reg (s : State) (i : Reg) : RegWord := s.regs[i]

/-- written[i] (R26). -/
def State.isWritten (s : State) (i : Reg) : Bool := s.written[i]

/-- wmask[i] (R26). -/
def State.hostMask (s : State) (i : Reg) : BitVec 4 := s.wmask[i]

/-- `x[i] <- v` by a command, which makes the register written (R11, R26). -/
def State.setReg (s : State) (i : Reg) (v : RegWord) : State :=
  { s with regs := s.regs.set i v, written := s.written.set i true }

/-! ### STATUS (R18) -/

/-- STATUS as the host reads it: the reserved bits are hardwired 0 (R18, I7, log 8). -/
def State.statusWord (s : State) : BitVec 32 := s.status &&& statusMask

/-- STATUS.CODE. -/
def State.code (s : State) : BitVec 3 := statusCode s.status
/-- STATUS.DZ. -/
def State.dz (s : State) : Bool := statusDZ s.status
/-- STATUS.OV. -/
def State.ov (s : State) : Bool := statusOV s.status
/-- STATUS.IL. -/
def State.il (s : State) : Bool := statusIL s.status

/-- A command completes: `STATUS.CODE <- 0` (R19, R49). -/
def State.succeed (s : State) : State := { s with status := statusAfterSuccess s.status }

/-- `raise E` (R110): the error is recorded in STATUS and nothing else changes. Nothing is saved and control goes
nowhere, so there is no return from it (R111). -/
def State.raise (s : State) (e : ErrorKind) : State := { s with status := statusAfterError e s.status }

/-- CLRST's write of all of STATUS (R105). -/
def State.clearStatus (s : State) : State := { s with status := 0#32 }

/-! ### Port operations (R22) -/

/-- HostWriteWord: word k of x[i] is replaced; the register counts as written once all four words have been
host-written since reset (R22, R23, R26). -/
def State.hostWriteWord (s : State) (i : Reg) (k : WordIndex) (v : PortWord) : State :=
  let mask := s.hostMask i ||| (1#4 <<< k.val)
  { s with
    regs := s.regs.set i (setWord (s.reg i) k v)
    wmask := s.wmask.set i mask
    written := s.written.set i (s.isWritten i || mask == 0xF#4) }

/-- HostReadWord: the host receives word k of x[i], and nothing else changes (R22, R33). -/
def State.hostReadWord (s : State) (i : Reg) (k : WordIndex) : State :=
  { s with replies := s.replies ++ [.word (getWord (s.reg i) k)] }

/-- HostReadStatus: the host receives STATUS, and nothing else changes (R22, R33). -/
def State.hostReadStatus (s : State) : State :=
  { s with replies := s.replies ++ [.status s.statusWord] }

/-- HostReset (R116): STATUS 0, every register any value (a free value, log 2), nothing written. -/
def State.hostReset (s : State) : State :=
  { s with
    status := 0#32
    regs := Vector.ofFn fun i => Config.freeReg s.draws i
    written := Vector.replicate 16 false
    wmask := Vector.replicate 16 0#4
    draws := s.draws + 1 }

end Sys2Proof.Machine
end

