-- ==== Sys2Proof/Machine/Operands.lean ====
section
/-! DEFINITION. Operand forms: reading a source at width W (R15), writing results (R16), immediates (R45), and which
registers each command reads and writes. -/

namespace Sys2Proof.Machine

/-- x[i][W-1:0]: bits above W are ignored (R15). -/
def State.source (s : State) (w : Width) (i : Reg) : BitVec w.bits := (s.reg i).setWidth w.bits

/-- A command completes with one result: `x[d] <- zext_256(v)` (R16), then CODE <- 0 (R49). -/
def State.complete {n : Nat} (s : State) (d : Reg) (v : BitVec n) : Host.Outcome State Fault Refusal :=
  .next (s.setReg d (v.setWidth 256)).succeed

/-- A command completes with two results, DIVREM's quotient and remainder (R64, R65). -/
def State.completeTwo {n : Nat} (s : State) (d1 : Reg) (v1 : BitVec n) (d2 : Reg) (v2 : BitVec n) :
    Host.Outcome State Fault Refusal :=
  .next ((s.setReg d1 (v1.setWidth 256)).setReg d2 (v2.setWidth 256)).succeed

/-- A command ends with an error (R110): the next state is the one before it, but for STATUS. -/
def State.fail (s : State) (e : ErrorKind) : Host.Outcome State Fault Refusal := .next (s.raise e)

/-- LDI's value: zext_W(imm) at S = 0, sext_W(imm) at S = 1 (R45, R93). -/
def immediate (n : Nat) (sg : Signedness) (imm : BitVec 16) : BitVec n :=
  match sg with
  | .unsigned => imm.setWidth n
  | .signed => imm.signExtend n

/-- −1, 0 or 1 as an n-bit two's-complement value (D9, R70, R103). -/
def ternary (n : Nat) (less equal : Bool) : BitVec n :=
  if less then BitVec.allOnes n else if equal then 0#n else 1#n

/-- The registers a command reads, in the order its rule names them (R49). -/
def sources : Instr → List Reg
  | .nop | .clrst | .ldi .. | .reserved .. => []
  | .add _ _ _ a b | .sub _ _ _ a b | .mul _ _ _ a b | .divremU _ _ _ a b | .divremS _ _ _ a b
  | .cmpU _ _ a b | .cmpS _ _ a b | .shl _ _ _ a b | .shr _ _ a b
  | .and _ _ _ a b | .or _ _ _ a b | .xor _ _ _ a b => [a, b]
  | .shli _ _ _ a _ | .shri _ _ a _ | .not _ _ _ a | .decacc _ _ a _ | .ext _ _ a | .trunc _ a | .truncc _ _ a
  | .neg _ _ _ a | .abs _ _ a | .sign _ _ _ a => [a]

/-- The registers a command writes when it completes (R49). -/
def destinations : Instr → List Reg
  | .nop | .clrst | .reserved .. => []
  | .divremU _ rd rd2 _ _ | .divremS _ rd rd2 _ _ => [rd, rd2]
  | .add _ _ rd _ _ | .sub _ _ rd _ _ | .mul _ _ rd _ _ | .cmpU _ rd _ _ | .cmpS _ rd _ _ | .shl _ _ rd _ _
  | .shr _ rd _ _ | .and _ _ rd _ _ | .or _ _ rd _ _ | .xor _ _ rd _ _ | .shli _ _ rd _ _ | .shri _ rd _ _
  | .not _ _ rd _ | .decacc _ rd _ _ | .ldi _ _ rd _ | .ext _ rd _ | .trunc rd _ | .truncc _ rd _
  | .neg _ _ rd _ | .abs _ rd _ | .sign _ _ rd _ => [rd]

end Sys2Proof.Machine
end

