-- ==== Sys2Proof/Machine/AddSub.lean ====
section
/-! DEFINITION. The adder and the subtractor: ADD and SUB (spec/40_addsub.md). -/

namespace Sys2Proof.Machine

/-- ADD (R56): the sum modulo 2^W; the carry out is recorded nowhere (R54, R20). -/
def execAdd (w : Width) (_sg : Signedness) (rd rs1 rs2 : Reg) (s : State) : Host.Outcome State Fault Refusal :=
  s.complete rd (s.source w rs1 + s.source w rs2)

/-- SUB (R57): the difference modulo 2^W; the borrow out is recorded nowhere. -/
def execSub (w : Width) (_sg : Signedness) (rd rs1 rs2 : Reg) (s : State) : Host.Outcome State Fault Refusal :=
  s.complete rd (s.source w rs1 - s.source w rs2)

end Sys2Proof.Machine
end

