-- ==== Sys2Proof/Machine/Compare.lean ====
section
/-! DEFINITION. The comparator: CMP at both signednesses (spec/43_compare.md). -/

namespace Sys2Proof.Machine

/-- CMP, S = 0 (R70): the unsigned order. -/
def execCmpU (w : Width) (rd rs1 rs2 : Reg) (s : State) : Host.Outcome State Fault Refusal :=
  let a := s.source w rs1
  let b := s.source w rs2
  s.complete rd (ternary w.bits (a.ult b) (a == b))

/-- CMP, S = 1 (R71): the two's-complement order. -/
def execCmpS (w : Width) (rd rs1 rs2 : Reg) (s : State) : Host.Outcome State Fault Refusal :=
  let a := s.source w rs1
  let b := s.source w rs2
  s.complete rd (ternary w.bits (a.slt b) (a == b))

end Sys2Proof.Machine
end

