-- ==== Sys2Proof/Machine/Convert.lean ====
section
/-! DEFINITION. Immediate load and width conversion: LDI, EXT, TRUNC, TRUNCC (spec/47_convert.md). -/

namespace Sys2Proof.Machine

/-- LDI (R93). -/
def execLdi (w : Width) (sg : Signedness) (rd : Reg) (imm : BitVec 16) (s : State) :
    Host.Outcome State Fault Refusal :=
  s.complete rd (immediate w.bits sg imm)

/-- 128 to 256 bits, with zeros or with copies of bit 127 (R94). -/
def widen (sg : Signedness) (a : BitVec 128) : RegWord :=
  match sg with
  | .unsigned => a.setWidth 256
  | .signed => a.signExtend 256

/-- EXT (R94). -/
def execExt (sg : Signedness) (rd rs1 : Reg) (s : State) : Host.Outcome State Fault Refusal :=
  s.complete rd (widen sg ((s.reg rs1).setWidth 128))

/-- TRUNC (R95): the high 128 bits are discarded whatever they hold. -/
def execTrunc (rd rs1 : Reg) (s : State) : Host.Outcome State Fault Refusal :=
  s.complete rd ((s.reg rs1).setWidth 128)

/-- The 256-bit value lies in the range of the 128-bit type of the same signedness (R96). -/
def fits128 (sg : Signedness) (v : RegWord) : Bool :=
  match sg with
  | .unsigned => v.toNat ≤ maxU .w128
  | .signed => minS .w128 ≤ v.toInt && v.toInt ≤ maxS .w128

/-- TRUNCC (R96). -/
def execTruncc (sg : Signedness) (rd rs1 : Reg) (s : State) : Host.Outcome State Fault Refusal :=
  if fits128 sg (s.reg rs1) then s.complete rd ((s.reg rs1).setWidth 128) else s.fail .overflow

end Sys2Proof.Machine
end

