-- ==== Sys2Proof/Machine/DecimalStep.lean ====
section
/-! DEFINITION. The checked multiply-by-ten-and-add step: DECACC (spec/46_text.md, R85). -/

namespace Sys2Proof.Machine

/-- m·10 + d, or nothing when it is above MaxU(W) (R85; the exact check of C4, not the source's threshold alone). -/
def decimalStep {n : Nat} (m : BitVec n) (d : Nat) : Option (BitVec n) :=
  let t := m.toNat * 10 + d
  if t < 2 ^ n then some (BitVec.ofNat n t) else none

/-- DECACC (R85). A digit above 9 is IllegalCommand (R46), which `decode` settles before this (R112, log 7). -/
def execDecacc (w : Width) (rd rs1 : Reg) (digit : BitVec 4) (s : State) : Host.Outcome State Fault Refusal :=
  if 9 < digit.toNat then s.fail .illegalCommand
  else
    match decimalStep (s.source w rs1) digit.toNat with
    | some v => s.complete rd v
    | none => s.fail .overflow

end Sys2Proof.Machine
end

