-- ==== Sys2Proof/Machine/Divide.lean ====
section
/-! DEFINITION. The long-division engine: DIVREM at both signednesses (spec/42_divide.md). -/

namespace Sys2Proof.Machine

/-- The magnitude of a two's-complement value, read unsigned; 2^(W-1) for the least value (R65). -/
def magnitude {n : Nat} (a : BitVec n) : BitVec n := if a.msb then -a else a

/-- The sign rule: negate a magnitude when the sign is negative (R65). -/
def applySign {n : Nat} (negative : Bool) (m : BitVec n) : BitVec n := if negative then -m else m

/-- The quotient of R65, from the magnitudes and the exclusive or of the signs. -/
def signedQuotient {n : Nat} (a b : BitVec n) : BitVec n :=
  applySign (a.msb ^^ b.msb) (magnitude a / magnitude b)

/-- The remainder of R65, whose sign follows the dividend. -/
def signedRemainder {n : Nat} (a b : BitVec n) : BitVec n :=
  applySign a.msb (magnitude a % magnitude b)

/-- DIVREM, S = 0 (R64). RD = RD2 is IllegalCommand (R46), which `decode` settles before this (R112, log 7). -/
def execDivremU (w : Width) (rd rd2 rs1 rs2 : Reg) (s : State) : Host.Outcome State Fault Refusal :=
  if rd = rd2 then s.fail .illegalCommand
  else
    let u := s.source w rs1
    let v := s.source w rs2
    if v = 0 then s.fail .divideByZero else s.completeTwo rd (u / v) rd2 (u % v)

/-- DIVREM, S = 1 (R65): truncation toward zero, by the sign-magnitude procedure. -/
def execDivremS (w : Width) (rd rd2 rs1 rs2 : Reg) (s : State) : Host.Outcome State Fault Refusal :=
  if rd = rd2 then s.fail .illegalCommand
  else
    let a := s.source w rs1
    let b := s.source w rs2
    if b = 0 then s.fail .divideByZero
    else s.completeTwo rd (signedQuotient a b) rd2 (signedRemainder a b)

end Sys2Proof.Machine
end

