-- ==== Sys2Proof/Machine/Logic.lean ====
section
/-! DEFINITION. The bitwise logic unit: AND, OR, XOR, NOT (spec/45_logic.md, R80). -/

namespace Sys2Proof.Machine

/-- AND (R81). -/
def execAnd (w : Width) (_sg : Signedness) (rd rs1 rs2 : Reg) (s : State) : Host.Outcome State Fault Refusal :=
  s.complete rd (s.source w rs1 &&& s.source w rs2)

/-- OR (R82). -/
def execOr (w : Width) (_sg : Signedness) (rd rs1 rs2 : Reg) (s : State) : Host.Outcome State Fault Refusal :=
  s.complete rd (s.source w rs1 ||| s.source w rs2)

/-- XOR (R83). -/
def execXor (w : Width) (_sg : Signedness) (rd rs1 rs2 : Reg) (s : State) : Host.Outcome State Fault Refusal :=
  s.complete rd (s.source w rs1 ^^^ s.source w rs2)

/-- NOT (R84): only the W low bits are complemented. -/
def execNot (w : Width) (_sg : Signedness) (rd rs1 : Reg) (s : State) : Host.Outcome State Fault Refusal :=
  s.complete rd (~~~ s.source w rs1)

end Sys2Proof.Machine
end

