-- ==== Sys2Proof/Machine/Multiply.lean ====
section
/-! DEFINITION. The multiplier: MUL (spec/41_multiply.md). -/

namespace Sys2Proof.Machine

/-- MUL (R60): the low W bits of the product. -/
def execMul (w : Width) (_sg : Signedness) (rd rs1 rs2 : Reg) (s : State) : Host.Outcome State Fault Refusal :=
  s.complete rd (s.source w rs1 * s.source w rs2)

end Sys2Proof.Machine
end

