-- ==== Sys2Proof/Machine/Shift.lean ====
section
/-! DEFINITION. The barrel shifter: SHL, SHR, SHLI, SHRI (spec/44_shift.md). -/

namespace Sys2Proof.Machine

/-- shl_W (R73): zeros fill, nothing reappears, and every count of W or more gives 0. -/
def shiftLeft {n : Nat} (a : BitVec n) (count : Nat) : BitVec n := if count < n then a <<< count else 0#n

/-- shr_W (R73): the logical right shift; there is no arithmetic one (R74). -/
def shiftRight {n : Nat} (a : BitVec n) (count : Nat) : BitVec n := if count < n then a >>> count else 0#n

/-- SHL (R75): by the whole unsigned W-bit value of rs2, no bit of it masked (D18). -/
def execShl (w : Width) (_sg : Signedness) (rd rs1 rs2 : Reg) (s : State) : Host.Outcome State Fault Refusal :=
  s.complete rd (shiftLeft (s.source w rs1) (s.source w rs2).toNat)

/-- SHR (R76). -/
def execShr (w : Width) (rd rs1 rs2 : Reg) (s : State) : Host.Outcome State Fault Refusal :=
  s.complete rd (shiftRight (s.source w rs1) (s.source w rs2).toNat)

/-- SHLI (R77): by uval_16(IMM16), 0 to 65535 (R45). -/
def execShli (w : Width) (_sg : Signedness) (rd rs1 : Reg) (imm : BitVec 16) (s : State) :
    Host.Outcome State Fault Refusal :=
  s.complete rd (shiftLeft (s.source w rs1) imm.toNat)

/-- SHRI (R78). -/
def execShri (w : Width) (rd rs1 : Reg) (imm : BitVec 16) (s : State) : Host.Outcome State Fault Refusal :=
  s.complete rd (shiftRight (s.source w rs1) imm.toNat)

end Sys2Proof.Machine
end

