-- ==== Sys2Proof/Machine/Signed.lean ====
section
/-! DEFINITION. The two's-complement sign unit: NEG, ABS, SIGN (spec/48_signed.md). -/

namespace Sys2Proof.Machine

/-- neg_W (R100): complement and add one. -/
def negate {n : Nat} (a : BitVec n) : BitVec n := ~~~a + 1#n

/-- NEG (R101). -/
def execNeg (w : Width) (_sg : Signedness) (rd rs1 : Reg) (s : State) : Host.Outcome State Fault Refusal :=
  s.complete rd (negate (s.source w rs1))

/-- ABS (R102): the least value wraps to itself (I12). -/
def execAbs (w : Width) (rd rs1 : Reg) (s : State) : Host.Outcome State Fault Refusal :=
  let a := s.source w rs1
  s.complete rd (if a.msb then negate a else a)

/-- SIGN (R103). -/
def execSign (w : Width) (sg : Signedness) (rd rs1 : Reg) (s : State) : Host.Outcome State Fault Refusal :=
  let a := s.source w rs1
  s.complete rd (ternary w.bits (sg == .signed && a.msb) (a == 0#w.bits))

end Sys2Proof.Machine
end

