-- ==== Sys2Proof/Machine/System.lean ====
section
/-! DEFINITION. The system commands NOP and CLRST (spec/49_system.md), and the reserved opcodes (R47). -/

namespace Sys2Proof.Machine

/-- NOP (R104): `STATUS.CODE <- 0` and nothing else. -/
def execNop (s : State) : Host.Outcome State Fault Refusal := .next s.succeed

/-- CLRST (R105): all of STATUS to 0. -/
def execClrst (s : State) : Host.Outcome State Fault Refusal := .next s.clearStatus

/-- A reserved opcode: every word of it raises IllegalCommand (R47, R110). -/
def execReserved (_op : BitVec 6) (_rest : BitVec 26) (s : State) : Host.Outcome State Fault Refusal :=
  s.fail .illegalCommand

end Sys2Proof.Machine
end

