-- ==== Sys2Proof/Machine/Dispatch.lean ====
section
/-! DEFINITION. One arm for each command (R49, "compute the command's rule"). -/

namespace Sys2Proof.Machine

/-- The effect of a decoded command on the state. -/
def exec (i : Instr) (s : State) : Host.Outcome State Fault Refusal :=
  match i with
  | .nop => Sys2Proof.Machine.execNop s
  | .add w sg rd rs1 rs2 => Sys2Proof.Machine.execAdd w sg rd rs1 rs2 s
  | .sub w sg rd rs1 rs2 => Sys2Proof.Machine.execSub w sg rd rs1 rs2 s
  | .mul w sg rd rs1 rs2 => Sys2Proof.Machine.execMul w sg rd rs1 rs2 s
  | .divremU w rd rd2 rs1 rs2 => Sys2Proof.Machine.execDivremU w rd rd2 rs1 rs2 s
  | .divremS w rd rd2 rs1 rs2 => Sys2Proof.Machine.execDivremS w rd rd2 rs1 rs2 s
  | .cmpU w rd rs1 rs2 => Sys2Proof.Machine.execCmpU w rd rs1 rs2 s
  | .cmpS w rd rs1 rs2 => Sys2Proof.Machine.execCmpS w rd rs1 rs2 s
  | .shl w sg rd rs1 rs2 => Sys2Proof.Machine.execShl w sg rd rs1 rs2 s
  | .shr w rd rs1 rs2 => Sys2Proof.Machine.execShr w rd rs1 rs2 s
  | .shli w sg rd rs1 imm => Sys2Proof.Machine.execShli w sg rd rs1 imm s
  | .shri w rd rs1 imm => Sys2Proof.Machine.execShri w rd rs1 imm s
  | .and w sg rd rs1 rs2 => Sys2Proof.Machine.execAnd w sg rd rs1 rs2 s
  | .or w sg rd rs1 rs2 => Sys2Proof.Machine.execOr w sg rd rs1 rs2 s
  | .xor w sg rd rs1 rs2 => Sys2Proof.Machine.execXor w sg rd rs1 rs2 s
  | .not w sg rd rs1 => Sys2Proof.Machine.execNot w sg rd rs1 s
  | .decacc w rd rs1 digit => Sys2Proof.Machine.execDecacc w rd rs1 digit s
  | .ldi w sg rd imm => Sys2Proof.Machine.execLdi w sg rd imm s
  | .ext sg rd rs1 => Sys2Proof.Machine.execExt sg rd rs1 s
  | .trunc rd rs1 => Sys2Proof.Machine.execTrunc rd rs1 s
  | .truncc sg rd rs1 => Sys2Proof.Machine.execTruncc sg rd rs1 s
  | .neg w sg rd rs1 => Sys2Proof.Machine.execNeg w sg rd rs1 s
  | .abs w rd rs1 => Sys2Proof.Machine.execAbs w rd rs1 s
  | .sign w sg rd rs1 => Sys2Proof.Machine.execSign w sg rd rs1 s
  | .clrst => Sys2Proof.Machine.execClrst s
  | .reserved op rest => Sys2Proof.Machine.execReserved op rest s

end Sys2Proof.Machine
end

