-- ==== Sys2Proof/Machine/Port.lean ====
section
/-! DEFINITION. The host port: HostIssue over decode and exec, and the five port operations together (R22, R49). -/

namespace Sys2Proof.Machine

/-- HostIssue(c) (R49): an illegal word raises IllegalCommand before any operand is read (R112); a legal one is
executed. -/
def State.hostIssue (s : State) (c : CommandWord) : Host.Outcome State Fault Refusal :=
  match decode c with
  | .error _ => s.fail .illegalCommand
  | .ok i => exec i s

/-- One port operation, atomic (R22, R31). -/
def State.perform (s : State) (op : PortOp) : Host.Outcome State Fault Refusal :=
  match op with
  | .writeWord i k v => .next (s.hostWriteWord i k v)
  | .readWord i k => .next (s.hostReadWord i k)
  | .issue c => s.hostIssue c
  | .readStatus => .next s.hostReadStatus
  | .reset => .next s.hostReset

/-- The host performs its next port operation. With none left the run has ended (R123), and nothing changes (log 4). -/
def State.hostStep (s : State) : Host.Outcome State Fault Refusal :=
  match s.pending with
  | [] => .next s
  | op :: rest => { s with pending := rest }.perform op

/-- The next port operation is HostIssue of the command word given; what was pending comes after it (log 4). -/
def State.issueFirst (s : State) (c : CommandWord) : State := { s with pending := .issue c :: s.pending }

end Sys2Proof.Machine
end

