-- ==== Sys2Proof/Machine/Step.lean ====
section
/-! DEFINITION. One step of the machine is one port operation (R31). -/

namespace Sys2Proof.Machine

/-- One step: the host's next port operation takes effect, whole (R31, R119). -/
def step (s : State) : Host.Outcome State Fault Refusal := s.hostStep

/-- The state whose very next step runs the instruction of the word `w` (log 4). A program comes to run from reset by
being placed in the host's list of port operations from outside the machine. -/
def State.withFetchWord (s : State) (nbits w : Nat) : State := s.issueFirst (BitVec.ofNat 32 (w % 2 ^ nbits))

end Sys2Proof.Machine
end

