-- ==== Sys2Proof/Machine/HostText.lean ====
section
/-! DEFINITION. The host text functions (R86 to R92): FormatDec, ParseDec, FormatHex, ParseHex. They are functions of
their arguments, write no state, and report their errors as values (R86). A text is a list of characters (log 12). -/

namespace Sys2Proof.Machine

/-! ### Digits -/

/-- '0' + d, for d below 10. -/
def decimalChar (d : Nat) : Char := Char.ofNat ('0'.toNat + d)

/-- The value of a decimal digit character. -/
def decimalDigit? (c : Char) : Option Nat :=
  if '0'.toNat ≤ c.toNat ∧ c.toNat ≤ '9'.toNat then some (c.toNat - '0'.toNat) else none

/-- A hexadecimal digit, in upper or lower case (R90). -/
def hexChar (upper : Bool) (d : Nat) : Char :=
  if d < 10 then decimalChar d else Char.ofNat ((if upper then 'A' else 'a').toNat + (d - 10))

/-- The value of a hexadecimal digit character of either case (R91). -/
def hexDigit? (c : Char) : Option Nat :=
  if '0'.toNat ≤ c.toNat ∧ c.toNat ≤ '9'.toNat then some (c.toNat - '0'.toNat)
  else if 'a'.toNat ≤ c.toNat ∧ c.toNat ≤ 'f'.toNat then some (c.toNat - 'a'.toNat + 10)
  else if 'A'.toNat ≤ c.toNat ∧ c.toNat ≤ 'F'.toNat then some (c.toNat - 'A'.toNat + 10)
  else none

/-! ### FormatDec (R88) -/

/-- The loop of FormatDecU: divide by ten and prepend the remainder digit until the quotient is 0. `fuel` bounds the
number of turns. -/
def formatDecLoop : (fuel u : Nat) → List Char → List Char
  | 0, _, text => text
  | fuel + 1, u, text => if u = 0 then text else formatDecLoop fuel (u / 10) (decimalChar (u % 10) :: text)

/-- FormatDecU (R88). A number has no more digits than bits, so that many turns are enough. -/
def formatDecU (u : Nat) : List Char := if u = 0 then ['0'] else formatDecLoop (u.log2 + 1) u []

/-- FormatDec(v, W, S) (R88): "-" before the magnitude of a negative value, and no other sign. -/
def formatDec (w : Width) (sg : Signedness) (v : BitVec w.bits) : List Char :=
  if sg = .signed ∧ v.msb then '-' :: formatDecU (negate v).toNat else formatDecU v.toNat

/-! ### ParseDec (R87, R89) -/

/-- The optional sign, the first character only: is it '-', and what follows it (R87). -/
def splitSign : List Char → Bool × List Char
  | '-' :: rest => (true, rest)
  | '+' :: rest => (false, rest)
  | text => (false, text)

/-- The digits of the grammar of R87, without the sign. -/
def decimalGrammar (zeros : LeadingZeros) (digits : List Char) : Bool :=
  digits.all (fun c => (decimalDigit? c).isSome) &&
    match digits with
    | [] => false
    | [_] => true
    | first :: _ :: _ => zeros == .accept || first != '0'

/-- The accumulation of R89: one DECACC step for each digit, left to right; nothing on Overflow. -/
def accumulate {n : Nat} (m : BitVec n) : List Char → Option (BitVec n)
  | [] => some m
  | c :: rest =>
    match decimalStep m ((decimalDigit? c).getD 0) with
    | some m' => accumulate m' rest
    | none => none

/-- The range check and the sign of R89, on the magnitude m that the digits give. -/
def signMagnitude (w : Width) (sg : Signedness) (allowNeg neg : Bool) (m : BitVec w.bits) :
    Except ErrorKind (BitVec w.bits) :=
  if m = 0 then .ok 0
  else
    match sg with
    | .unsigned => if !neg then .ok m else if allowNeg then .ok (negate m) else .error .overflow
    | .signed =>
      if neg then if m.toNat > 2 ^ (w.bits - 1) then .error .overflow else .ok (negate m)
      else if (m.toNat : Int) > maxS w then .error .overflow
      else .ok m

/-- ParseDec(s, W, S, allowNeg) (R89), with DEC_LEADING_ZEROS as an argument (R87, log 11). FormatError comes before
Overflow (R112). -/
def parseDec (zeros : LeadingZeros) (w : Width) (sg : Signedness) (allowNeg : Bool) (text : List Char) :
    Except ErrorKind (BitVec w.bits) :=
  let (neg, digits) := splitSign text
  if !decimalGrammar zeros digits then .error .formatError
  else
    match accumulate (0#w.bits) digits with
    | none => .error .overflow
    | some m => signMagnitude w sg allowNeg neg m

/-! ### FormatHex (R90) -/

/-- Remove leading '0' characters while more than one character is left (R90). -/
def trimZeros : List Char → List Char
  | '0' :: c :: rest => trimZeros (c :: rest)
  | text => text

/-- Zeros in front until the text has `minDigits` characters (R90). -/
def padZeros (minDigits : Nat) (text : List Char) : List Char :=
  List.replicate (minDigits - text.length) '0' ++ text

/-- The W/4 nibbles of a value, most significant first, each as one digit (R90). -/
def nibbleText {n : Nat} (upper : Bool) (v : BitVec n) : List Char :=
  (List.range (n / 4)).reverse.map fun k => hexChar upper (v.extractLsb' (4 * k) 4).toNat

/-- FormatHex(v, W, upper, minDigits, trim) (R90): the bit pattern, with no sign and no prefix. -/
def formatHex (w : Width) (upper : Bool) (minDigits : Nat) (trim : Bool) (v : BitVec w.bits) : List Char :=
  let digits := nibbleText upper v
  padZeros minDigits (if trim then trimZeros digits else digits)

/-- The format specifier of R90: `X` or `x`, then an optional decimal count, default 1. Anything else is FormatError
(DESIGN CHOICE, log 12). -/
def formatHexBySpecifier (w : Width) (specifier : List Char) (v : BitVec w.bits) :
    Except ErrorKind (List Char) :=
  match specifier with
  | [] => .error .formatError
  | kind :: count =>
    if (kind = 'X' ∨ kind = 'x') ∧ count.all (fun c => (decimalDigit? c).isSome) then
      let n := if count = [] then 1 else count.foldl (fun acc c => acc * 10 + (decimalDigit? c).getD 0) 0
      .ok (formatHex w (kind = 'X') n true v)
    else .error .formatError

/-! ### ParseHex (R91) -/

/-- The sign of R91: taken at S = 1 only, before the prefix. -/
def splitHexSign (sg : Signedness) (text : List Char) : Bool × List Char :=
  match sg with
  | .unsigned => (false, text)
  | .signed => splitSign text

/-- The optional prefix of R91, "0x" or "x" in either case. -/
def dropHexPrefix : List Char → List Char
  | '0' :: 'x' :: rest => rest
  | '0' :: 'X' :: rest => rest
  | 'x' :: rest => rest
  | 'X' :: rest => rest
  | text => text

/-- The bits packed from the digits: the last character is v[3:0] (R91). -/
def packNibbles (n : Nat) (digits : List Char) : BitVec n :=
  BitVec.ofNat n (digits.foldl (fun acc c => acc * 16 + (hexDigit? c).getD 0) 0)

/-- ParseHex(s, W, S) (R91). The digit count is the literal count after the prefix; FormatError comes before Overflow
(R112). -/
def parseHex (w : Width) (sg : Signedness) (text : List Char) : Except ErrorKind (BitVec w.bits) :=
  let (neg, rest) := splitHexSign sg text
  let digits := dropHexPrefix rest
  if digits = [] ∨ !digits.all (fun c => (hexDigit? c).isSome) then .error .formatError
  else if w.bits / 4 < digits.length then .error .overflow
  else
    let v := packNibbles w.bits digits
    .ok (if neg then negate v else v)

end Sys2Proof.Machine
end

