-- ==== Sys2Proof/Machine/Assembler.lean ====
section
/-! DEFINITION. The assembler syntax (R12, R52) and the pseudo-instructions (R53). A line is a list of characters;
what the spec leaves open of the syntax (white space, the digits of an immediate, lines whose word is illegal) is in
log 13. -/

namespace Sys2Proof.Machine

/-! ### Pseudo-instructions (R53) -/

/-- The pseudo-instructions of R53. -/
inductive Pseudo where
  /-- MOV.U<W> rd, rs -/
  | mov (w : Width) (rd rs : Reg)
  /-- CLR.U<W> rd -/
  | clr (w : Width) (rd : Reg)
  /-- LDMAX.U<W> rd -/
  | ldmax (w : Width) (rd : Reg)
  /-- ZEXT.U256 rd, rs -/
  | zext (rd rs : Reg)
  deriving DecidableEq, Repr

/-- The command a pseudo-instruction stands for (R53). -/
def expandPseudo : Pseudo → Instr
  | .mov w rd rs => .or w .unsigned rd rs rs
  | .clr w rd => .ldi w .unsigned rd 0#16
  | .ldmax w rd => .ldi w .signed rd 0xFFFF#16
  | .zext rd rs => .trunc rd rs

/-! ### Operands and suffixes -/

/-- An operand of a line: a register, or an immediate `#n`. -/
inductive AsmOperand where
  | reg (r : Reg)
  | imm (n : Int)
  deriving DecidableEq, Repr

/-- `r0` to `r15`. -/
def regText (r : Reg) : List Char := 'r' :: formatDecU r.val

/-- `#n` in decimal. -/
def immText (n : Int) : List Char := '#' :: (if n < 0 then '-' :: formatDecU n.natAbs else formatDecU n.natAbs)

/-- The text of an operand. -/
def AsmOperand.text : AsmOperand → List Char
  | .reg r => regText r
  | .imm n => immText n

/-- The suffix of a command with W and S. -/
def suffixText (sg : Signedness) (w : Width) : List Char :=
  match sg, w with
  | .unsigned, .w128 => ".U128".toList
  | .unsigned, .w256 => ".U256".toList
  | .signed, .w128 => ".S128".toList
  | .signed, .w256 => ".S256".toList

/-- A register operand. -/
def parseReg (text : List Char) : Option Reg := (List.finRange 16).find? fun r => regText r == text

/-- A number in decimal, or in hexadecimal with the prefix `0x` (R52). The hexadecimal digits may be of either case,
and leading zeros may stand before a number (DESIGN CHOICE, log 13). -/
def parseNumber (text : List Char) : Option Nat :=
  match text with
  | '0' :: 'x' :: digits =>
    if digits ≠ [] ∧ digits.all (fun c => (hexDigit? c).isSome) then
      some (digits.foldl (fun acc c => acc * 16 + (hexDigit? c).getD 0) 0)
    else none
  | digits =>
    if digits ≠ [] ∧ digits.all (fun c => (decimalDigit? c).isSome) then
      some (digits.foldl (fun acc c => acc * 10 + (decimalDigit? c).getD 0) 0)
    else none

/-- An operand. -/
def parseOperand (text : List Char) : Option AsmOperand :=
  match text with
  | '#' :: '-' :: digits => (parseNumber digits).map fun n => .imm (-(n : Int))
  | '#' :: digits => (parseNumber digits).map fun n => .imm n
  | _ => (parseReg text).map .reg

/-- A suffix, with its dot; the empty text is no suffix. -/
def parseSuffix (text : List Char) : Option (Option (Signedness × Width)) :=
  if text = [] then some none
  else
    ([(.unsigned, .w128), (.unsigned, .w256), (.signed, .w128), (.signed, .w256)].find?
      fun p => suffixText p.1 p.2 == text).map some

/-! ### Lines -/

/-- A line cut into its parts. -/
structure AsmLine where
  name : List Char
  suffix : Option (Signedness × Width)
  operands : List AsmOperand
  deriving DecidableEq, Repr

/-- Cut a text at every comma. -/
def splitCommas : List Char → List (List Char)
  | [] => [[]]
  | ',' :: rest => [] :: splitCommas rest
  | c :: rest =>
    match splitCommas rest with
    | [] => [[c]]
    | first :: others => (c :: first) :: others

/-- A text without the spaces at its two ends. -/
def trimSpaces (text : List Char) : List Char :=
  ((text.dropWhile (· == ' ')).reverse.dropWhile (· == ' ')).reverse

/-- All operands of a text, or nothing when one is malformed. -/
def parseOperands : List (List Char) → Option (List AsmOperand)
  | [] => some []
  | text :: rest =>
    match parseOperand (trimSpaces text), parseOperands rest with
    | some o, some os => some (o :: os)
    | _, _ => none

/-- Mnemonic, suffix and operands of a line (R52). -/
def parseLine (text : List Char) : Option AsmLine :=
  let line := trimSpaces text
  let head := line.takeWhile (· != ' ')
  let tail := trimSpaces (line.dropWhile (· != ' '))
  match parseSuffix (head.dropWhile (· != '.')), (if tail = [] then some [] else parseOperands (splitCommas tail)) with
  | some suffix, some operands => some ⟨head.takeWhile (· != '.'), suffix, operands⟩
  | _, _ => none

/-- The operands joined by a comma and a space. -/
def operandsText : List AsmOperand → List Char
  | [] => []
  | [o] => o.text
  | o :: rest => o.text ++ [',', ' '] ++ operandsText rest

/-- The text of a line. -/
def AsmLine.text (l : AsmLine) : List Char :=
  l.name ++ (match l.suffix with | none => [] | some (sg, w) => suffixText sg w)
    ++ (if l.operands = [] then [] else ' ' :: operandsText l.operands)

/-! ### Disassembler (R52: "prints the suffix from the W and S bits as they stand") -/

/-- LDI's immediate as it is written: signed at S = 1 (R52). -/
def ldiNumber (sg : Signedness) (imm : BitVec 16) : Int :=
  match sg with
  | .unsigned => imm.toNat
  | .signed => imm.toInt

/-- The line of a legal command; the reserved row has no syntax. -/
def disassembleLine : Instr → Option AsmLine
  | .nop => some ⟨"NOP".toList, none, []⟩
  | .clrst => some ⟨"CLRST".toList, none, []⟩
  | .add w sg rd a b => some ⟨"ADD".toList, some (sg, w), [.reg rd, .reg a, .reg b]⟩
  | .sub w sg rd a b => some ⟨"SUB".toList, some (sg, w), [.reg rd, .reg a, .reg b]⟩
  | .mul w sg rd a b => some ⟨"MUL".toList, some (sg, w), [.reg rd, .reg a, .reg b]⟩
  | .divremU w rd rd2 a b => some ⟨"DIVREM".toList, some (.unsigned, w), [.reg rd, .reg rd2, .reg a, .reg b]⟩
  | .divremS w rd rd2 a b => some ⟨"DIVREM".toList, some (.signed, w), [.reg rd, .reg rd2, .reg a, .reg b]⟩
  | .cmpU w rd a b => some ⟨"CMP".toList, some (.unsigned, w), [.reg rd, .reg a, .reg b]⟩
  | .cmpS w rd a b => some ⟨"CMP".toList, some (.signed, w), [.reg rd, .reg a, .reg b]⟩
  | .shl w sg rd a b => some ⟨"SHL".toList, some (sg, w), [.reg rd, .reg a, .reg b]⟩
  | .shr w rd a b => some ⟨"SHR".toList, some (.unsigned, w), [.reg rd, .reg a, .reg b]⟩
  | .shli w sg rd a imm => some ⟨"SHLI".toList, some (sg, w), [.reg rd, .reg a, .imm imm.toNat]⟩
  | .shri w rd a imm => some ⟨"SHRI".toList, some (.unsigned, w), [.reg rd, .reg a, .imm imm.toNat]⟩
  | .and w sg rd a b => some ⟨"AND".toList, some (sg, w), [.reg rd, .reg a, .reg b]⟩
  | .or w sg rd a b => some ⟨"OR".toList, some (sg, w), [.reg rd, .reg a, .reg b]⟩
  | .xor w sg rd a b => some ⟨"XOR".toList, some (sg, w), [.reg rd, .reg a, .reg b]⟩
  | .not w sg rd a => some ⟨"NOT".toList, some (sg, w), [.reg rd, .reg a]⟩
  | .decacc w rd a digit => some ⟨"DECACC".toList, some (.unsigned, w), [.reg rd, .reg a, .imm digit.toNat]⟩
  | .ldi w sg rd imm => some ⟨"LDI".toList, some (sg, w), [.reg rd, .imm (ldiNumber sg imm)]⟩
  | .ext sg rd a => some ⟨"EXT".toList, some (sg, .w256), [.reg rd, .reg a]⟩
  | .trunc rd a => some ⟨"TRUNC".toList, some (.unsigned, .w128), [.reg rd, .reg a]⟩
  | .truncc sg rd a => some ⟨"TRUNCC".toList, some (sg, .w128), [.reg rd, .reg a]⟩
  | .neg w sg rd a => some ⟨"NEG".toList, some (sg, w), [.reg rd, .reg a]⟩
  | .abs w rd a => some ⟨"ABS".toList, some (.signed, w), [.reg rd, .reg a]⟩
  | .sign w sg rd a => some ⟨"SIGN".toList, some (sg, w), [.reg rd, .reg a]⟩
  | .reserved .. => none

/-- The text of a legal command. -/
def disassemble (i : Instr) : Option (List Char) := (disassembleLine i).map AsmLine.text

/-! ### Assembler -/

/-- `MNEMONIC.<S><W> rd, rs1, rs2` (R52). -/
def assembleThree (name : List Char) (sg : Signedness) (w : Width) (rd a b : Reg) : Option Instr :=
  if name = "ADD".toList then some (.add w sg rd a b)
  else if name = "SUB".toList then some (.sub w sg rd a b)
  else if name = "MUL".toList then some (.mul w sg rd a b)
  else if name = "CMP".toList then some (if sg = .unsigned then .cmpU w rd a b else .cmpS w rd a b)
  else if name = "SHL".toList then some (.shl w sg rd a b)
  else if name = "SHR".toList ∧ sg = .unsigned then some (.shr w rd a b)
  else if name = "AND".toList then some (.and w sg rd a b)
  else if name = "OR".toList then some (.or w sg rd a b)
  else if name = "XOR".toList then some (.xor w sg rd a b)
  else none

/-- `MNEMONIC.<S><W> rd, rs1` (R52), and the pseudo-instructions MOV and ZEXT (R53). -/
def assembleTwo (name : List Char) (sg : Signedness) (w : Width) (rd a : Reg) : Option Instr :=
  if name = "NOT".toList then some (.not w sg rd a)
  else if name = "NEG".toList then some (.neg w sg rd a)
  else if name = "ABS".toList ∧ sg = .signed then some (.abs w rd a)
  else if name = "SIGN".toList then some (.sign w sg rd a)
  else if name = "EXT".toList ∧ w = .w256 then some (.ext sg rd a)
  else if name = "TRUNC".toList ∧ sg = .unsigned ∧ w = .w128 then some (.trunc rd a)
  else if name = "TRUNCC".toList ∧ w = .w128 then some (.truncc sg rd a)
  else if name = "MOV".toList ∧ sg = .unsigned then some (expandPseudo (.mov w rd a))
  else if name = "ZEXT".toList ∧ sg = .unsigned ∧ w = .w256 then some (expandPseudo (.zext rd a))
  else none

/-- The pseudo-instructions with one register (R53). -/
def assembleOne (name : List Char) (sg : Signedness) (w : Width) (rd : Reg) : Option Instr :=
  if name = "CLR".toList ∧ sg = .unsigned then some (expandPseudo (.clr w rd))
  else if name = "LDMAX".toList ∧ sg = .unsigned then some (expandPseudo (.ldmax w rd))
  else none

/-- `MNEMONIC.<S><W> rd, rs1, #n`, with the range of each immediate (R52). -/
def assembleImm (name : List Char) (sg : Signedness) (w : Width) (rd a : Reg) (n : Int) : Option Instr :=
  if name = "SHLI".toList ∧ 0 ≤ n ∧ n ≤ 65535 then some (.shli w sg rd a (BitVec.ofInt 16 n))
  else if name = "SHRI".toList ∧ sg = .unsigned ∧ 0 ≤ n ∧ n ≤ 65535 then some (.shri w rd a (BitVec.ofInt 16 n))
  else if name = "DECACC".toList ∧ sg = .unsigned ∧ 0 ≤ n ∧ n ≤ 9 then some (.decacc w rd a (BitVec.ofInt 4 n))
  else none

/-- `LDI.U<W> rd, #n` with 0 ≤ n ≤ 65535, or `LDI.S<W> rd, #n` with −32768 ≤ n ≤ 32767, encoded as n mod 2^16 (R52). -/
def assembleLoad (name : List Char) (sg : Signedness) (w : Width) (rd : Reg) (n : Int) : Option Instr :=
  if name = "LDI".toList ∧ (if sg = .unsigned then 0 ≤ n ∧ n ≤ 65535 else -32768 ≤ n ∧ n ≤ 32767) then
    some (.ldi w sg rd (BitVec.ofInt 16 n))
  else none

/-- The command of a line (R52). A line of R52's operand forms whose word R46 makes illegal (SHR.S, SHRI.S, ABS.U,
TRUNC.S, EXT at 128, TRUNC and TRUNCC at 256, DIVREM with rd = rd2) has no command (DESIGN CHOICE, log 13). -/
def assembleLine (l : AsmLine) : Option Instr :=
  match l.suffix, l.operands with
  | none, [] =>
    if l.name = "NOP".toList then some .nop else if l.name = "CLRST".toList then some .clrst else none
  | some (sg, w), [.reg rd] => assembleOne l.name sg w rd
  | some (sg, w), [.reg rd, .reg a] => assembleTwo l.name sg w rd a
  | some (sg, w), [.reg rd, .reg a, .reg b] => assembleThree l.name sg w rd a b
  | some (sg, w), [.reg rd, .reg a, .imm n] => assembleImm l.name sg w rd a n
  | some (sg, w), [.reg rd, .imm n] => assembleLoad l.name sg w rd n
  | some (sg, w), [.reg rd, .reg rd2, .reg a, .reg b] =>
    if l.name = "DIVREM".toList ∧ rd ≠ rd2 then
      some (if sg = .unsigned then .divremU w rd rd2 a b else .divremS w rd rd2 a b)
    else none
  | _, _ => none

/-- The command of a text. -/
def assemble (text : List Char) : Option Instr :=
  match parseLine text with
  | some l => assembleLine l
  | none => none

end Sys2Proof.Machine
end

