-- ==== Sys2Proof/Machine/Datapath.lean ====
section
/-! DEFINITION. The reference datapaths that the spec writes out: the ripple adder (R54), the borrow subtractor (R57),
the schoolbook multiplier (R59), the normalized long division (R63), the word comparator (R69) and the word shifter
(R73). None is observable (R25, I16): the meanings are defined by value, and these are here to be proved equal. -/

namespace Sys2Proof.Machine

/-! ### Adder and subtractor over 64-bit words, least significant first -/

/-- The loop of R54: a 65-bit sum for each word, the carry going up; the last carry is discarded. -/
def rippleAdd : List (BitVec 64) → List (BitVec 64) → (carry : Bool) → List (BitVec 64)
  | a :: as, b :: bs, carry =>
    let t : BitVec 65 := a.setWidth 65 + b.setWidth 65 + (BitVec.ofBool carry).setWidth 65
    t.setWidth 64 :: rippleAdd as bs (t.getLsbD 64)
  | _, _, _ => []

/-- The loop of R57: the borrow goes up; the last borrow is discarded. -/
def borrowSub : List (BitVec 64) → List (BitVec 64) → (borrow : Int) → List (BitVec 64)
  | a :: as, b :: bs, borrow =>
    let t : Int := a.toNat - b.toNat - borrow
    BitVec.ofInt 64 t :: borrowSub as bs (if t < 0 then 1 else 0)
  | _, _, _ => []

/-! ### Schoolbook multiplier over 32-bit limbs, least significant first (R59) -/

/-- The inner loop, one limb `a` of the first operand: `product` is p[i..], and the last carry goes to p[i+n]. The
accumulator t is 64 bits wide. -/
def mulRow (a : BitVec 32) : (bs product : List (BitVec 32)) → (carry : BitVec 32) → List (BitVec 32)
  | b :: bs, p :: ps, carry =>
    let t : BitVec 64 := a.setWidth 64 * b.setWidth 64 + p.setWidth 64 + carry.setWidth 64
    t.setWidth 32 :: mulRow a bs ps (t.extractLsb' 32 32)
  | [], _ :: ps, carry => carry :: ps
  | _, [], _ => []

/-- The outer loop: row i leaves p[i] final and works on p[i+1..] next. -/
def mulRows : (as bs product : List (BitVec 32)) → List (BitVec 32)
  | a :: as, bs, product =>
    match mulRow a bs product 0#32 with
    | p :: ps => p :: mulRows as bs ps
    | [] => []
  | [], _, product => product

/-- The double-width product of R59, 2n limbs of it. -/
def schoolbookProduct (as bs : List (BitVec 32)) : List (BitVec 32) :=
  mulRows as bs (List.replicate (as.length + bs.length) 0#32)

/-- The result of R59: the low n limbs. -/
def schoolbookMul (w : Width) (a b : BitVec w.bits) : BitVec w.bits :=
  BitVec.ofNat w.bits (wordsValue ((schoolbookProduct (wordsOf 32 a) (wordsOf 32 b)).take (w.bits / 32)))

/-! ### Normalized long division (R63), on numbers cut into limbs in base B = 2^32 -/

/-- B of R63. -/
def limbBase : Nat := 2 ^ 32

/-- Limb k of a number. -/
def limbAt (v k : Nat) : Nat := v / limbBase ^ k % limbBase

/-- How many limbs are left once leading zero limbs are trimmed. -/
def limbCount (v : Nat) : Nat := if v = 0 then 0 else v.log2 / 32 + 1

/-- The fast path: a running remainder over the `count` low limbs of u, from the top one down. -/
def shortDivision (u d : Nat) : (count rem : Nat) → Nat × Nat
  | 0, rem => (0, rem)
  | j + 1, rem =>
    let cur := rem * limbBase + limbAt u j
    let rest := shortDivision u d j (cur % d)
    (cur / d * limbBase ^ j + rest.1, rest.2)

/-- The `while` of R63 on the estimate (qhat, rhat): vtop and vnext are the divisor's two top limbs, ulow is
un[j+n-2]. The remainder grows by vtop, at least B/2, at each turn, so two turns are enough (log 14). -/
def refineEstimate (vtop vnext ulow : Nat) : (turns qhat rhat : Nat) → Nat × Nat
  | 0, qhat, rhat => (qhat, rhat)
  | turns + 1, qhat, rhat =>
    if qhat ≥ limbBase ∨ qhat * vnext > rhat * limbBase + ulow then
      if rhat + vtop ≥ limbBase then (qhat - 1, rhat + vtop)
      else refineEstimate vtop vnext ulow turns (qhat - 1) (rhat + vtop)
    else (qhat, rhat)

/-- One quotient digit of R63 at position j: the digit, and the working dividend `un` after multiply-and-subtract with
at most one correction step. `vn` is the normalized divisor of n limbs. -/
def divisionDigit (vn n j un : Nat) : Nat × Nat :=
  let num := limbAt un (j + n) * limbBase + limbAt un (j + n - 1)
  let vtop := limbAt vn (n - 1)
  let qhat := (refineEstimate vtop (limbAt vn (n - 2)) (limbAt un (j + n - 2)) 2 (num / vtop) (num % vtop)).1
  let window := un / limbBase ^ j % limbBase ^ (n + 1)
  let t : Int := (window : Int) - qhat * vn
  let (digit, left) := if t < 0 then (qhat - 1, (t + vn).toNat) else (qhat, t.toNat)
  (digit, un - window * limbBase ^ j + left * limbBase ^ j)

/-- The loop of R63 over positions `count`-1 down to 0: the quotient, and what is left of the working dividend. -/
def divisionLoop (vn n : Nat) : (count un : Nat) → Nat × Nat
  | 0, un => (0, un)
  | j + 1, un =>
    let digit := divisionDigit vn n j un
    let rest := divisionLoop vn n j digit.2
    (digit.1 * limbBase ^ j + rest.1, rest.2)

/-- DivMod of R63: quotient and remainder of u by a divisor v that is not zero. -/
def normalizedDivMod (u v : Nat) : Nat × Nat :=
  if u < v then (0, u)
  else
    let n := limbCount v
    if n = 1 then shortDivision u v (limbCount u) 0
    else
      let shift := 32 * n - (v.log2 + 1)
      let result := divisionLoop (v * 2 ^ shift) n (limbCount u - n + 1) (u * 2 ^ shift)
      (result.1, result.2 % limbBase ^ n / 2 ^ shift)

/-! ### Comparator and shifter over 64-bit words -/

/-- R69: from the most significant word down, the first differing word decides. -/
def compareWords : List (BitVec 64) → List (BitVec 64) → Int
  | a :: as, b :: bs => if a = b then compareWords as bs else if a.toNat < b.toNat then -1 else 1
  | _, _ => 0

/-- R73: move the words (least significant first) by n / 64 places up, then each by n % 64 bits, carrying between
adjacent words. -/
def shiftWordsLeft (ws : List (BitVec 64)) (n : Nat) : List (BitVec 64) :=
  let moved := (List.replicate (n / 64) 0#64 ++ ws).take ws.length
  moved.zipWith (fun (hi lo : BitVec 64) => (hi <<< (n % 64)) ||| (lo >>> (64 - n % 64))) (0#64 :: moved)

/-- R73: the same to the right. -/
def shiftWordsRight (ws : List (BitVec 64)) (n : Nat) : List (BitVec 64) :=
  let moved := ws.drop (n / 64) ++ List.replicate (min (n / 64) ws.length) 0#64
  moved.zipWith (fun (lo hi : BitVec 64) => (lo >>> (n % 64)) ||| (hi <<< (64 - n % 64))) (moved.tail ++ [0#64])

end Sys2Proof.Machine
end

