-- ==== Sys2Proof/Machine/HostArray.lean ====
section
/-! DEFINITION. The host array functions (R6, R97), the sign-marker constructor (R98) and the native integer boundary
(R99). They are functions of their arguments and report their errors as values (R86). -/

namespace Sys2Proof.Machine

/-- The value whose n-bit parts are given, least significant first; a list that does not hold exactly W/n parts is
InvalidArgument (R97). -/
def ofParts {n : Nat} (w : Width) (parts : List (BitVec n)) : Except ErrorKind (BitVec w.bits) :=
  if parts.length = w.bits / n then .ok (BitVec.ofNat w.bits (wordsValue parts)) else .error .invalidArgument

/-! ### Words and limbs (R97) -/

/-- ToWords(v, W): the W/64 words, most significant first. -/
def toWords (w : Width) (v : BitVec w.bits) : List PortWord := (wordsOf 64 v).reverse

/-- FromWords(list, W): exactly W/64 words, most significant first; any other length is InvalidArgument. -/
def fromWords (w : Width) (ws : List PortWord) : Except ErrorKind (BitVec w.bits) := ofParts w ws.reverse

/-- ToLimbs(v, W): the W/32 limbs, least significant first. -/
def toLimbs (w : Width) (v : BitVec w.bits) : List (BitVec 32) := wordsOf 32 v

/-- The conversion from a limb array that R6 puts in scope: the inverse of ToLimbs. R97 gives it neither a name nor a
length rule; a length other than W/32 is InvalidArgument, as for words and bytes (DESIGN CHOICE, log 15). -/
def fromLimbs (w : Width) (limbs : List (BitVec 32)) : Except ErrorKind (BitVec w.bits) := ofParts w limbs

/-! ### Bytes (R30, R97): the order is a required argument -/

/-- The order of a byte array. -/
inductive ByteOrder where
  | little
  | big
  deriving DecidableEq, Repr

/-- ToBytes(v, W, order): byte j is v[8j+7:8j] in little order and v[W-1-8j:W-8-8j] in big order. -/
def toBytes (w : Width) (order : ByteOrder) (v : BitVec w.bits) : List (BitVec 8) :=
  match order with
  | .little => wordsOf 8 v
  | .big => (wordsOf 8 v).reverse

/-- FromBytes(b, W, order): the inverse of ToBytes; a length other than W/8 is InvalidArgument. -/
def fromBytes (w : Width) (order : ByteOrder) (bs : List (BitVec 8)) : Except ErrorKind (BitVec w.bits) :=
  match order with
  | .little => ofParts w bs
  | .big => ofParts w bs.reverse

/-! ### Raw words with a sign marker (R98) -/

/-- The marker of FromSignedWords. -/
inductive SignMarker where
  | negative
  | zero
  | positive
  deriving DecidableEq, Repr

/-- FromSignedWords(marker, list, W) (R98). -/
def fromSignedWords (marker : SignMarker) (w : Width) (ws : List PortWord) : Except ErrorKind (BitVec w.bits) :=
  if marker = .zero ∧ ws.any (· != 0#64) then .error .invalidArgument
  else
    match fromWords w ws, marker with
    | .error e, _ => .error e
    | .ok v, .negative => .ok (negate v)
    | .ok v, .zero => .ok v
    | .ok v, .positive => .ok v

/-! ### Native integers (R99) -/

/-- The widths of the native integers. -/
inductive NativeSize where
  | n8
  | n16
  | n32
  | n64
  deriving DecidableEq, Repr

/-- The number of bits of a native integer. -/
def NativeSize.bits : NativeSize → Nat
  | .n8 => 8
  | .n16 => 16
  | .n32 => 32
  | .n64 => 64

/-- Construction from a native integer: zext_W of an unsigned one, sext_W of a signed one (R99). -/
def fromNative (w : Width) (native : Signedness) (size : NativeSize) (v : BitVec size.bits) : BitVec w.bits :=
  match native with
  | .unsigned => v.setWidth w.bits
  | .signed => v.signExtend w.bits

/-- The integer that W bits stand for at signedness S. -/
def valueAt {n : Nat} (sg : Signedness) (v : BitVec n) : Int :=
  match sg with
  | .unsigned => v.toNat
  | .signed => v.toInt

/-- The range of a native integer of the given size and signedness (R99). -/
def inNativeRange (native : Signedness) (size : NativeSize) (x : Int) : Bool :=
  match native with
  | .unsigned => 0 ≤ x && x ≤ 2 ^ size.bits - 1
  | .signed => -2 ^ (size.bits - 1) ≤ x && x ≤ 2 ^ (size.bits - 1) - 1

/-- Conversion to a native integer, checked against the destination's full range (R99, C8). -/
def toNative (w : Width) (sg native : Signedness) (size : NativeSize) (v : BitVec w.bits) :
    Except ErrorKind (BitVec size.bits) :=
  if inNativeRange native size (valueAt sg v) then .ok (v.setWidth size.bits) else .error .overflow

/-! ### Whole registers through the port -/

/-- The four HostWriteWord operations that load a whole register, words 0 to 3 (R23, R118). -/
def loadRegister (i : Reg) (v : RegWord) : List PortOp :=
  [.writeWord i 0 (getWord v 0), .writeWord i 1 (getWord v 1), .writeWord i 2 (getWord v 2),
    .writeWord i 3 (getWord v 3)]

/-- The HostReadWord operations by which ToWords reads W bits of a register, most significant word first (R97). -/
def readRegister (w : Width) (i : Reg) : List PortOp :=
  match w with
  | .w128 => [.readWord i 1, .readWord i 0]
  | .w256 => [.readWord i 3, .readWord i 2, .readWord i 1, .readWord i 0]

end Sys2Proof.Machine
end

