-- ==== Sys2Proof/Safety.lean ====
section
/-! DEFINITION. The terms that claims use: what a completed command and a raised error leave, the machine invariant, the
opcode map as R46 prints it, command words as numbers, and the spec's check of unwritten registers (R26). -/

namespace Sys2Proof.Machine

/-! ### What one command leaves -/

/-- Nothing but operand registers and STATUS changed: neither the words the host has written, nor the host's pending
operations, its replies, or the model's counter. -/
def SameRest (s t : State) : Prop :=
  (∀ r, t.hostMask r = s.hostMask r) ∧ t.pending = s.pending ∧ t.replies = s.replies ∧ t.draws = s.draws

/-- A command other than CLRST completed, writing exactly the registers listed, each with the value beside it (R16,
R19, R26): they count as written, every other register is as it was, CODE is 0, and every other bit of STATUS is as it
was. -/
def Completes (s t : State) (writes : List (Reg × RegWord)) : Prop :=
  (∀ p ∈ writes, t.reg p.1 = p.2 ∧ t.isWritten p.1 = true) ∧
  (∀ r, r ∉ writes.map Prod.fst → t.reg r = s.reg r ∧ t.isWritten r = s.isWritten r) ∧
  t.code = 0#3 ∧ (∀ b, 3 ≤ b → t.status.getLsbD b = s.status.getLsbD b) ∧ SameRest s t

/-- A command raised an error (R110): CODE is the error's code, its own sticky bit is set and the others are as they
were, and nothing else changed. -/
def Raises (s t : State) (e : ErrorKind) : Prop :=
  (∀ r, t.reg r = s.reg r ∧ t.isWritten r = s.isWritten r) ∧
  t.code = e.code ∧
  t.dz = (s.dz || e == .divideByZero) ∧ t.ov = (s.ov || e == .overflow) ∧ t.il = (s.il || e == .illegalCommand) ∧
  (∀ b, b = 3 ∨ 7 ≤ b → t.status.getLsbD b = s.status.getLsbD b) ∧ SameRest s t

/-! ### The machine invariant -/

/-- STATUS holds a value the hardware can hold (R18, R108, I7): reserved bits 0, CODE one of 0, 1, 2 and 5, and the
error that CODE names is among the sticky bits, which were set with it (R110). -/
def StatusLegal (s : State) : Prop :=
  s.status &&& ~~~statusMask = 0#32 ∧
  (s.code = 0#3 ∨ (s.code = 1#3 ∧ s.dz = true) ∨ (s.code = 2#3 ∧ s.ov = true) ∨ (s.code = 5#3 ∧ s.il = true))

/-- A register all of whose words were host-written since reset counts as written (R26). -/
def BookkeepingLegal (s : State) : Prop := ∀ r, s.hostMask r = 0xF#4 → s.isWritten r = true

/-- What holds in every state a run can reach. -/
def MachineInv (s : State) : Prop := StatusLegal s ∧ BookkeepingLegal s

/-! ### Unwritten registers (R26) -/

/-- A source register of the command that nothing has written since reset, the first one its rule names (log 3). -/
def unwrittenSource (i : Instr) (s : State) : Option Reg := (sources i).find? fun r => !s.isWritten r

/-- The step with the spec's model-only check: a command that reads an unwritten register is the fault
UnwrittenRead(i) (R26, I1, log 3). The hardware has no such fault, so `step` has none. -/
def strictStep (s : State) : Host.Outcome State Fault Refusal :=
  match s.pending with
  | .issue c :: _ =>
    match decode c with
    | .ok i =>
      match unwrittenSource i s with
      | some r => .fault (.unwrittenRead r)
      | none => step s
    | .error _ => step s
  | _ => step s

/-- Word k of x[r] has a value that some write since reset has given it. -/
def KnownWord (s : State) (r : Reg) (k : WordIndex) : Prop :=
  s.isWritten r = true ∨ (s.hostMask r).getLsbD k.val = true

/-- The next port operation is no HostReadWord of a word that nothing has written: such a read "returns `any value`"
(I1). -/
def ReadsKnownWord (s : State) : Prop :=
  ∀ r k rest, s.pending = .readWord r k :: rest → KnownWord s r k

/-- The two states differ at most in the contents of what nothing has written since reset. -/
def AgreeOnWritten (s t : State) : Prop :=
  s.status = t.status ∧ s.written = t.written ∧ s.wmask = t.wmask ∧ s.pending = t.pending ∧ s.replies = t.replies ∧
  s.draws = t.draws ∧ ∀ r k, KnownWord s r k → getWord (s.reg r) k = getWord (t.reg r) k

end Sys2Proof.Machine

namespace Sys2Proof

/-! ### Command words as numbers (R40 to R42) -/

/-- Bit S and bit W of a command word, as a number. -/
def selectorBits (w : Width) (sg : Signedness) : Nat :=
  (if sg = .signed then 2 ^ 7 else 0) + (if w = .w256 then 2 ^ 6 else 0)

/-- The word of format R with these fields (R41). -/
def wordR (op : Nat) (w : Width) (sg : Signedness) (rd rs1 rs2 rd2 : Reg) : CommandWord :=
  BitVec.ofNat 32 (rd2.val * 2 ^ 20 + rs2.val * 2 ^ 16 + rs1.val * 2 ^ 12 + rd.val * 2 ^ 8 + selectorBits w sg + op)

/-- The word of format I with these fields (R42). -/
def wordI (op : Nat) (w : Width) (sg : Signedness) (rd rs1 : Reg) (imm : Nat) : CommandWord :=
  BitVec.ofNat 32 (imm * 2 ^ 16 + rs1.val * 2 ^ 12 + rd.val * 2 ^ 8 + selectorBits w sg + op)

/-- The field of `len` bits at bit `lo` of a word, as a number (R9). -/
def fieldAt (c : CommandWord) (lo len : Nat) : Nat := c.toNat / 2 ^ lo % 2 ^ len

/-! ### The opcode map (R46) -/

/-- The formats of R41 to R43. -/
inductive Format where
  | r
  | i
  | n
  deriving DecidableEq, Repr

/-- The "other constraint" column of R46, where it is none of the fixed W and S values. -/
inductive Constraint where
  | free
  | rdDiffersFromRd2
  | digitAtMostNine
  deriving DecidableEq, Repr

/-- One line of R46: `none` for a W or S that is "any" or "ign"; the fields that must be 0 besides Z. -/
structure OpcodeRow where
  op : Nat
  mnemonic : String
  format : Format
  w : Option Nat
  sg : Option Nat
  rs1Zero : Bool
  rs2Zero : Bool
  rd2Zero : Bool
  constraint : Constraint
  deriving DecidableEq, Repr

/-- The table of R46, line by line. -/
def opcodeMap : List OpcodeRow :=
  [⟨0x00, "NOP", .n, some 0, some 0, false, false, false, .free⟩,
   ⟨0x01, "ADD", .r, none, none, false, false, true, .free⟩,
   ⟨0x02, "SUB", .r, none, none, false, false, true, .free⟩,
   ⟨0x03, "MUL", .r, none, none, false, false, true, .free⟩,
   ⟨0x04, "DIVREM", .r, none, none, false, false, false, .rdDiffersFromRd2⟩,
   ⟨0x05, "CMP", .r, none, none, false, false, true, .free⟩,
   ⟨0x06, "SHL", .r, none, none, false, false, true, .free⟩,
   ⟨0x07, "SHR", .r, none, some 0, false, false, true, .free⟩] ++
  [⟨0x08, "SHLI", .i, none, none, false, false, false, .free⟩,
   ⟨0x09, "SHRI", .i, none, some 0, false, false, false, .free⟩,
   ⟨0x0A, "AND", .r, none, none, false, false, true, .free⟩,
   ⟨0x0B, "OR", .r, none, none, false, false, true, .free⟩,
   ⟨0x0C, "XOR", .r, none, none, false, false, true, .free⟩,
   ⟨0x0D, "NOT", .r, none, none, false, true, true, .free⟩,
   ⟨0x0E, "DECACC", .i, none, some 0, false, false, false, .digitAtMostNine⟩,
   ⟨0x0F, "LDI", .i, none, none, true, false, false, .free⟩] ++
  [⟨0x10, "EXT", .r, some 1, none, false, true, true, .free⟩,
   ⟨0x11, "TRUNC", .r, some 0, some 0, false, true, true, .free⟩,
   ⟨0x12, "TRUNCC", .r, some 0, none, false, true, true, .free⟩,
   ⟨0x13, "NEG", .r, none, none, false, true, true, .free⟩,
   ⟨0x14, "ABS", .r, none, some 1, false, true, true, .free⟩,
   ⟨0x15, "SIGN", .r, none, none, false, true, true, .free⟩,
   ⟨0x16, "CLRST", .n, some 0, some 0, false, false, false, .free⟩]

/-- The line's mnemonic in R46 of a decoded command; the reserved range has none. -/
def mnemonicOf : Instr → String
  | .nop => "NOP"
  | .add .. => "ADD"
  | .sub .. => "SUB"
  | .mul .. => "MUL"
  | .divremU .. => "DIVREM"
  | .divremS .. => "DIVREM"
  | .cmpU .. => "CMP"
  | .cmpS .. => "CMP"
  | .shl .. => "SHL"
  | .shr .. => "SHR"
  | .shli .. => "SHLI"
  | .shri .. => "SHRI"
  | .and .. => "AND"
  | .or .. => "OR"
  | .xor .. => "XOR"
  | .not .. => "NOT"
  | .decacc .. => "DECACC"
  | .ldi .. => "LDI"
  | .ext .. => "EXT"
  | .trunc .. => "TRUNC"
  | .truncc .. => "TRUNCC"
  | .neg .. => "NEG"
  | .abs .. => "ABS"
  | .sign .. => "SIGN"
  | .clrst => "CLRST"
  | .reserved .. => "(reserved)"

/-- The line of R46 allows the word. -/
def OpcodeRow.allows (row : OpcodeRow) (c : CommandWord) : Bool :=
  fieldAt c 0 6 == row.op &&
  (row.w.all (fieldAt c 6 1 == ·)) && (row.sg.all (fieldAt c 7 1 == ·)) &&
  (match row.format with
    | .n => c.toNat == row.op
    | .r => fieldAt c 24 8 == 0 && (!row.rd2Zero || fieldAt c 20 4 == 0) && (!row.rs2Zero || fieldAt c 16 4 == 0)
    | .i => !row.rs1Zero || fieldAt c 12 4 == 0) &&
  (match row.constraint with
    | .free => true
    | .rdDiffersFromRd2 => fieldAt c 8 4 != fieldAt c 20 4
    | .digitAtMostNine => fieldAt c 16 16 ≤ 9)

/-- A word that some line of R46 allows. Every other word is illegal (R47). -/
def LegalWord (c : CommandWord) : Prop := ∃ row ∈ opcodeMap, row.allows c = true

end Sys2Proof
end

