-- ==== Sys2Proof/Certificates/Slice0/Obligations.lean ====
section
/-! DEFINITION. The statements for the provers. `Completes` and `Raises` (Safety.lean) say what a command leaves, its
frame included; `uval`, `sval` and `enc` are R10's notation. -/

open Sys2Proof Sys2Proof.Machine

/-! ## Encoding -/

/-- R41 to R43, R46, R48: the word of a well-formed instruction decodes to that instruction. -/
def Obligations.DecodeInvertsEncode : Prop :=
  ∀ i : Instr, i.wellFormed = true → decode (encode i) = .ok i

/-- R41 to R43, R46, R48: a word that decodes is the word of the instruction it decodes to, which is well formed. -/
def Obligations.EncodeInvertsDecode : Prop :=
  ∀ (c : CommandWord) (i : Instr), decode c = .ok i → encode i = c ∧ i.wellFormed = true

/-- R46: the decoder gives a legal command exactly for the words that a line of the opcode map allows, and that line
carries the command's mnemonic; no word is allowed by two lines. -/
def Obligations.DecoderAcceptsExactlyTheOpcodeMap : Prop :=
  ∀ c : CommandWord,
    (LegalWord c ↔ ∃ i, decode c = .ok i ∧ i.legal = true) ∧
    (∀ row ∈ opcodeMap, row.allows c = true → ∃ i, decode c = .ok i ∧ mnemonicOf i = row.mnemonic) ∧
    (∀ r1 ∈ opcodeMap, ∀ r2 ∈ opcodeMap, r1.allows c = true → r2.allows c = true → r1 = r2)

/-- R47: issuing an illegal word, of a reserved opcode or breaking a field constraint, raises IllegalCommand and changes
no operand register. -/
def Obligations.IllegalWordsRaiseIllegalCommand : Prop :=
  ∀ (s : State) (c : CommandWord) (rest : List PortOp),
    s.pending = .issue c :: rest → ¬ LegalWord c →
    ∃ t, step s = .next t ∧ Raises { s with pending := rest } t .illegalCommand

/-- The model's row for the reserved range (log 6): its words decode to it, and it raises IllegalCommand (R47). -/
def Obligations.ReservedOpcodesRaiseIllegalCommand : Prop :=
  ∀ (op : BitVec 6) (rest : BitVec 26) (s : State),
    (0x17 ≤ op.toNat → decode (BitVec.ofNat 32 (rest.toNat * 2 ^ 6 + op.toNat)) = .ok (.reserved op rest)) ∧
    ∃ t, exec (.reserved op rest) s = .next t ∧ Raises s t .illegalCommand

/-- R49: when the next port operation issues a word that decodes to an instruction, the step is `exec` of it in the
state without that operation. -/
def Obligations.StepRunsTheDecodedCommand : Prop :=
  ∀ (s : State) (c : CommandWord) (rest : List PortOp) (i : Instr),
    s.pending = .issue c :: rest → decode c = .ok i → step s = exec i { s with pending := rest }

/-- Words written out from the encoding patterns of the rules decode to the commands they stand for. -/
def Obligations.WordsWrittenOutDecode : Prop :=
  decode 0b00000000000000100001001101000001#32 = .ok (.add .w256 .unsigned 3 1 2) ∧
  decode 0b00000000010000100001001110000100#32 = .ok (.divremS .w128 3 4 1 2) ∧
  decode 0b00000000111111110001001101001000#32 = .ok (.shli .w256 .unsigned 3 1 255) ∧
  decode 0b00000000000001110001001100001110#32 = .ok (.decacc .w128 3 1 7) ∧
  decode 0b11111111111111110000000110001111#32 = .ok (.ldi .w128 .signed 1 0xFFFF) ∧
  decode 0b00000000000000000001001111010000#32 = .ok (.ext .signed 3 1) ∧
  decode 0b00000000000000000000000000010110#32 = .ok .clrst

/-! ## The host port -/

/-- R22, R23: HostWriteWord replaces word k of x[i] and no other bit of any register, leaves STATUS alone, and makes
the register written once all four of its words have been host-written. -/
def Obligations.HostWriteWordReplacesOneWord : Prop :=
  ∀ (s : State) (i : Reg) (k : WordIndex) (v : PortWord) (rest : List PortOp),
    s.pending = .writeWord i k v :: rest →
    ∃ t, step s = .next t ∧
      (∀ b, (t.reg i).getLsbD b =
        if 64 * k.val ≤ b ∧ b < 64 * k.val + 64 then v.getLsbD (b - 64 * k.val) else (s.reg i).getLsbD b) ∧
      (∀ k' : Fin 4, (t.hostMask i).getLsbD k'.val = ((s.hostMask i).getLsbD k'.val || k' == k)) ∧
      (t.isWritten i = true ↔
        s.isWritten i = true ∨ ∀ k' : Fin 4, k' = k ∨ (s.hostMask i).getLsbD k'.val = true) ∧
      (∀ r, r ≠ i → t.reg r = s.reg r ∧ t.isWritten r = s.isWritten r ∧ t.hostMask r = s.hostMask r) ∧
      t.status = s.status ∧ t.pending = rest ∧ t.replies = s.replies ∧ t.draws = s.draws

/-- R22, R23: the four word writes of a register, words 0 to 3, load it and make it written. -/
def Obligations.FourWordWritesLoadARegister : Prop :=
  ∀ (s : State) (i : Reg) (v : RegWord) (rest : List PortOp),
    s.pending = loadRegister i v ++ rest →
    ∃ t, Host.Core.run Sys2Proof.core 4 s = .next t ∧
      t.reg i = v ∧ t.isWritten i = true ∧
      (∀ r, r ≠ i → t.reg r = s.reg r ∧ t.isWritten r = s.isWritten r) ∧
      t.status = s.status ∧ t.pending = rest ∧ t.replies = s.replies

/-- R22, R33: the two port reads return a 64-bit word of a register and STATUS with its reserved bits 0, and change no
register, no STATUS bit and no bookkeeping. -/
def Obligations.HostReadsReturnAndChangeNothing : Prop :=
  ∀ (s : State) (op : PortOp) (rest : List PortOp), s.pending = op :: rest →
    (∀ i k, op = .readWord i k → ∃ v : PortWord,
      step s = .next { s with pending := rest, replies := s.replies ++ [.word v] } ∧
      ∀ b, b < 64 → v.getLsbD b = (s.reg i).getLsbD (64 * k.val + b)) ∧
    (op = .readStatus → ∃ v : BitVec 32,
      step s = .next { s with pending := rest, replies := s.replies ++ [.status v] } ∧
      ∀ b, b < 32 → v.getLsbD b = (s.status.getLsbD b && decide (b < 3 ∨ (4 ≤ b ∧ b < 7))))

/-- R120: a status read right after a command returns the STATUS that the command left, and a word read right after it
returns the word of the register as the command left it. -/
def Obligations.ReadsAfterACommandSeeItsResult : Prop :=
  ∀ (s : State) (c : CommandWord) (op : PortOp) (rest : List PortOp),
    s.pending = .issue c :: op :: rest →
    ∃ t, step s = .next t ∧ t.pending = op :: rest ∧
      (op = .readStatus → ∃ u, step t = .next u ∧ u.replies = s.replies ++ [.status t.statusWord]) ∧
      (∀ i k, op = .readWord i k →
        ∃ u, step t = .next u ∧ u.replies = s.replies ++ [.word (getWord (t.reg i) k)])

/-- R116: HostReset leaves STATUS 0 and nothing written, whatever the registers then hold; and the state after
power-up is one such state. -/
def Obligations.HostResetClearsStatusAndBookkeeping : Prop :=
  (∀ (s : State) (rest : List PortOp), s.pending = .reset :: rest →
    ∃ t, step s = .next t ∧ t.status = 0#32 ∧ (∀ r, t.isWritten r = false ∧ t.hostMask r = 0#4) ∧
      t.pending = rest ∧ t.replies = s.replies) ∧
  State.reset.status = 0#32 ∧ ∀ r, State.reset.isWritten r = false ∧ State.reset.hostMask r = 0#4

/-! ## The whole machine -/

/-- R18, R26, R108: every step keeps the machine invariant. -/
def Obligations.StepKeepsTheMachineInvariant : Prop :=
  ∀ s t : State, MachineInv s → step s = .next t → MachineInv t

/-- The reset state meets the machine invariant. -/
def Obligations.ResetMeetsTheMachineInvariant : Prop := MachineInv State.reset

/-- R121: every step ends, with a next state: nothing hangs, faults or is refused. A step with no operation pending
changes nothing (the model's choice, log 4). -/
def Obligations.EveryStepAnswersANextState : Prop :=
  ∀ s : State, (∃ t, step s = .next t) ∧ (s.pending = [] → step s = .next s)

/-- R107, R110: a command either completes, writing all its destinations and no other register, or raises exactly one
error and writes no operand register. -/
def Obligations.CommandsCompleteOrRaisePrecisely : Prop :=
  ∀ (i : Instr) (s : State), ∃ t, exec i s = .next t ∧
    ((t.code = 0#3 ∧ (∀ d ∈ destinations i, t.isWritten d = true) ∧
        (∀ r, r ∉ destinations i → t.reg r = s.reg r ∧ t.isWritten r = s.isWritten r) ∧ SameRest s t) ∨
      Raises s t .divideByZero ∨ Raises s t .overflow ∨ Raises s t .illegalCommand)

/-- R19: a command that completes without error leaves CODE 0 and DZ, OV and IL as they were; CLRST alone writes all of
STATUS to 0. -/
def Obligations.SuccessClearsCodeAndKeepsStickyBits : Prop :=
  ∀ (i : Instr) (s t : State), exec i s = .next t →
    (t.code = 0#3 ∨ ∃ e, Raises s t e ∧ e.code ≠ 0#3) ∧
    (t.code = 0#3 → i ≠ .clrst → t.dz = s.dz ∧ t.ov = s.ov ∧ t.il = s.il) ∧
    (i = .clrst → t.status = 0#32)

/-- R109: these commands never raise an error. -/
def Obligations.TwentyCommandsNeverRaise : Prop :=
  ∀ (i : Instr) (s : State),
    mnemonicOf i ∈ ["ADD", "SUB", "MUL", "CMP", "SHL", "SHR", "SHLI", "SHRI", "AND", "OR", "XOR", "NOT", "LDI", "EXT",
      "TRUNC", "NEG", "ABS", "SIGN", "NOP", "CLRST"] →
    ∃ t, exec i s = .next t ∧ t.code = 0#3

/-- R112, items 2 and 3: a legal DIVREM can raise only DivideByZero, and does so exactly on a zero divisor, 0 ÷ 0
included; DECACC and TRUNCC can raise only Overflow. -/
def Obligations.EachCommandRaisesOneKindOfError : Prop :=
  (∀ (w : Width) (rd rd2 rs1 rs2 : Reg) (s : State), rd ≠ rd2 →
    (∃ t, exec (.divremU w rd rd2 rs1 rs2) s = .next t ∧
      t.code = (if uval w (s.reg rs2) = 0 then 1#3 else 0#3)) ∧
    (∃ t, exec (.divremS w rd rd2 rs1 rs2) s = .next t ∧
      t.code = (if uval w (s.reg rs2) = 0 then 1#3 else 0#3))) ∧
  (∀ (w : Width) (rd rs1 : Reg) (digit : BitVec 4) (s : State), digit.toNat ≤ 9 →
    ∃ t, exec (.decacc w rd rs1 digit) s = .next t ∧ (t.code = 0#3 ∨ t.code = 2#3)) ∧
  (∀ (sg : Signedness) (rd rs1 : Reg) (s : State),
    ∃ t, exec (.truncc sg rd rs1) s = .next t ∧ (t.code = 0#3 ∨ t.code = 2#3))

/-- R18, R22: the host cannot write STATUS: only an issued command or HostReset changes it; and only HostWriteWord, an
issued command or HostReset changes a register. -/
def Obligations.OnlyCommandsAndResetChangeStatus : Prop :=
  ∀ s t : State, step s = .next t →
    (t.status ≠ s.status → (∃ c, s.pending.head? = some (.issue c)) ∨ s.pending.head? = some .reset) ∧
    (∀ r, t.reg r ≠ s.reg r →
      (∃ c, s.pending.head? = some (.issue c)) ∨ s.pending.head? = some .reset ∨
      ∃ k v, s.pending.head? = some (.writeWord r k v))

/-- R122, R17: what nothing has written since reset cannot influence what follows, unless a command reads an unwritten
register or the host reads a word nothing has written. Two states that differ only there step to states that differ
only there, and hand the host the same results. It is why the model's choice of 0 for the registers at reset (log 1)
decides no run that passes the spec's own check. -/
def Obligations.UnwrittenContentsDoNotInfluenceCheckedSteps : Prop :=
  ∀ s s' t : State, AgreeOnWritten s s' → ReadsKnownWord s → strictStep s = .next t →
    ∃ t', strictStep s' = .next t' ∧ AgreeOnWritten t t'

/-- R26: in the step with the spec's model-only check, a command that reads an unwritten register is the fault
UnwrittenRead of a register it reads that is unwritten, and every other step is the step itself. -/
def Obligations.CheckedStepFaultsOnUnwrittenReads : Prop :=
  ∀ s : State,
    (∀ (c : CommandWord) (rest : List PortOp) (i : Instr) (r : Reg),
      s.pending = .issue c :: rest → decode c = .ok i → r ∈ sources i → s.isWritten r = false →
      ∃ q ∈ sources i, s.isWritten q = false ∧ strictStep s = .fault (.unwrittenRead q)) ∧
    ((∀ (c : CommandWord) (rest : List PortOp) (i : Instr),
      s.pending = .issue c :: rest → decode c = .ok i → ∀ r ∈ sources i, s.isWritten r = true) →
      strictStep s = step s)

/-! ## Adder, subtractor, multiplier -/

/-- R56: ADD writes the sum modulo 2^W, which read signed is the wrapped signed sum. -/
def Obligations.AddWritesTheWrappedSum : Prop :=
  ∀ (w : Width) (sg : Signedness) (rd rs1 rs2 : Reg) (s : State),
    decode (wordR 0x01 w sg rd rs1 rs2 0) = .ok (.add w sg rd rs1 rs2) ∧
    ∃ t, exec (.add w sg rd rs1 rs2) s = .next t ∧
      Completes s t [(rd, enc w (uval w (s.reg rs1) + uval w (s.reg rs2)))] ∧
      sval w (t.reg rd) = (sval w (s.reg rs1) + sval w (s.reg rs2)).bmod (2 ^ w.bits)

/-- R57: SUB writes the difference modulo 2^W, by the borrow-propagating datapath and by adding the negation alike. -/
def Obligations.SubWritesTheWrappedDifference : Prop :=
  (∀ (w : Width) (sg : Signedness) (rd rs1 rs2 : Reg) (s : State),
    decode (wordR 0x02 w sg rd rs1 rs2 0) = .ok (.sub w sg rd rs1 rs2) ∧
    ∃ t, exec (.sub w sg rd rs1 rs2) s = .next t ∧
      Completes s t [(rd, enc w (uval w (s.reg rs1) - uval w (s.reg rs2)))] ∧
      sval w (t.reg rd) = (sval w (s.reg rs1) - sval w (s.reg rs2)).bmod (2 ^ w.bits)) ∧
  ∀ (w : Width) (a b : BitVec w.bits),
    BitVec.ofNat w.bits (wordsValue (borrowSub (wordsOf 64 a) (wordsOf 64 b) 0)) = a - b ∧ a + negate b = a - b

/-- R60: MUL writes the low W bits of the product, which read signed is the wrapped signed product. -/
def Obligations.MulWritesTheLowHalfOfTheProduct : Prop :=
  ∀ (w : Width) (sg : Signedness) (rd rs1 rs2 : Reg) (s : State),
    decode (wordR 0x03 w sg rd rs1 rs2 0) = .ok (.mul w sg rd rs1 rs2) ∧
    ∃ t, exec (.mul w sg rd rs1 rs2) s = .next t ∧
      Completes s t [(rd, enc w (uval w (s.reg rs1) * uval w (s.reg rs2)))] ∧
      sval w (t.reg rd) = (sval w (s.reg rs1) * sval w (s.reg rs2)).bmod (2 ^ w.bits)

/-- R58: the wraparound group laws, as runs of commands. In each clause the registers a later command still needs are
not overwritten by an earlier one. -/
def Obligations.AdditionObeysTheWraparoundGroupLaws : Prop :=
  ∀ (w : Width) (sg : Signedness) (a b c d e : Reg) (s t u t' u' : State),
    -- Add(a, Negate(a)) = 0
    (d ≠ a → exec (.neg w sg d a) s = .next t → exec (.add w sg e a d) t = .next u → u.reg e = 0) ∧
    -- MaxValue + 1 = 0, and 0 - 1 = MaxValue
    (uval w (s.reg a) = maxU w → uval w (s.reg b) = 1 → exec (.add w sg d a b) s = .next t → t.reg d = 0) ∧
    (uval w (s.reg a) = 0 → uval w (s.reg b) = 1 → exec (.sub w sg d a b) s = .next t →
      uval w (t.reg d) = maxU w) ∧
    -- commutative
    exec (.add w sg d a b) s = exec (.add w sg d b a) s ∧
    -- associative
    (d ≠ a → d ≠ c →
      exec (.add w sg d a b) s = .next t → exec (.add w sg e d c) t = .next u →
      exec (.add w sg d b c) s = .next t' → exec (.add w sg e a d) t' = .next u' → u.reg e = u'.reg e)

/-- R61: multiplication is commutative and associative modulo 2^W and distributes over addition, as runs of
commands. -/
def Obligations.MultiplicationObeysTheRingLaws : Prop :=
  ∀ (w : Width) (sg : Signedness) (a b c d e f : Reg) (s t u t' u' v' : State),
    exec (.mul w sg d a b) s = exec (.mul w sg d b a) s ∧
    (d ≠ a → d ≠ c →
      exec (.mul w sg d a b) s = .next t → exec (.mul w sg e d c) t = .next u →
      exec (.mul w sg d b c) s = .next t' → exec (.mul w sg e a d) t' = .next u' → u.reg e = u'.reg e) ∧
    (d ≠ a → d ≠ c → e ≠ d →
      exec (.add w sg d b c) s = .next t → exec (.mul w sg f a d) t = .next u →
      exec (.mul w sg d a b) s = .next t' → exec (.mul w sg e a c) t' = .next u' →
      exec (.add w sg f d e) u' = .next v' → u.reg f = v'.reg f)

/-! ## Divider -/

/-- R64: unsigned DIVREM writes floor(u/v) and u - floor(u/v)·v, or raises DivideByZero when v is 0. RD = RD2 is illegal
at decode. -/
def Obligations.UnsignedDivremWritesQuotientAndRemainder : Prop :=
  ∀ (w : Width) (rd rd2 rs1 rs2 : Reg) (s : State),
    (rd = rd2 → decode (wordR 0x04 w .unsigned rd rs1 rs2 rd2) = .error .sameDestination) ∧
    (rd ≠ rd2 → decode (wordR 0x04 w .unsigned rd rs1 rs2 rd2) = .ok (.divremU w rd rd2 rs1 rs2)) ∧
    (rd ≠ rd2 → uval w (s.reg rs2) ≠ 0 → ∃ t, exec (.divremU w rd rd2 rs1 rs2) s = .next t ∧
      Completes s t [(rd, enc w ((uval w (s.reg rs1) / uval w (s.reg rs2) : Nat) : Int)),
        (rd2, enc w ((uval w (s.reg rs1) - uval w (s.reg rs1) / uval w (s.reg rs2) * uval w (s.reg rs2) : Nat) : Int))]) ∧
    (rd ≠ rd2 → uval w (s.reg rs2) = 0 →
      ∃ t, exec (.divremU w rd rd2 rs1 rs2) s = .next t ∧ Raises s t .divideByZero)

/-- R65: signed DIVREM writes tdiv(a, b) and trem(a, b), truncating toward zero and wrapped to W bits, or raises
DivideByZero when b is 0; it never raises Overflow. RD = RD2 is illegal at decode. The sign-magnitude procedure gives the
same values. -/
def Obligations.SignedDivremTruncatesTowardZero : Prop :=
  (∀ (w : Width) (rd rd2 rs1 rs2 : Reg) (s : State),
    (rd = rd2 → decode (wordR 0x04 w .signed rd rs1 rs2 rd2) = .error .sameDestination) ∧
    (rd ≠ rd2 → decode (wordR 0x04 w .signed rd rs1 rs2 rd2) = .ok (.divremS w rd rd2 rs1 rs2)) ∧
    (rd ≠ rd2 → sval w (s.reg rs2) ≠ 0 → ∃ t, exec (.divremS w rd rd2 rs1 rs2) s = .next t ∧
      Completes s t [(rd, enc w ((sval w (s.reg rs1)).tdiv (sval w (s.reg rs2)))),
        (rd2, enc w ((sval w (s.reg rs1)).tmod (sval w (s.reg rs2))))]) ∧
    (rd ≠ rd2 → sval w (s.reg rs2) = 0 →
      ∃ t, exec (.divremS w rd rd2 rs1 rs2) s = .next t ∧ Raises s t .divideByZero)) ∧
  ∀ (w : Width) (a b : BitVec w.bits), b ≠ 0 →
    signedQuotient a b = BitVec.ofInt w.bits (a.toInt.tdiv b.toInt) ∧
    signedRemainder a b = BitVec.ofInt w.bits (a.toInt.tmod b.toInt)

/-- R67: the division identity: exact for the unsigned command, modulo 2^W for the signed one, with the remainder below
the divisor in magnitude. -/
def Obligations.DivremObeysTheDivisionIdentity : Prop :=
  ∀ (w : Width) (rd rd2 rs1 rs2 : Reg) (s t : State), rd ≠ rd2 → uval w (s.reg rs2) ≠ 0 →
    (exec (.divremU w rd rd2 rs1 rs2) s = .next t →
      uval w (t.reg rd) * uval w (s.reg rs2) + uval w (t.reg rd2) = uval w (s.reg rs1) ∧
      uval w (t.reg rd2) < uval w (s.reg rs2)) ∧
    (exec (.divremS w rd rd2 rs1 rs2) s = .next t →
      (sval w (t.reg rd) * sval w (s.reg rs2) + sval w (t.reg rd2)) % 2 ^ w.bits =
        sval w (s.reg rs1) % 2 ^ w.bits ∧
      (sval w (t.reg rd2)).natAbs < (sval w (s.reg rs2)).natAbs)

/-! ## Comparator -/

/-- R70: unsigned CMP writes -1, 0 or 1 as W bits. -/
def Obligations.UnsignedCmpWritesTheOrder : Prop :=
  ∀ (w : Width) (rd rs1 rs2 : Reg) (s : State),
    decode (wordR 0x05 w .unsigned rd rs1 rs2 0) = .ok (.cmpU w rd rs1 rs2) ∧
    ∃ t, exec (.cmpU w rd rs1 rs2) s = .next t ∧
      Completes s t [(rd, enc w (if uval w (s.reg rs1) < uval w (s.reg rs2) then -1
        else if uval w (s.reg rs1) = uval w (s.reg rs2) then 0 else 1))]

/-- R71: signed CMP writes -1, 0 or 1 as W bits, by the two's-complement order. -/
def Obligations.SignedCmpWritesTheOrder : Prop :=
  ∀ (w : Width) (rd rs1 rs2 : Reg) (s : State),
    decode (wordR 0x05 w .signed rd rs1 rs2 0) = .ok (.cmpS w rd rs1 rs2) ∧
    ∃ t, exec (.cmpS w rd rs1 rs2) s = .next t ∧
      Completes s t [(rd, enc w (if sval w (s.reg rs1) < sval w (s.reg rs2) then -1
        else if sval w (s.reg rs1) = sval w (s.reg rs2) then 0 else 1))]

/-- R72: for both commands, CMP gives 0 exactly when the W low bits agree, is antisymmetric, "less" is transitive, and
values in native range compare as the native integers do. -/
def Obligations.CmpIsATotalOrder : Prop :=
  ∀ (w : Width) (sg : Signedness) (cmp : Reg → Reg → Reg → Instr),
    cmp = (if sg = .signed then Instr.cmpS w else Instr.cmpU w) →
    ∀ (d a b c : Reg) (s tab tba tbc tac : State),
      exec (cmp d a b) s = .next tab → exec (cmp d b a) s = .next tba →
      exec (cmp d b c) s = .next tbc → exec (cmp d a c) s = .next tac →
      (sval w (tab.reg d) = 0 ↔ uval w (s.reg a) = uval w (s.reg b)) ∧
      sval w (tab.reg d) = -sval w (tba.reg d) ∧
      (sval w (tab.reg d) = -1 → sval w (tbc.reg d) = -1 → sval w (tac.reg d) = -1) ∧
      (∀ (size : NativeSize) (x y : BitVec size.bits),
        uval w (s.reg a) = (fromNative w sg size x).toNat → uval w (s.reg b) = (fromNative w sg size y).toNat →
        sval w (tab.reg d) = (valueAt sg x - valueAt sg y).sign)

/-! ## Shifter -/

/-- R75, R77: SHL by the whole unsigned W-bit value of rs2 and SHLI by the 16-bit immediate write a·2^n modulo 2^W,
which is 0 for every count of W or more. -/
def Obligations.ShiftLeftMultipliesByAPowerOfTwo : Prop :=
  (∀ (w : Width) (sg : Signedness) (rd rs1 rs2 : Reg) (s : State),
    decode (wordR 0x06 w sg rd rs1 rs2 0) = .ok (.shl w sg rd rs1 rs2) ∧
    ∃ t, exec (.shl w sg rd rs1 rs2) s = .next t ∧
      Completes s t [(rd, enc w (uval w (s.reg rs1) * 2 ^ uval w (s.reg rs2)))] ∧
      (w.bits ≤ uval w (s.reg rs2) → t.reg rd = 0)) ∧
  ∀ (w : Width) (sg : Signedness) (rd rs1 : Reg) (imm : BitVec 16) (s : State),
    decode (wordI 0x08 w sg rd rs1 imm.toNat) = .ok (.shli w sg rd rs1 imm) ∧
    ∃ t, exec (.shli w sg rd rs1 imm) s = .next t ∧
      Completes s t [(rd, enc w (uval w (s.reg rs1) * 2 ^ imm.toNat))] ∧
      (w.bits ≤ imm.toNat → t.reg rd = 0)

/-- R76, R78: SHR and SHRI write floor(a / 2^n), zeros filling, which is 0 for every count of W or more; S = 1 is
illegal at decode. -/
def Obligations.ShiftRightDividesByAPowerOfTwo : Prop :=
  (∀ (w : Width) (rd rs1 rs2 : Reg) (s : State),
    decode (wordR 0x07 w .unsigned rd rs1 rs2 0) = .ok (.shr w rd rs1 rs2) ∧
    decode (wordR 0x07 w .signed rd rs1 rs2 0) = .error .signBit ∧
    ∃ t, exec (.shr w rd rs1 rs2) s = .next t ∧
      Completes s t [(rd, enc w ((uval w (s.reg rs1) / 2 ^ uval w (s.reg rs2) : Nat) : Int))] ∧
      (w.bits ≤ uval w (s.reg rs2) → t.reg rd = 0)) ∧
  ∀ (w : Width) (rd rs1 : Reg) (imm : BitVec 16) (s : State),
    decode (wordI 0x09 w .unsigned rd rs1 imm.toNat) = .ok (.shri w rd rs1 imm) ∧
    decode (wordI 0x09 w .signed rd rs1 imm.toNat) = .error .signBit ∧
    ∃ t, exec (.shri w rd rs1 imm) s = .next t ∧
      Completes s t [(rd, enc w ((uval w (s.reg rs1) / 2 ^ imm.toNat : Nat) : Int))] ∧
      (w.bits ≤ imm.toNat → t.reg rd = 0)

/-! ## Logic -/

/-- R81 to R84: AND, OR, XOR and NOT work bit by bit on the W low bits; every bit above them is 0 in the result. RS2
and RD2 of NOT must be 0. -/
def Obligations.LogicWorksBitByBitOnTheLowBits : Prop :=
  ∀ (w : Width) (sg : Signedness) (rd rs1 rs2 rd2 : Reg) (s : State),
    (decode (wordR 0x0A w sg rd rs1 rs2 0) = .ok (.and w sg rd rs1 rs2) ∧
      ∃ t v, exec (.and w sg rd rs1 rs2) s = .next t ∧ Completes s t [(rd, v)] ∧
        ∀ b, v.getLsbD b = (decide (b < w.bits) && ((s.reg rs1).getLsbD b && (s.reg rs2).getLsbD b))) ∧
    (decode (wordR 0x0B w sg rd rs1 rs2 0) = .ok (.or w sg rd rs1 rs2) ∧
      ∃ t v, exec (.or w sg rd rs1 rs2) s = .next t ∧ Completes s t [(rd, v)] ∧
        ∀ b, v.getLsbD b = (decide (b < w.bits) && ((s.reg rs1).getLsbD b || (s.reg rs2).getLsbD b))) ∧
    (decode (wordR 0x0C w sg rd rs1 rs2 0) = .ok (.xor w sg rd rs1 rs2) ∧
      ∃ t v, exec (.xor w sg rd rs1 rs2) s = .next t ∧ Completes s t [(rd, v)] ∧
        ∀ b, v.getLsbD b = (decide (b < w.bits) && ((s.reg rs1).getLsbD b ^^ (s.reg rs2).getLsbD b))) ∧
    (decode (wordR 0x0D w sg rd rs1 0 0) = .ok (.not w sg rd rs1) ∧
      (rs2 ≠ 0 ∨ rd2 ≠ 0 → ∃ e, decode (wordR 0x0D w sg rd rs1 rs2 rd2) = .error e) ∧
      ∃ t v, exec (.not w sg rd rs1) s = .next t ∧ Completes s t [(rd, v)] ∧
        ∀ b, v.getLsbD b = (decide (b < w.bits) && !(s.reg rs1).getLsbD b))

/-! ## DECACC -/

/-- R85: DECACC writes m·10 + d, or raises Overflow when that is above MaxU(W): when m is above floor(MaxU(W)/10), or
equal to it and d is 6 or more. A digit above 9, or S = 1, is illegal at decode. -/
def Obligations.DecaccAccumulatesOrOverflows : Prop :=
  ∀ (w : Width) (rd rs1 : Reg) (digit : BitVec 4) (s : State),
    (∀ imm : BitVec 16, 9 < imm.toNat → decode (wordI 0x0E w .unsigned rd rs1 imm.toNat) = .error .digit) ∧
    (∀ imm : BitVec 16, decode (wordI 0x0E w .signed rd rs1 imm.toNat) = .error .signBit) ∧
    (digit.toNat ≤ 9 →
      decode (wordI 0x0E w .unsigned rd rs1 digit.toNat) = .ok (.decacc w rd rs1 digit) ∧
      (uval w (s.reg rs1) * 10 + digit.toNat ≤ maxU w →
        ∃ t, exec (.decacc w rd rs1 digit) s = .next t ∧
          Completes s t [(rd, enc w (uval w (s.reg rs1) * 10 + digit.toNat))]) ∧
      (maxU w < uval w (s.reg rs1) * 10 + digit.toNat →
        ∃ t, exec (.decacc w rd rs1 digit) s = .next t ∧ Raises s t .overflow) ∧
      (maxU w < uval w (s.reg rs1) * 10 + digit.toNat ↔
        maxU w / 10 < uval w (s.reg rs1) ∨ (uval w (s.reg rs1) = maxU w / 10 ∧ 6 ≤ digit.toNat)))

/-! ## Loads and width conversion -/

/-- R93: LDI writes its immediate, zero-extended at S = 0 and sign-extended at S = 1; RS1 other than 0 is illegal. -/
def Obligations.LdiWritesTheExtendedImmediate : Prop :=
  ∀ (w : Width) (sg : Signedness) (rd rs1 : Reg) (imm : BitVec 16) (s : State),
    decode (wordI 0x0F w sg rd 0 imm.toNat) = .ok (.ldi w sg rd imm) ∧
    (rs1 ≠ 0 → decode (wordI 0x0F w sg rd rs1 imm.toNat) = .error .rs1Field) ∧
    ∃ t, exec (.ldi w sg rd imm) s = .next t ∧
      Completes s t [(rd, enc w (if sg = .signed ∧ 2 ^ 15 ≤ imm.toNat then (imm.toNat : Int) - 2 ^ 16 else imm.toNat))]

/-- R94: EXT writes the 128-bit value, read at its signedness, as 256 bits; W = 0 is illegal. -/
def Obligations.ExtWidensTo256Bits : Prop :=
  ∀ (sg : Signedness) (rd rs1 : Reg) (s : State),
    decode (wordR 0x10 .w256 sg rd rs1 0 0) = .ok (.ext sg rd rs1) ∧
    decode (wordR 0x10 .w128 sg rd rs1 0 0) = .error .widthBit ∧
    ∃ t, exec (.ext sg rd rs1) s = .next t ∧
      Completes s t [(rd, enc .w256 (if sg = .signed then sval .w128 (s.reg rs1) else uval .w128 (s.reg rs1)))]

/-- R95: TRUNC writes the low 128 bits, whatever the high ones hold; W = 1 and S = 1 are illegal. -/
def Obligations.TruncKeepsTheLow128Bits : Prop :=
  ∀ (rd rs1 : Reg) (s : State),
    decode (wordR 0x11 .w128 .unsigned rd rs1 0 0) = .ok (.trunc rd rs1) ∧
    (∀ sg, decode (wordR 0x11 .w256 sg rd rs1 0 0) = .error .widthBit) ∧
    decode (wordR 0x11 .w128 .signed rd rs1 0 0) = .error .signBit ∧
    ∃ t, exec (.trunc rd rs1) s = .next t ∧ Completes s t [(rd, enc .w128 (uval .w256 (s.reg rs1)))]

/-- R96: TRUNCC writes the low 128 bits when the 256-bit value lies in the range of the 128-bit type of the same
signedness, and the value read back at 128 bits is then the same; otherwise it raises Overflow. W = 1 is illegal. -/
def Obligations.TrunccNarrowsOrOverflows : Prop :=
  ∀ (rd rs1 : Reg) (s : State),
    (∀ sg, decode (wordR 0x12 .w128 sg rd rs1 0 0) = .ok (.truncc sg rd rs1) ∧
      decode (wordR 0x12 .w256 sg rd rs1 0 0) = .error .widthBit) ∧
    (uval .w256 (s.reg rs1) ≤ maxU .w128 → ∃ t, exec (.truncc .unsigned rd rs1) s = .next t ∧
      Completes s t [(rd, enc .w128 (uval .w256 (s.reg rs1)))] ∧ uval .w128 (t.reg rd) = uval .w256 (s.reg rs1)) ∧
    (maxU .w128 < uval .w256 (s.reg rs1) →
      ∃ t, exec (.truncc .unsigned rd rs1) s = .next t ∧ Raises s t .overflow) ∧
    (minS .w128 ≤ sval .w256 (s.reg rs1) ∧ sval .w256 (s.reg rs1) ≤ maxS .w128 →
      ∃ t, exec (.truncc .signed rd rs1) s = .next t ∧
        Completes s t [(rd, enc .w128 (uval .w256 (s.reg rs1)))] ∧ sval .w128 (t.reg rd) = sval .w256 (s.reg rs1)) ∧
    (sval .w256 (s.reg rs1) < minS .w128 ∨ maxS .w128 < sval .w256 (s.reg rs1) →
      ∃ t, exec (.truncc .signed rd rs1) s = .next t ∧ Raises s t .overflow)

/-! ## Sign unit -/

/-- R101: NEG writes the two's-complement negation, which is the same bits as the difference from 0. RS2 and RD2 must
be 0. -/
def Obligations.NegWritesTheNegation : Prop :=
  ∀ (w : Width) (sg : Signedness) (rd rs1 rs2 rd2 : Reg) (s : State),
    decode (wordR 0x13 w sg rd rs1 0 0) = .ok (.neg w sg rd rs1) ∧
    (rs2 ≠ 0 ∨ rd2 ≠ 0 → ∃ e, decode (wordR 0x13 w sg rd rs1 rs2 rd2) = .error e) ∧
    ∃ t, exec (.neg w sg rd rs1) s = .next t ∧ Completes s t [(rd, enc w (-(uval w (s.reg rs1) : Int)))]

/-- R102: ABS writes the absolute value; the least value wraps to itself with no error, and read unsigned it is the
magnitude. S = 0 is illegal, and RS2 and RD2 must be 0. -/
def Obligations.AbsWritesTheMagnitude : Prop :=
  ∀ (w : Width) (rd rs1 rs2 rd2 : Reg) (s : State),
    decode (wordR 0x14 w .signed rd rs1 0 0) = .ok (.abs w rd rs1) ∧
    (rs2 ≠ 0 ∨ rd2 ≠ 0 → ∃ e, decode (wordR 0x14 w .signed rd rs1 rs2 rd2) = .error e) ∧
    decode (wordR 0x14 w .unsigned rd rs1 0 0) = .error .signBit ∧
    ∃ t, exec (.abs w rd rs1) s = .next t ∧ Completes s t [(rd, enc w |sval w (s.reg rs1)|)] ∧
      uval w (t.reg rd) = (sval w (s.reg rs1)).natAbs ∧
      (sval w (s.reg rs1) = minS w → sval w (t.reg rd) = minS w)

/-- R103: SIGN writes 0 for 0, and otherwise 1 at S = 0 and the sign of the signed value at S = 1. RS2 and RD2 must
be 0. -/
def Obligations.SignWritesTheSign : Prop :=
  ∀ (w : Width) (sg : Signedness) (rd rs1 rs2 rd2 : Reg) (s : State),
    decode (wordR 0x15 w sg rd rs1 0 0) = .ok (.sign w sg rd rs1) ∧
    (rs2 ≠ 0 ∨ rd2 ≠ 0 → ∃ e, decode (wordR 0x15 w sg rd rs1 rs2 rd2) = .error e) ∧
    ∃ t, exec (.sign w sg rd rs1) s = .next t ∧
      Completes s t [(rd, enc w (if sg = .signed then (sval w (s.reg rs1)).sign
        else if uval w (s.reg rs1) = 0 then 0 else 1))]

/-! ## System commands -/

/-- R104: NOP clears CODE and does nothing else; no other word with OP = 0 is legal. -/
def Obligations.NopClearsOnlyTheCode : Prop :=
  (∀ s : State, ∃ t, exec .nop s = .next t ∧ Completes s t []) ∧
  ∀ c : CommandWord, c.toNat % 2 ^ 6 = 0 → decode c = if c.toNat = 0 then .ok .nop else .error .fixedWord

/-- R105: CLRST writes all of STATUS to 0 and changes no operand register; no other word with OP = 0x16 is legal; and
a sticky bit that is set stays set through every step but HostReset and the issue of CLRST. -/
def Obligations.ClrstClearsAllOfStatus : Prop :=
  (∀ s : State, ∃ t, exec .clrst s = .next t ∧ t.status = 0#32 ∧
    (∀ r, t.reg r = s.reg r ∧ t.isWritten r = s.isWritten r) ∧ SameRest s t) ∧
  (∀ c : CommandWord, c.toNat % 2 ^ 6 = 0x16 → decode c = if c.toNat = 0x16 then .ok .clrst else .error .fixedWord) ∧
  ∀ s t : State, step s = .next t →
    s.pending.head? ≠ some .reset → s.pending.head? ≠ some (.issue 0x00000016#32) →
    (s.dz = true → t.dz = true) ∧ (s.ov = true → t.ov = true) ∧ (s.il = true → t.il = true)

/-! ## Reference datapaths -/

/-- R54: the word-by-word adder with its carry computes enc_W(uval_W(a) + uval_W(b)). -/
def Obligations.RippleAdderComputesTheSum : Prop :=
  ∀ (w : Width) (a b : BitVec w.bits),
    BitVec.ofNat w.bits (wordsValue (rippleAdd (wordsOf 64 a) (wordsOf 64 b) false)) =
      BitVec.ofNat w.bits (a.toNat + b.toNat)

/-- R59: the schoolbook multiplier with 64-bit accumulators over 32-bit limbs computes the full double-width product,
and its low half is the product that MUL writes. -/
def Obligations.SchoolbookMultiplierComputesTheProduct : Prop :=
  ∀ (w : Width) (a b : BitVec w.bits),
    wordsValue (schoolbookProduct (wordsOf 32 a) (wordsOf 32 b)) = a.toNat * b.toNat ∧ schoolbookMul w a b = a * b

/-- R62, R63: the normalized long division over 32-bit limbs, with its estimate and at most one correction step for
each digit, gives floor(u / v) and u - floor(u / v)·v. That the loop on the estimate is bounded by two turns is the
model's inference (log 14). -/
def Obligations.NormalizedDivisionGivesQuotientAndRemainder : Prop :=
  ∀ u v : Nat, v ≠ 0 → normalizedDivMod u v = (u / v, u % v)

/-- R69: the comparator that looks for the first differing word from the top gives sgn(uval_W(a) - uval_W(b)). -/
def Obligations.WordComparatorGivesTheUnsignedOrder : Prop :=
  ∀ (w : Width) (a b : BitVec w.bits),
    compareWords (wordsOf 64 a).reverse (wordsOf 64 b).reverse = ((a.toNat : Int) - b.toNat).sign

/-- R73: moving words and carrying bits between adjacent words computes the two shifts, for every count. -/
def Obligations.WordShifterComputesTheShifts : Prop :=
  ∀ (w : Width) (a : BitVec w.bits) (n : Nat),
    BitVec.ofNat w.bits (wordsValue (shiftWordsLeft (wordsOf 64 a) n)) = BitVec.ofNat w.bits (a.toNat * 2 ^ n) ∧
    BitVec.ofNat w.bits (wordsValue (shiftWordsRight (wordsOf 64 a) n)) = BitVec.ofNat w.bits (a.toNat / 2 ^ n)

/-! ## Host functions -/

/-- R92, decimal: parsing what FormatDec wrote gives the value back, at every width and signedness. -/
def Obligations.DecimalTextRoundTrips : Prop :=
  ∀ (zeros : LeadingZeros) (w : Width) (sg : Signedness) (allowNeg : Bool) (v : BitVec w.bits),
    parseDec zeros w sg allowNeg (formatDec w sg v) = .ok v

/-- R92, hexadecimal: parsing what FormatHex wrote gives the value back, as long as the padding count is at most W/4;
a text padded beyond W/4 digits is Overflow. -/
def Obligations.HexTextRoundTrips : Prop :=
  ∀ (w : Width) (sg : Signedness) (upper trim : Bool) (n : Nat) (v : BitVec w.bits),
    parseHex w sg (formatHex w upper n trim v) = if n ≤ w.bits / 4 then .ok v else .error .overflow

/-- R89: an unsigned decimal text without a sign parses to the number it writes in base ten, or is Overflow when that
number is above MaxU(W). -/
def Obligations.ParseDecReadsTheNumberInBaseTen : Prop :=
  ∀ (zeros : LeadingZeros) (w : Width) (allowNeg : Bool) (digits : List (Fin 10)),
    digits ≠ [] → (zeros = .accept ∨ digits.length = 1 ∨ digits.head? ≠ some 0) →
    parseDec zeros w .unsigned allowNeg (digits.map fun d => decimalChar d.val) =
      if Nat.ofDigits 10 (digits.reverse.map Fin.val) ≤ maxU w then
        .ok (BitVec.ofNat w.bits (Nat.ofDigits 10 (digits.reverse.map Fin.val)))
      else .error .overflow

/-- R6, R97: which bits of the value each word, limb and byte is; the arrays give the value back, bytes at either order;
and a list of any other length is InvalidArgument. For a list of limbs that length rule is the model's choice
(log 15). -/
def Obligations.ArraysRoundTrip : Prop :=
  ∀ (w : Width) (v : BitVec w.bits),
    (∀ k, k < w.bits / 64 → (toWords w v)[w.bits / 64 - 1 - k]? = some (v.extractLsb' (64 * k) 64)) ∧
    (∀ k, k < w.bits / 32 → (toLimbs w v)[k]? = some (v.extractLsb' (32 * k) 32)) ∧
    (∀ j, j < w.bits / 8 → (toBytes w .little v)[j]? = some (v.extractLsb' (8 * j) 8) ∧
      (toBytes w .big v)[j]? = some (v.extractLsb' (w.bits - 8 - 8 * j) 8)) ∧
    fromWords w (toWords w v) = .ok v ∧
    fromLimbs w (toLimbs w v) = .ok v ∧
    (∀ order, fromBytes w order (toBytes w order v) = .ok v) ∧
    (∀ ws : List PortWord, ws.length ≠ w.bits / 64 → fromWords w ws = .error .invalidArgument) ∧
    (∀ limbs : List (BitVec 32), limbs.length ≠ w.bits / 32 → fromLimbs w limbs = .error .invalidArgument) ∧
    (∀ order (bs : List (BitVec 8)), bs.length ≠ w.bits / 8 → fromBytes w order bs = .error .invalidArgument)

/-- R99: a conversion to a native integer succeeds exactly when the value lies in the destination's full range, and then
keeps the value; construction from a native integer keeps its value as well, read at its own signedness. -/
def Obligations.NativeConversionsKeepTheValue : Prop :=
  (∀ (w : Width) (sg native : Signedness) (size : NativeSize) (v : BitVec w.bits),
    (inNativeRange native size (valueAt sg v) = true →
      ∃ x, toNative w sg native size v = .ok x ∧ valueAt native x = valueAt sg v) ∧
    (inNativeRange native size (valueAt sg v) = false → toNative w sg native size v = .error .overflow)) ∧
  ∀ (w : Width) (native : Signedness) (size : NativeSize) (x : BitVec size.bits),
    valueAt native (fromNative w native size x) = valueAt native x

/-! ## Assembler -/

/-- R52: assembling what the disassembler prints of a legal command gives the command back. -/
def Obligations.AssembleInvertsDisassemble : Prop :=
  ∀ i : Instr, i.legal = true → ∃ text, disassemble i = some text ∧ assemble text = some i

/-- R53: the expansions of the four pseudo-instructions, and their effects. -/
def Obligations.PseudoInstructionsHaveTheirEffects : Prop :=
  ∀ (w : Width) (rd rs : Reg) (s : State),
    (expandPseudo (.mov w rd rs) = .or w .unsigned rd rs rs ∧ expandPseudo (.clr w rd) = .ldi w .unsigned rd 0 ∧
      expandPseudo (.ldmax w rd) = .ldi w .signed rd (BitVec.ofInt 16 (-1)) ∧
      expandPseudo (.zext rd rs) = .trunc rd rs) ∧
    (∃ t, exec (expandPseudo (.mov w rd rs)) s = .next t ∧ Completes s t [(rd, enc w (uval w (s.reg rs)))]) ∧
    (∃ t, exec (expandPseudo (.clr w rd)) s = .next t ∧ Completes s t [(rd, 0#256)]) ∧
    (∃ t, exec (expandPseudo (.ldmax w rd)) s = .next t ∧ Completes s t [(rd, enc w (maxU w))]) ∧
    (∃ t, exec (expandPseudo (.zext rd rs)) s = .next t ∧ Completes s t [(rd, enc .w128 (uval .w128 (s.reg rs)))])
end

