-- ==== Sys2Proof/Laws/Decode.lean ====
section
/-! SUPPORT. The fields of command words that are written as numbers (R40 to R42), so that decoding such a word never
unfolds it. -/

namespace Sys2Proof

theorem fieldAt_eq (c : CommandWord) (lo len : Nat) : (c.extractLsb' lo len).toNat = fieldAt c lo len := by
  simp [fieldAt, BitVec.extractLsb'_toNat, Nat.shiftRight_eq_div_pow]

theorem opField_toNat (c : CommandWord) : (opField c).toNat = fieldAt c 0 6 := fieldAt_eq c 0 6

theorem regField_val (c : CommandWord) (lo : Nat) : (Reg.ofBits (c.extractLsb' lo 4)).val = fieldAt c lo 4 :=
  fieldAt_eq c lo 4

theorem zField_toNat (c : CommandWord) : (zField c).toNat = fieldAt c 24 8 := fieldAt_eq c 24 8

theorem immField_toNat (c : CommandWord) : (immField c).toNat = fieldAt c 16 16 := fieldAt_eq c 16 16

theorem oneBit_eq (b : BitVec 1) : b = 1#1 ↔ b.toNat = 1 := by
  constructor
  · rintro rfl
    rfl
  · intro h
    exact BitVec.eq_of_toNat_eq h

theorem widthField_eq (c : CommandWord) : widthField c = if fieldAt c 6 1 = 1 then .w256 else .w128 := by
  simp only [widthField, Width.ofBit, oneBit_eq, fieldAt_eq]

theorem signField_eq (c : CommandWord) : signField c = if fieldAt c 7 1 = 1 then .signed else .unsigned := by
  simp only [signField, Signedness.ofBit, oneBit_eq, fieldAt_eq]

section
variable (op : Nat) (hop : op < 64) (w : Width) (sg : Signedness) (rd rs1 rs2 rd2 : Reg) (imm : BitVec 16)
include hop

/-- The number that a format R word is, without the wrap of `BitVec.ofNat`. -/
theorem wordR_toNat : (wordR op w sg rd rs1 rs2 rd2).toNat =
    rd2.val * 2 ^ 20 + rs2.val * 2 ^ 16 + rs1.val * 2 ^ 12 + rd.val * 2 ^ 8 + selectorBits w sg + op := by
  rw [wordR, BitVec.toNat_ofNat, Nat.mod_eq_of_lt]
  cases w <;> cases sg <;> simp [selectorBits] <;> omega

/-- The number that a format I word is, without the wrap of `BitVec.ofNat`. -/
theorem wordI_toNat : (wordI op w sg rd rs1 imm.toNat).toNat =
    imm.toNat * 2 ^ 16 + rs1.val * 2 ^ 12 + rd.val * 2 ^ 8 + selectorBits w sg + op := by
  rw [wordI, BitVec.toNat_ofNat, Nat.mod_eq_of_lt]
  have := imm.isLt
  cases w <;> cases sg <;> simp [selectorBits] <;> omega

/-- Every field of a format R word, as a number (R41). -/
theorem wordR_fields :
    fieldAt (wordR op w sg rd rs1 rs2 rd2) 0 6 = op ∧
    fieldAt (wordR op w sg rd rs1 rs2 rd2) 6 1 = (if w = .w256 then 1 else 0) ∧
    fieldAt (wordR op w sg rd rs1 rs2 rd2) 7 1 = (if sg = .signed then 1 else 0) ∧
    fieldAt (wordR op w sg rd rs1 rs2 rd2) 8 4 = rd.val ∧
    fieldAt (wordR op w sg rd rs1 rs2 rd2) 12 4 = rs1.val ∧
    fieldAt (wordR op w sg rd rs1 rs2 rd2) 16 4 = rs2.val ∧
    fieldAt (wordR op w sg rd rs1 rs2 rd2) 20 4 = rd2.val ∧
    fieldAt (wordR op w sg rd rs1 rs2 rd2) 24 8 = 0 := by
  simp only [fieldAt, wordR_toNat op hop]
  cases w <;> cases sg <;> simp [selectorBits] <;> omega

/-- Every field of a format I word, as a number (R42). -/
theorem wordI_fields :
    fieldAt (wordI op w sg rd rs1 imm.toNat) 0 6 = op ∧
    fieldAt (wordI op w sg rd rs1 imm.toNat) 6 1 = (if w = .w256 then 1 else 0) ∧
    fieldAt (wordI op w sg rd rs1 imm.toNat) 7 1 = (if sg = .signed then 1 else 0) ∧
    fieldAt (wordI op w sg rd rs1 imm.toNat) 8 4 = rd.val ∧
    fieldAt (wordI op w sg rd rs1 imm.toNat) 12 4 = rs1.val ∧
    fieldAt (wordI op w sg rd rs1 imm.toNat) 16 16 = imm.toNat := by
  have := imm.isLt
  simp only [fieldAt, wordI_toNat op hop]
  cases w <;> cases sg <;> simp [selectorBits] <;> omega

/-- The decoder's reading of a format R word. -/
theorem wordR_decoded :
    (opField (wordR op w sg rd rs1 rs2 rd2)).toNat = op ∧ widthField (wordR op w sg rd rs1 rs2 rd2) = w ∧
    signField (wordR op w sg rd rs1 rs2 rd2) = sg ∧ rdField (wordR op w sg rd rs1 rs2 rd2) = rd ∧
    rs1Field (wordR op w sg rd rs1 rs2 rd2) = rs1 ∧ rs2Field (wordR op w sg rd rs1 rs2 rd2) = rs2 ∧
    rd2Field (wordR op w sg rd rs1 rs2 rd2) = rd2 ∧ zField (wordR op w sg rd rs1 rs2 rd2) = 0#8 := by
  obtain ⟨h0, h6, h7, h8, h12, h16, h20, h24⟩ := wordR_fields op hop w sg rd rs1 rs2 rd2
  refine ⟨by rw [opField_toNat, h0], ?_, ?_, Fin.ext ?_, Fin.ext ?_, Fin.ext ?_, Fin.ext ?_, ?_⟩
  · rw [widthField_eq, h6]
    cases w <;> simp
  · rw [signField_eq, h7]
    cases sg <;> simp
  · exact (regField_val _ 8).trans h8
  · exact (regField_val _ 12).trans h12
  · exact (regField_val _ 16).trans h16
  · exact (regField_val _ 20).trans h20
  · exact BitVec.eq_of_toNat_eq ((zField_toNat _).trans h24)

/-- The decoder's reading of a format I word. -/
theorem wordI_decoded :
    (opField (wordI op w sg rd rs1 imm.toNat)).toNat = op ∧ widthField (wordI op w sg rd rs1 imm.toNat) = w ∧
    signField (wordI op w sg rd rs1 imm.toNat) = sg ∧ rdField (wordI op w sg rd rs1 imm.toNat) = rd ∧
    rs1Field (wordI op w sg rd rs1 imm.toNat) = rs1 ∧ immField (wordI op w sg rd rs1 imm.toNat) = imm := by
  obtain ⟨h0, h6, h7, h8, h12, h16⟩ := wordI_fields op hop w sg rd rs1 imm
  refine ⟨by rw [opField_toNat, h0], ?_, ?_, Fin.ext ?_, Fin.ext ?_, ?_⟩
  · rw [widthField_eq, h6]
    cases w <;> simp
  · rw [signField_eq, h7]
    cases sg <;> simp
  · exact (regField_val _ 8).trans h8
  · exact (regField_val _ 12).trans h12
  · exact BitVec.eq_of_toNat_eq ((immField_toNat _).trans h16)

end

end Sys2Proof
end

