-- ==== Sys2Proof/Laws/State.lean ====
section
/-! SUPPORT. One lemma for each field of each update of the state, and what a register read gives after a write. -/

namespace Sys2Proof.Machine

section
variable (s : State) (i j : Reg) (k : WordIndex) (v : RegWord) (x : PortWord) (e : ErrorKind) (c : CommandWord)

/-! ### setReg -/
@[simp] theorem setReg_status : (s.setReg i v).status = s.status := rfl
@[simp] theorem setReg_wmask : (s.setReg i v).wmask = s.wmask := rfl
@[simp] theorem setReg_pending : (s.setReg i v).pending = s.pending := rfl
@[simp] theorem setReg_replies : (s.setReg i v).replies = s.replies := rfl
@[simp] theorem setReg_draws : (s.setReg i v).draws = s.draws := rfl
@[simp] theorem setReg_hostMask : (s.setReg i v).hostMask j = s.hostMask j := rfl

theorem setReg_reg : (s.setReg i v).reg j = if j = i then v else s.reg j := by
  simp [State.setReg, State.reg, Vector.getElem_set, Fin.ext_iff, eq_comm]

theorem setReg_isWritten : (s.setReg i v).isWritten j = if j = i then true else s.isWritten j := by
  simp [State.setReg, State.isWritten, Vector.getElem_set, Fin.ext_iff, eq_comm]

@[simp] theorem setReg_reg_same : (s.setReg i v).reg i = v := by simp [setReg_reg]

@[simp] theorem setReg_reg_other (h : j ≠ i) : (s.setReg i v).reg j = s.reg j := by simp [setReg_reg, h]

@[simp] theorem setReg_isWritten_same : (s.setReg i v).isWritten i = true := by simp [setReg_isWritten]

@[simp] theorem setReg_isWritten_other (h : j ≠ i) : (s.setReg i v).isWritten j = s.isWritten j := by
  simp [setReg_isWritten, h]

/-! ### succeed -/
@[simp] theorem succeed_status : s.succeed.status = statusAfterSuccess s.status := rfl
@[simp] theorem succeed_regs : s.succeed.regs = s.regs := rfl
@[simp] theorem succeed_written : s.succeed.written = s.written := rfl
@[simp] theorem succeed_wmask : s.succeed.wmask = s.wmask := rfl
@[simp] theorem succeed_pending : s.succeed.pending = s.pending := rfl
@[simp] theorem succeed_replies : s.succeed.replies = s.replies := rfl
@[simp] theorem succeed_draws : s.succeed.draws = s.draws := rfl
@[simp] theorem succeed_reg : s.succeed.reg j = s.reg j := rfl
@[simp] theorem succeed_isWritten : s.succeed.isWritten j = s.isWritten j := rfl
@[simp] theorem succeed_hostMask : s.succeed.hostMask j = s.hostMask j := rfl

/-! ### raise -/
@[simp] theorem raise_status : (s.raise e).status = statusAfterError e s.status := rfl
@[simp] theorem raise_regs : (s.raise e).regs = s.regs := rfl
@[simp] theorem raise_written : (s.raise e).written = s.written := rfl
@[simp] theorem raise_wmask : (s.raise e).wmask = s.wmask := rfl
@[simp] theorem raise_pending : (s.raise e).pending = s.pending := rfl
@[simp] theorem raise_replies : (s.raise e).replies = s.replies := rfl
@[simp] theorem raise_draws : (s.raise e).draws = s.draws := rfl
@[simp] theorem raise_reg : (s.raise e).reg j = s.reg j := rfl
@[simp] theorem raise_isWritten : (s.raise e).isWritten j = s.isWritten j := rfl
@[simp] theorem raise_hostMask : (s.raise e).hostMask j = s.hostMask j := rfl

/-! ### clearStatus -/
@[simp] theorem clearStatus_status : s.clearStatus.status = 0#32 := rfl
@[simp] theorem clearStatus_regs : s.clearStatus.regs = s.regs := rfl
@[simp] theorem clearStatus_written : s.clearStatus.written = s.written := rfl
@[simp] theorem clearStatus_wmask : s.clearStatus.wmask = s.wmask := rfl
@[simp] theorem clearStatus_pending : s.clearStatus.pending = s.pending := rfl
@[simp] theorem clearStatus_replies : s.clearStatus.replies = s.replies := rfl
@[simp] theorem clearStatus_draws : s.clearStatus.draws = s.draws := rfl
@[simp] theorem clearStatus_reg : s.clearStatus.reg j = s.reg j := rfl
@[simp] theorem clearStatus_isWritten : s.clearStatus.isWritten j = s.isWritten j := rfl
@[simp] theorem clearStatus_hostMask : s.clearStatus.hostMask j = s.hostMask j := rfl

/-! ### hostWriteWord -/
@[simp] theorem hostWriteWord_status : (s.hostWriteWord i k x).status = s.status := rfl
@[simp] theorem hostWriteWord_pending : (s.hostWriteWord i k x).pending = s.pending := rfl
@[simp] theorem hostWriteWord_replies : (s.hostWriteWord i k x).replies = s.replies := rfl
@[simp] theorem hostWriteWord_draws : (s.hostWriteWord i k x).draws = s.draws := rfl

theorem hostWriteWord_reg :
    (s.hostWriteWord i k x).reg j = if j = i then setWord (s.reg i) k x else s.reg j := by
  simp [State.hostWriteWord, State.reg, Vector.getElem_set, Fin.ext_iff, eq_comm]

theorem hostWriteWord_hostMask :
    (s.hostWriteWord i k x).hostMask j = if j = i then s.hostMask i ||| (1#4 <<< k.val) else s.hostMask j := by
  simp [State.hostWriteWord, State.hostMask, Vector.getElem_set, Fin.ext_iff, eq_comm]

theorem hostWriteWord_isWritten :
    (s.hostWriteWord i k x).isWritten j =
      if j = i then s.isWritten i || s.hostMask i ||| (1#4 <<< k.val) == 0xF#4 else s.isWritten j := by
  simp [State.hostWriteWord, State.isWritten, Vector.getElem_set, Fin.ext_iff, eq_comm]

/-! ### hostReadWord and hostReadStatus -/
@[simp] theorem hostReadWord_regs : (s.hostReadWord i k).regs = s.regs := rfl
@[simp] theorem hostReadWord_status : (s.hostReadWord i k).status = s.status := rfl
@[simp] theorem hostReadWord_written : (s.hostReadWord i k).written = s.written := rfl
@[simp] theorem hostReadWord_wmask : (s.hostReadWord i k).wmask = s.wmask := rfl
@[simp] theorem hostReadWord_pending : (s.hostReadWord i k).pending = s.pending := rfl
@[simp] theorem hostReadWord_replies :
    (s.hostReadWord i k).replies = s.replies ++ [.word (getWord (s.reg i) k)] := rfl
@[simp] theorem hostReadWord_draws : (s.hostReadWord i k).draws = s.draws := rfl
@[simp] theorem hostReadWord_reg : (s.hostReadWord i k).reg j = s.reg j := rfl
@[simp] theorem hostReadWord_isWritten : (s.hostReadWord i k).isWritten j = s.isWritten j := rfl
@[simp] theorem hostReadWord_hostMask : (s.hostReadWord i k).hostMask j = s.hostMask j := rfl
@[simp] theorem hostReadStatus_regs : s.hostReadStatus.regs = s.regs := rfl
@[simp] theorem hostReadStatus_status : s.hostReadStatus.status = s.status := rfl
@[simp] theorem hostReadStatus_written : s.hostReadStatus.written = s.written := rfl
@[simp] theorem hostReadStatus_wmask : s.hostReadStatus.wmask = s.wmask := rfl
@[simp] theorem hostReadStatus_pending : s.hostReadStatus.pending = s.pending := rfl
@[simp] theorem hostReadStatus_replies :
    s.hostReadStatus.replies = s.replies ++ [.status s.statusWord] := rfl
@[simp] theorem hostReadStatus_draws : s.hostReadStatus.draws = s.draws := rfl
@[simp] theorem hostReadStatus_reg : s.hostReadStatus.reg j = s.reg j := rfl
@[simp] theorem hostReadStatus_isWritten : s.hostReadStatus.isWritten j = s.isWritten j := rfl
@[simp] theorem hostReadStatus_hostMask : s.hostReadStatus.hostMask j = s.hostMask j := rfl

/-! ### hostReset -/
@[simp] theorem hostReset_status : s.hostReset.status = 0#32 := rfl
@[simp] theorem hostReset_written : s.hostReset.written = Vector.replicate 16 false := rfl
@[simp] theorem hostReset_wmask : s.hostReset.wmask = Vector.replicate 16 0#4 := rfl
@[simp] theorem hostReset_pending : s.hostReset.pending = s.pending := rfl
@[simp] theorem hostReset_replies : s.hostReset.replies = s.replies := rfl
@[simp] theorem hostReset_draws : s.hostReset.draws = s.draws + 1 := rfl
@[simp] theorem hostReset_reg : s.hostReset.reg j = Config.freeReg s.draws j := by
  simp [State.hostReset, State.reg]
@[simp] theorem hostReset_isWritten : s.hostReset.isWritten j = false := by
  simp [State.hostReset, State.isWritten]
@[simp] theorem hostReset_hostMask : s.hostReset.hostMask j = 0#4 := by
  simp [State.hostReset, State.hostMask]

/-! ### issueFirst -/
@[simp] theorem issueFirst_regs : (s.issueFirst c).regs = s.regs := rfl
@[simp] theorem issueFirst_status : (s.issueFirst c).status = s.status := rfl
@[simp] theorem issueFirst_written : (s.issueFirst c).written = s.written := rfl
@[simp] theorem issueFirst_wmask : (s.issueFirst c).wmask = s.wmask := rfl
@[simp] theorem issueFirst_pending : (s.issueFirst c).pending = .issue c :: s.pending := rfl
@[simp] theorem issueFirst_replies : (s.issueFirst c).replies = s.replies := rfl
@[simp] theorem issueFirst_draws : (s.issueFirst c).draws = s.draws := rfl

/-! ### Taking an operation off the host's list changes nothing else -/
@[simp] theorem withPending_reg (rest : List PortOp) : State.reg { s with pending := rest } j = s.reg j := rfl
@[simp] theorem withPending_isWritten (rest : List PortOp) :
    State.isWritten { s with pending := rest } j = s.isWritten j := rfl
@[simp] theorem withPending_hostMask (rest : List PortOp) :
    State.hostMask { s with pending := rest } j = s.hostMask j := rfl

end

/-- Two states with equal fields, registers compared one by one, are equal. -/
theorem state_ext {s t : State} (hr : ∀ i, s.reg i = t.reg i) (hs : s.status = t.status)
    (hw : ∀ i, s.isWritten i = t.isWritten i) (hm : ∀ i, s.hostMask i = t.hostMask i)
    (hp : s.pending = t.pending) (hq : s.replies = t.replies) (hd : s.draws = t.draws) : s = t := by
  cases s
  cases t
  simp only [State.mk.injEq]
  refine ⟨?_, hs, ?_, ?_, hp, hq, hd⟩
  · exact Vector.ext fun i hi => hr ⟨i, hi⟩
  · exact Vector.ext fun i hi => hw ⟨i, hi⟩
  · exact Vector.ext fun i hi => hm ⟨i, hi⟩

end Sys2Proof.Machine
end

