-- ==== Sys2Proof/Laws/Ops.lean ====
section
/-! SUPPORT. What the shared operations can do, said once: STATUS writes, completing a command with one or two results,
failing, issuing, and one step of the machine. -/

namespace Sys2Proof.Machine

/-! ### STATUS -/

theorem statusAfterSuccess_getLsbD (st : BitVec 32) (b : Nat) :
    (statusAfterSuccess st).getLsbD b = (decide (3 ≤ b) && st.getLsbD b) := by
  by_cases hb : b < 32
  · have h7 : (0x7#32).getLsbD b = decide (b < 3) := by
      have : ∀ c : Fin 32, (0x7#32).getLsbD c.val = decide (c.val < 3) := by decide
      exact this ⟨b, hb⟩
    simp only [statusAfterSuccess, withCode, BitVec.getLsbD_or, BitVec.getLsbD_and, BitVec.getLsbD_not, h7, hb,
      BitVec.getLsbD_setWidth, BitVec.getLsbD_zero]
    by_cases h3 : 3 ≤ b <;> simp [h3, Nat.not_lt.mpr, Nat.lt_of_not_le]
  · simp [BitVec.getLsbD_of_ge _ b (Nat.le_of_not_lt hb)]

theorem statusCode_eq (st : BitVec 32) (k : BitVec 3)
    (h : ∀ b, b < 3 → st.getLsbD b = k.getLsbD b) : statusCode st = k := by
  apply BitVec.eq_of_getLsbD_eq
  intro b hb
  simp [statusCode, hb, h b hb]

theorem withCode_or_getLsbD (st m : BitVec 32) (k : BitVec 3) (b : Nat) (hb : b < 32) :
    (withCode st k ||| m).getLsbD b =
      ((if b < 3 then k.getLsbD b else st.getLsbD b) || m.getLsbD b) := by
  have h7 : (0x7#32).getLsbD b = decide (b < 3) := by
    have : ∀ c : Fin 32, (0x7#32).getLsbD c.val = decide (c.val < 3) := by decide
    exact this ⟨b, hb⟩
  simp only [withCode, BitVec.getLsbD_or, BitVec.getLsbD_and, BitVec.getLsbD_not, h7, hb, BitVec.getLsbD_setWidth]
  by_cases h3 : b < 3
  · simp [h3]
  · simp [h3, BitVec.getLsbD_of_ge k b (Nat.le_of_not_lt h3)]

@[simp] theorem succeed_code (s : State) : s.succeed.code = 0#3 :=
  statusCode_eq _ _ fun b hb => by simp [statusAfterSuccess_getLsbD, Nat.not_le.mpr hb]

@[simp] theorem succeed_dz (s : State) : s.succeed.dz = s.dz := by
  simp only [State.dz, statusDZ, succeed_status, statusAfterSuccess_getLsbD, Nat.reduceLeDiff, decide_true, Bool.true_and]

@[simp] theorem succeed_ov (s : State) : s.succeed.ov = s.ov := by
  simp only [State.ov, statusOV, succeed_status, statusAfterSuccess_getLsbD, Nat.reduceLeDiff, decide_true, Bool.true_and]

@[simp] theorem succeed_il (s : State) : s.succeed.il = s.il := by
  simp only [State.il, statusIL, succeed_status, statusAfterSuccess_getLsbD, Nat.reduceLeDiff, decide_true, Bool.true_and]

theorem statusAfterError_getLsbD (e : ErrorKind) (st : BitVec 32) (b : Nat) (hb : b < 32) :
    (statusAfterError e st).getLsbD b =
      ((if b < 3 then e.code.getLsbD b else st.getLsbD b) || e.sticky.getLsbD b) :=
  withCode_or_getLsbD st e.sticky e.code b hb

theorem sticky_low (e : ErrorKind) (b : Nat) (hb : b < 3) : e.sticky.getLsbD b = false := by
  have : ∀ c : Fin 3, e.sticky.getLsbD c.val = false := by cases e <;> decide
  exact this ⟨b, hb⟩

/-! ### Completing and failing -/

/-- A command that ends in `State.raise` leaves exactly what R110 says. -/
theorem raise_raises (s : State) (e : ErrorKind) : Raises s (s.raise e) e := by
  refine ⟨fun _ => ⟨rfl, rfl⟩, ?_, ?_, ?_, ?_, ?_, fun _ => rfl, rfl, rfl, rfl⟩
  · refine statusCode_eq _ _ fun b hb => ?_
    simp [statusAfterError_getLsbD e s.status b (by omega), hb, sticky_low e b hb]
  · simp only [State.dz, statusDZ, raise_status, statusAfterError_getLsbD e s.status 4 (by decide)]
    cases e <;> simp [ErrorKind.sticky]
  · simp only [State.ov, statusOV, raise_status, statusAfterError_getLsbD e s.status 5 (by decide)]
    cases e <;> simp [ErrorKind.sticky]
  · simp only [State.il, statusIL, raise_status, statusAfterError_getLsbD e s.status 6 (by decide)]
    cases e <;> simp [ErrorKind.sticky]
  · intro b hb
    by_cases h32 : b < 32
    · have hs : e.sticky.getLsbD b = false := by
        have : ∀ c : Fin 32, c.val = 3 ∨ 7 ≤ c.val → e.sticky.getLsbD c.val = false := by cases e <;> decide
        exact this ⟨b, h32⟩ hb
      have h3 : ¬ b < 3 := by omega
      simp [statusAfterError_getLsbD e s.status b h32, h3, hs]
    · simp [BitVec.getLsbD_of_ge _ b (Nat.le_of_not_lt h32)]

/-- `fail` always answers a next state, with the error recorded and nothing else changed. -/
theorem fail_next (s : State) (e : ErrorKind) : s.fail e = .next (s.raise e) := rfl

/-- What `succeed` after no register write leaves. -/
theorem succeed_completes (s : State) : Completes s s.succeed [] := by
  refine ⟨by simp, fun r _ => ⟨rfl, rfl⟩, succeed_code s, fun b hb => ?_, fun _ => rfl, rfl, rfl, rfl⟩
  simp [statusAfterSuccess_getLsbD, hb]

/-- `complete` always answers a next state, with the one result written. -/
theorem complete_completes {n : Nat} (s : State) (d : Reg) (v : BitVec n) :
    ∃ t, s.complete d v = .next t ∧ Completes s t [(d, v.setWidth 256)] := by
  refine ⟨_, rfl, by simp, fun r hr => ?_, succeed_code _, fun b hb => ?_, fun _ => rfl, rfl, rfl, rfl⟩
  · have h : r ≠ d := by simpa using hr
    simp [h]
  · simp [statusAfterSuccess_getLsbD, hb]

/-- `completeTwo` on two different registers answers a next state, with both results written. -/
theorem completeTwo_completes {n : Nat} (s : State) (d1 d2 : Reg) (v1 v2 : BitVec n) (h : d1 ≠ d2) :
    ∃ t, s.completeTwo d1 v1 d2 v2 = .next t ∧ Completes s t [(d1, v1.setWidth 256), (d2, v2.setWidth 256)] := by
  refine ⟨_, rfl, by simp [h], fun r hr => ?_, succeed_code _, fun b hb => ?_, fun _ => rfl, rfl, rfl, rfl⟩
  · have hr' : ¬ r = d1 ∧ ¬ r = d2 := by simpa using hr
    simp [hr'.1, hr'.2]
  · simp [statusAfterSuccess_getLsbD, hb]

/-! ### Issuing and stepping -/

theorem hostIssue_illegal (s : State) (c : CommandWord) (why : Illegal) (h : decode c = .error why) :
    s.hostIssue c = .next (s.raise .illegalCommand) := by
  simp [State.hostIssue, h, State.fail]

theorem hostIssue_decoded (s : State) (c : CommandWord) (i : Instr) (h : decode c = .ok i) :
    s.hostIssue c = exec i s := by
  simp [State.hostIssue, h]

/-- A step with nothing pending: the run has ended (R123). -/
theorem step_ended (s : State) (h : s.pending = []) : step s = .next s := by
  simp [step, State.hostStep, h]

/-- A step performs the first pending operation, in the state without it. -/
theorem step_performs (s : State) (op : PortOp) (rest : List PortOp) (h : s.pending = op :: rest) :
    step s = State.perform { s with pending := rest } op := by
  simp [step, State.hostStep, h]

end Sys2Proof.Machine
end

