-- ==== Sys2Proof/Laws/Exec.lean ====
section
/-! SUPPORT. What one command can do to the state, said once for all commands. -/

namespace Sys2Proof.Machine

/-- The next states a command can answer: its results written, NOP's and CLRST's effects, or one of three errors. -/
inductive CommandEffect (i : Instr) (s : State) : State → Prop where
  | one (d : Reg) (v : RegWord) : destinations i = [d] → CommandEffect i s (s.setReg d v).succeed
  | two (d e : Reg) (v u : RegWord) : destinations i = [d, e] → d ≠ e →
      CommandEffect i s ((s.setReg d v).setReg e u).succeed
  | nothing : i = .nop → CommandEffect i s s.succeed
  | cleared : i = .clrst → CommandEffect i s s.clearStatus
  | divideByZero : mnemonicOf i = "DIVREM" → CommandEffect i s (s.raise .divideByZero)
  | overflow : mnemonicOf i = "DECACC" ∨ mnemonicOf i = "TRUNCC" → CommandEffect i s (s.raise .overflow)
  | illegal : i.legal = false → CommandEffect i s (s.raise .illegalCommand)

/-- Every command answers a next state, and it is one of the effects above. -/
theorem exec_effect (i : Instr) (s : State) : ∃ t, exec i s = .next t ∧ CommandEffect i s t := by
  cases i with
  | nop => exact ⟨_, rfl, .nothing rfl⟩
  | clrst => exact ⟨_, rfl, .cleared rfl⟩
  | reserved => exact ⟨_, rfl, .illegal rfl⟩
  | divremU w rd rd2 rs1 rs2 =>
    simp only [exec, execDivremU]
    split
    · rename_i h
      exact ⟨_, rfl, .illegal (by simp [Instr.legal, Instr.wellFormed, h])⟩
    · rename_i h
      split
      · exact ⟨_, rfl, .divideByZero rfl⟩
      · exact ⟨_, rfl, .two _ _ _ _ rfl h⟩
  | divremS w rd rd2 rs1 rs2 =>
    simp only [exec, execDivremS]
    split
    · rename_i h
      exact ⟨_, rfl, .illegal (by simp [Instr.legal, Instr.wellFormed, h])⟩
    · rename_i h
      split
      · exact ⟨_, rfl, .divideByZero rfl⟩
      · exact ⟨_, rfl, .two _ _ _ _ rfl h⟩
  | decacc w rd rs1 digit =>
    simp only [exec, execDecacc]
    split
    · rename_i h
      exact ⟨_, rfl, .illegal (by simpa [Instr.legal, Instr.wellFormed] using h)⟩
    · split
      · exact ⟨_, rfl, .one _ _ rfl⟩
      · exact ⟨_, rfl, .overflow (.inl rfl)⟩
  | truncc sg rd rs1 =>
    simp only [exec, execTruncc]
    split
    · exact ⟨_, rfl, .one _ _ rfl⟩
    · exact ⟨_, rfl, .overflow (.inr rfl)⟩
  | _ => exact ⟨_, rfl, .one _ _ rfl⟩

/-- The effect of a command that answers the next state t. -/
theorem effect_of_exec {i : Instr} {s t : State} (h : exec i s = .next t) : CommandEffect i s t := by
  obtain ⟨u, hu, he⟩ := exec_effect i s
  rw [h] at hu
  cases hu
  exact he

end Sys2Proof.Machine
end

