-- ==== Sys2Proof/Laws/HostArray.lean ====
section
/-! SUPPORT. What cutting a value into parts and joining them again gives (R9, R97), said once for words, limbs and
bytes. -/

namespace Sys2Proof

@[simp] theorem wordsOf_length (n : Nat) {m : Nat} (v : BitVec m) : (wordsOf n v).length = m / n := by
  simp [wordsOf]

/-- A part above all others counts with its weight. -/
theorem wordsValue_append_one {n : Nat} (ws : List (BitVec n)) (x : BitVec n) :
    wordsValue (ws ++ [x]) = wordsValue ws + 2 ^ (n * ws.length) * x.toNat := by
  induction ws with
  | nil => simp [wordsValue]
  | cons y ys ih =>
    simp only [wordsValue, List.cons_append, List.foldr_cons, List.length_cons] at ih ⊢
    rw [ih, Nat.mul_succ, Nat.pow_add]
    ring

/-- The k lowest parts of a value make its n·k low bits. -/
theorem wordsValue_parts (n : Nat) {m : Nat} (v : BitVec m) (k : Nat) :
    wordsValue ((List.range k).map fun j => v.extractLsb' (n * j) n) = v.toNat % 2 ^ (n * k) := by
  induction k with
  | zero => simp [wordsValue, Nat.mod_one]
  | succ k ih =>
    rw [List.range_succ, List.map_append, List.map_singleton, wordsValue_append_one, ih, Nat.mul_succ, Nat.pow_add,
      Nat.mod_mul]
    simp [BitVec.extractLsb'_toNat, Nat.shiftRight_eq_div_pow]

/-- The parts of a value make the value, when the part width divides its width. -/
theorem wordsValue_wordsOf {n m : Nat} (v : BitVec m) (h : n ∣ m) : wordsValue (wordsOf n v) = v.toNat := by
  rw [wordsOf, wordsValue_parts, Nat.mul_div_cancel' h, Nat.mod_eq_of_lt v.isLt]

namespace Machine

/-- Joining succeeds on a list of the right length only. -/
theorem ofParts_eq_ok {n : Nat} (w : Width) (parts : List (BitVec n)) (v : BitVec w.bits) :
    ofParts w parts = .ok v ↔ parts.length = w.bits / n ∧ v = BitVec.ofNat w.bits (wordsValue parts) := by
  unfold ofParts
  split <;> simp_all [eq_comm]

/-- Any other length is InvalidArgument. -/
theorem ofParts_eq_error {n : Nat} (w : Width) {parts : List (BitVec n)} (h : parts.length ≠ w.bits / n) :
    ofParts w parts = .error .invalidArgument := if_neg h

/-- Joining the parts of a value gives it back. -/
theorem ofParts_wordsOf {n : Nat} (w : Width) (h : n ∣ w.bits) (v : BitVec w.bits) :
    ofParts w (wordsOf n v) = .ok v := by
  rw [ofParts_eq_ok, wordsOf_length, wordsValue_wordsOf v h]
  exact ⟨rfl, by simp⟩

end Machine

end Sys2Proof
end

