-- ==== Sys2Proof/Laws/Numbers.lean ====
section
/-! SUPPORT. R10's readings against the bit vectors the meanings compute with: what a source is as a number, and which
register content a W-bit result leaves. -/

namespace Sys2Proof

theorem Width.bits_pos (w : Width) : 0 < w.bits := by cases w <;> decide

theorem Width.bits_le (w : Width) : w.bits ≤ 256 := by cases w <;> decide

theorem uval_lt (w : Width) (v : RegWord) : uval w v < 2 ^ w.bits := Nat.mod_lt _ (Nat.two_pow_pos _)

theorem enc_congr (w : Width) {a b : Int} (h : a % 2 ^ w.bits = b % 2 ^ w.bits) : enc w a = enc w b := by
  simp [enc, h]

theorem emod_bounds (w : Width) (n : Int) : 0 ≤ n % 2 ^ w.bits ∧ n % 2 ^ w.bits < 2 ^ 256 := by
  have hp : (0 : Int) < 2 ^ w.bits := by positivity
  have hle : (2 : Int) ^ w.bits ≤ 2 ^ 256 := pow_le_pow_right₀ (by norm_num) w.bits_le
  exact ⟨Int.emod_nonneg _ hp.ne', lt_of_lt_of_le (Int.emod_lt_of_pos _ hp) hle⟩

theorem enc_toNat (w : Width) (n : Int) : ((enc w n).toNat : Int) = n % 2 ^ w.bits := by
  obtain ⟨h0, h1⟩ := emod_bounds w n
  rw [enc, BitVec.toNat_ofInt, Int.toNat_of_nonneg (Int.emod_nonneg _ (by norm_num))]
  exact Int.emod_eq_of_lt h0 (by exact_mod_cast h1)

/-- The W low bits of what a W-bit result n leaves are n modulo 2^W. -/
theorem uval_enc (w : Width) (n : Int) : (uval w (enc w n) : Int) = n % 2 ^ w.bits := by
  have h := enc_toNat w n
  rw [uval, Int.natCast_mod, h]
  simp

theorem enc_natCast (w : Width) (n : Nat) : enc w n = BitVec.ofNat 256 (n % 2 ^ w.bits) := by
  apply BitVec.eq_of_toNat_eq
  have h := enc_toNat w (n : Int)
  have hlt : n % 2 ^ w.bits < 2 ^ 256 :=
    lt_of_lt_of_le (Nat.mod_lt _ (Nat.two_pow_pos _)) (Nat.pow_le_pow_right (by decide) w.bits_le)
  rw [BitVec.toNat_ofNat, Nat.mod_eq_of_lt hlt]
  exact_mod_cast h

/-- A W-bit vector, zero-extended to a register, is `enc` of its unsigned value. -/
theorem setWidth_eq_enc {w : Width} (v : BitVec w.bits) : v.setWidth 256 = enc w v.toNat := by
  apply BitVec.eq_of_toNat_eq
  rw [enc_natCast, Nat.mod_eq_of_lt v.isLt, BitVec.toNat_setWidth, BitVec.toNat_ofNat]

/-- A W-bit vector, zero-extended to a register, is `enc` of its signed value too. -/
theorem setWidth_eq_enc_toInt {w : Width} (v : BitVec w.bits) : v.setWidth 256 = enc w v.toInt := by
  rw [setWidth_eq_enc]
  apply enc_congr
  rw [BitVec.toInt_eq_toNat_bmod]
  exact_mod_cast (Int.bmod_emod (x := (v.toNat : Int)) (m := 2 ^ w.bits)).symm

/-- The signed value of the W low bits of a register, as a bit vector's. -/
theorem toInt_setWidth (w : Width) (v : RegWord) : (v.setWidth w.bits).toInt = sval w v := by
  rw [BitVec.toInt_eq_msb_cond, BitVec.toNat_setWidth, sval, uval]
  have hm : (v.setWidth w.bits).msb = topBit w v := by
    simp [BitVec.msb_eq_getLsbD_last, topBit, w.bits_pos]
  rw [hm]
  split <;> push_cast <;> simp

theorem toNat_setWidth_eq_uval (w : Width) (v : RegWord) : (v.setWidth w.bits).toNat = uval w v :=
  BitVec.toNat_setWidth ..

/-- The signed value of what a W-bit result n leaves is n wrapped into [MinS(W), MaxS(W)]. -/
theorem sval_enc (w : Width) (n : Int) : sval w (enc w n) = n.bmod (2 ^ w.bits) := by
  rw [← toInt_setWidth, BitVec.toInt_eq_toNat_bmod, toNat_setWidth_eq_uval, uval_enc]
  exact_mod_cast Int.emod_bmod (x := n) (n := 2 ^ w.bits)

/-- A W-bit pattern is its W-bit reading, zero-extended. -/
theorem enc_uval (w : Width) (v : RegWord) : enc w (uval w v) = (v.setWidth w.bits).setWidth 256 := by
  rw [setWidth_eq_enc, toNat_setWidth_eq_uval]

/-! ### Words of a register (R9, R22) -/

theorem getWord_getLsbD (v : RegWord) (k : WordIndex) (b : Nat) :
    (getWord v k).getLsbD b = (decide (b < 64) && v.getLsbD (64 * k.val + b)) := by
  simp [getWord, BitVec.getLsbD_extractLsb']

/-- The bits of a register after one of its words is replaced. -/
theorem setWord_getLsbD (v : RegWord) (k : WordIndex) (x : PortWord) (b : Nat) :
    (setWord v k x).getLsbD b =
      if 64 * k.val ≤ b ∧ b < 64 * k.val + 64 then x.getLsbD (b - 64 * k.val) else v.getLsbD b := by
  have hk := k.isLt
  by_cases hb : b < 256
  · have hm : ((BitVec.allOnes 64).setWidth 256 <<< (64 * k.val)).getLsbD b =
        decide (64 * k.val ≤ b ∧ b < 64 * k.val + 64) := by
      rw [BitVec.getLsbD_shiftLeft, BitVec.getLsbD_setWidth, BitVec.getLsbD_allOnes]
      rw [Bool.eq_iff_iff]
      simp only [Bool.and_eq_true, decide_eq_true_eq, Bool.not_eq_true', decide_eq_false_iff_not]
      omega
    rw [setWord, BitVec.getLsbD_or, BitVec.getLsbD_and, BitVec.getLsbD_not, hm, BitVec.getLsbD_shiftLeft,
      BitVec.getLsbD_setWidth]
    by_cases h : 64 * k.val ≤ b ∧ b < 64 * k.val + 64
    · have h1 : ¬ b < 64 * k.val := by omega
      have h2 : b - 64 * k.val < 256 := by omega
      simp [h, hb, h1, h2]
    · by_cases h1 : b < 64 * k.val
      · simp [h, hb, h1]
      · have hx : x.getLsbD (b - 64 * k.val) = false := BitVec.getLsbD_of_ge x _ (by omega)
        simp [h, hb, hx]
  · have h : ¬ (64 * k.val ≤ b ∧ b < 64 * k.val + 64) := by omega
    simp [h, BitVec.getLsbD_of_ge _ b (Nat.le_of_not_lt hb)]

theorem getWord_setWord (v : RegWord) (k j : WordIndex) (x : PortWord) :
    getWord (setWord v k x) j = if j = k then x else getWord v j := by
  apply BitVec.eq_of_getLsbD_eq
  intro b hb
  have hk := k.isLt
  have hj := j.isLt
  rw [getWord_getLsbD, setWord_getLsbD]
  by_cases h : j = k
  · subst h
    have h1 : 64 * j.val ≤ 64 * j.val + b ∧ 64 * j.val + b < 64 * j.val + 64 := by omega
    simp only [hb, h1, decide_true, Bool.true_and, and_self, if_true, Nat.add_sub_cancel_left]
  · have hv : j.val ≠ k.val := fun e => h (Fin.ext e)
    have h1 : ¬ (64 * k.val ≤ 64 * j.val + b ∧ 64 * j.val + b < 64 * k.val + 64) := by omega
    rw [if_neg h1, if_neg h, getWord_getLsbD]

/-- A register is its four words. -/
theorem reg_eq_of_words {a b : RegWord} (h : ∀ k, getWord a k = getWord b k) : a = b := by
  apply BitVec.eq_of_getLsbD_eq
  intro n hn
  have hw := congrArg (fun x => x.getLsbD (n % 64)) (h ⟨n / 64, by omega⟩)
  have e : 64 * (n / 64) + n % 64 = n := by omega
  have l : n % 64 < 64 := by omega
  simpa only [getWord_getLsbD, e, l, decide_true, Bool.true_and] using hw

namespace Machine

/-- A source at width W, read unsigned (R15). -/
theorem source_toNat (s : State) (w : Width) (i : Reg) : (s.source w i).toNat = uval w (s.reg i) :=
  toNat_setWidth_eq_uval w (s.reg i)

/-- A source at width W, read signed (R15). -/
theorem source_toInt (s : State) (w : Width) (i : Reg) : (s.source w i).toInt = sval w (s.reg i) :=
  toInt_setWidth w (s.reg i)

end Machine

end Sys2Proof
end

