-- ==== Sys2Proof/Laws/PerInstr.lean ====
section
/-! SUPPORT. The family Opcode: the six low bits of every command's word are the opcode that R46 gives it. -/

namespace Sys2Proof

/-- The six low bits of a word whose last part is six bits wide. -/
theorem opField_append (b : BitVec 26) (op : BitVec 6) : opField (b ++ op : BitVec 32) = op := by
  apply BitVec.eq_of_getLsbD_eq
  intro k hk
  have h : (b ++ op).getLsbD k = op.getLsbD k := by simp only [BitVec.getLsbD_append, hk, if_true]
  simpa [opField, hk] using h

theorem opField_formatR (op : BitVec 6) (w : Width) (sg : Signedness) (rd rs1 rs2 rd2 : Reg) :
    opField (formatR op w sg rd rs1 rs2 rd2) = op := opField_append _ op

theorem opField_formatI (op : BitVec 6) (w : Width) (sg : Signedness) (rd rs1 : Reg) (imm : BitVec 16) :
    opField (formatI op w sg rd rs1 imm) = op := opField_append _ op

/-- The OP column of R46; for the reserved range, the opcode itself (R47). -/
def opcodeOf : Instr → BitVec 6
  | .nop => 0x00
  | .add .. => 0x01
  | .sub .. => 0x02
  | .mul .. => 0x03
  | .divremU .. => 0x04
  | .divremS .. => 0x04
  | .cmpU .. => 0x05
  | .cmpS .. => 0x05
  | .shl .. => 0x06
  | .shr .. => 0x07
  | .shli .. => 0x08
  | .shri .. => 0x09
  | .and .. => 0x0A
  | .or .. => 0x0B
  | .xor .. => 0x0C
  | .not .. => 0x0D
  | .decacc .. => 0x0E
  | .ldi .. => 0x0F
  | .ext .. => 0x10
  | .trunc .. => 0x11
  | .truncc .. => 0x12
  | .neg .. => 0x13
  | .abs .. => 0x14
  | .sign .. => 0x15
  | .clrst => 0x16
  | .reserved op _ => op

namespace Laws.Opcode

/-- The word of the command carries its opcode, and a reserved command one above 0x16 when it is well formed. -/
def Statement (i : Instr) : Prop :=
  opField (encode i) = opcodeOf i ∧ (i.wellFormed = true → (i.legal = false ↔ 0x17 ≤ (opcodeOf i).toNat))

theorem nop : Statement .nop :=
  ⟨rfl, by simp [Instr.legal, Instr.wellFormed, opcodeOf]⟩

theorem add (w : Width) (sg : Signedness) (rd : Reg) (rs1 : Reg) (rs2 : Reg) : Statement (.add w sg rd rs1 rs2) :=
  ⟨opField_formatR .., fun h => by simp [Instr.legal, h, opcodeOf]⟩

theorem sub (w : Width) (sg : Signedness) (rd : Reg) (rs1 : Reg) (rs2 : Reg) : Statement (.sub w sg rd rs1 rs2) :=
  ⟨opField_formatR .., fun h => by simp [Instr.legal, h, opcodeOf]⟩

theorem mul (w : Width) (sg : Signedness) (rd : Reg) (rs1 : Reg) (rs2 : Reg) : Statement (.mul w sg rd rs1 rs2) :=
  ⟨opField_formatR .., fun h => by simp [Instr.legal, h, opcodeOf]⟩

theorem divremU (w : Width) (rd : Reg) (rd2 : Reg) (rs1 : Reg) (rs2 : Reg) : Statement (.divremU w rd rd2 rs1 rs2) :=
  ⟨opField_formatR .., fun h => by simp [Instr.legal, h, opcodeOf]⟩

theorem divremS (w : Width) (rd : Reg) (rd2 : Reg) (rs1 : Reg) (rs2 : Reg) : Statement (.divremS w rd rd2 rs1 rs2) :=
  ⟨opField_formatR .., fun h => by simp [Instr.legal, h, opcodeOf]⟩

theorem cmpU (w : Width) (rd : Reg) (rs1 : Reg) (rs2 : Reg) : Statement (.cmpU w rd rs1 rs2) :=
  ⟨opField_formatR .., fun h => by simp [Instr.legal, h, opcodeOf]⟩

theorem cmpS (w : Width) (rd : Reg) (rs1 : Reg) (rs2 : Reg) : Statement (.cmpS w rd rs1 rs2) :=
  ⟨opField_formatR .., fun h => by simp [Instr.legal, h, opcodeOf]⟩

theorem shl (w : Width) (sg : Signedness) (rd : Reg) (rs1 : Reg) (rs2 : Reg) : Statement (.shl w sg rd rs1 rs2) :=
  ⟨opField_formatR .., fun h => by simp [Instr.legal, h, opcodeOf]⟩

theorem shr (w : Width) (rd : Reg) (rs1 : Reg) (rs2 : Reg) : Statement (.shr w rd rs1 rs2) :=
  ⟨opField_formatR .., fun h => by simp [Instr.legal, h, opcodeOf]⟩

theorem shli (w : Width) (sg : Signedness) (rd : Reg) (rs1 : Reg) (imm : BitVec 16) : Statement (.shli w sg rd rs1 imm) :=
  ⟨opField_formatI .., fun h => by simp [Instr.legal, h, opcodeOf]⟩

theorem shri (w : Width) (rd : Reg) (rs1 : Reg) (imm : BitVec 16) : Statement (.shri w rd rs1 imm) :=
  ⟨opField_formatI .., fun h => by simp [Instr.legal, h, opcodeOf]⟩

theorem and (w : Width) (sg : Signedness) (rd : Reg) (rs1 : Reg) (rs2 : Reg) : Statement (.and w sg rd rs1 rs2) :=
  ⟨opField_formatR .., fun h => by simp [Instr.legal, h, opcodeOf]⟩

theorem or (w : Width) (sg : Signedness) (rd : Reg) (rs1 : Reg) (rs2 : Reg) : Statement (.or w sg rd rs1 rs2) :=
  ⟨opField_formatR .., fun h => by simp [Instr.legal, h, opcodeOf]⟩

theorem xor (w : Width) (sg : Signedness) (rd : Reg) (rs1 : Reg) (rs2 : Reg) : Statement (.xor w sg rd rs1 rs2) :=
  ⟨opField_formatR .., fun h => by simp [Instr.legal, h, opcodeOf]⟩

theorem not (w : Width) (sg : Signedness) (rd : Reg) (rs1 : Reg) : Statement (.not w sg rd rs1) :=
  ⟨opField_formatR .., fun h => by simp [Instr.legal, h, opcodeOf]⟩

theorem decacc (w : Width) (rd : Reg) (rs1 : Reg) (digit : BitVec 4) : Statement (.decacc w rd rs1 digit) :=
  ⟨opField_formatI .., fun h => by simp [Instr.legal, h, opcodeOf]⟩

theorem ldi (w : Width) (sg : Signedness) (rd : Reg) (imm : BitVec 16) : Statement (.ldi w sg rd imm) :=
  ⟨opField_formatI .., fun h => by simp [Instr.legal, h, opcodeOf]⟩

theorem ext (sg : Signedness) (rd : Reg) (rs1 : Reg) : Statement (.ext sg rd rs1) :=
  ⟨opField_formatR .., fun h => by simp [Instr.legal, h, opcodeOf]⟩

theorem trunc (rd : Reg) (rs1 : Reg) : Statement (.trunc rd rs1) :=
  ⟨opField_formatR .., fun h => by simp [Instr.legal, h, opcodeOf]⟩

theorem truncc (sg : Signedness) (rd : Reg) (rs1 : Reg) : Statement (.truncc sg rd rs1) :=
  ⟨opField_formatR .., fun h => by simp [Instr.legal, h, opcodeOf]⟩

theorem neg (w : Width) (sg : Signedness) (rd : Reg) (rs1 : Reg) : Statement (.neg w sg rd rs1) :=
  ⟨opField_formatR .., fun h => by simp [Instr.legal, h, opcodeOf]⟩

theorem abs (w : Width) (rd : Reg) (rs1 : Reg) : Statement (.abs w rd rs1) :=
  ⟨opField_formatR .., fun h => by simp [Instr.legal, h, opcodeOf]⟩

theorem sign (w : Width) (sg : Signedness) (rd : Reg) (rs1 : Reg) : Statement (.sign w sg rd rs1) :=
  ⟨opField_formatR .., fun h => by simp [Instr.legal, h, opcodeOf]⟩

theorem clrst : Statement .clrst :=
  ⟨rfl, by simp [Instr.legal, Instr.wellFormed, opcodeOf]⟩

theorem reserved (op : BitVec 6) (rest : BitVec 26) : Statement (.reserved op rest) :=
  ⟨opField_append .., fun h => by simpa [Instr.legal, Instr.wellFormed, opcodeOf] using h⟩

end Laws.Opcode

end Sys2Proof
end

