-- ==== Sys2Proof/Tests/Slice0.lean ====
section
/-! SUPPORT. Tests of the model, and for every statement with hypotheses a state and operands that meet them. Expected
results are the spec's own (spec/95_test_vectors.md), or written out by hand from the rule named. -/

namespace Sys2Proof.Tests

open Sys2Proof Sys2Proof.Machine

/-! ## Well-formedness: each check refuses an ill-formed term (R46) -/

theorem test_divremU_one_destination : (Instr.divremU .w128 3 3 1 2).wellFormed = false := by decide
theorem test_divremS_one_destination : (Instr.divremS .w256 0 0 1 2).wellFormed = false := by decide
theorem test_decacc_digit_ten : (Instr.decacc .w128 3 1 10).wellFormed = false := by decide
theorem test_reserved_defined_opcode : (Instr.reserved 0x16 0).wellFormed = false := by decide

/-! ## Decoding: words written out from the formats of R41 to R43 and the map of R46 -/

theorem test_decode_adder_and_multiplier :
    decode 0b00000000000000100001001101000001#32 = .ok (.add .w256 .unsigned 3 1 2) ∧
    decode 0b00000000000011110000111010000010#32 = .ok (.sub .w128 .signed 14 0 15) ∧
    decode 0b00000000000000100001001111000011#32 = .ok (.mul .w256 .signed 3 1 2) := by decide

theorem test_decode_divider_and_comparator :
    decode 0b00000000010000100001001101000100#32 = .ok (.divremU .w256 3 4 1 2) ∧
    decode 0b00000000010000100001001110000100#32 = .ok (.divremS .w128 3 4 1 2) ∧
    decode 0b00000000000000100001001100000101#32 = .ok (.cmpU .w128 3 1 2) ∧
    decode 0b00000000000000100001001111000101#32 = .ok (.cmpS .w256 3 1 2) := by decide

theorem test_decode_shifter :
    decode 0b00000000000000100001001101000110#32 = .ok (.shl .w256 .unsigned 3 1 2) ∧
    decode 0b00000000000000100001001100000111#32 = .ok (.shr .w128 3 1 2) ∧
    decode 0b00000001000000000001001101001000#32 = .ok (.shli .w256 .unsigned 3 1 256) ∧
    decode 0b10000000000000010001001100001001#32 = .ok (.shri .w128 3 1 0x8001) := by decide

theorem test_decode_logic :
    decode 0b00000000000000100001001101001010#32 = .ok (.and .w256 .unsigned 3 1 2) ∧
    decode 0b00000000000000100001001111001011#32 = .ok (.or .w256 .signed 3 1 2) ∧
    decode 0b00000000000000100001001100001100#32 = .ok (.xor .w128 .unsigned 3 1 2) ∧
    decode 0b00000000000000000001001110001101#32 = .ok (.not .w128 .signed 3 1) := by decide

theorem test_decode_decimal_and_loads :
    decode 0b00000000000010010001001100001110#32 = .ok (.decacc .w128 3 1 9) ∧
    decode 0b10000000000000000000000101001111#32 = .ok (.ldi .w256 .unsigned 1 0x8000) ∧
    decode 0b00000000000000000001001111010000#32 = .ok (.ext .signed 3 1) ∧
    decode 0b00000000000000000001001100010001#32 = .ok (.trunc 3 1) ∧
    decode 0b00000000000000000001001110010010#32 = .ok (.truncc .signed 3 1) := by decide

theorem test_decode_sign_and_system :
    decode 0b00000000000000001111111100010011#32 = .ok (.neg .w128 .unsigned 15 15) ∧
    decode 0b00000000000000000001001111010100#32 = .ok (.abs .w256 3 1) ∧
    decode 0b00000000000000000001001110010101#32 = .ok (.sign .w128 .signed 3 1) ∧
    decode 0b00000000000000000000000000000000#32 = .ok .nop ∧
    decode 0b00000000000000000000000000010110#32 = .ok .clrst ∧
    decode 0b00000000000000000001001111010111#32 = .ok (.reserved 0x17 0x4F) := by decide

/-- spec/95_test_vectors.md 3: one illegal word for each reason of rejection. -/
theorem test_decode_rejects :
    decode 0x00000040#32 = .error .fixedWord ∧ decode 0x00010016#32 = .error .fixedWord ∧
    decode 0x01021341#32 = .error .zField ∧ decode 0x00121341#32 = .error .rd2Field ∧
    decode 0x0001130D#32 = .error .rs2Field ∧ decode 0x000A114F#32 = .error .rs1Field ∧
    decode 0x00001310#32 = .error .widthBit ∧ decode 0x000213C7#32 = .error .signBit ∧
    decode 0x00321344#32 = .error .sameDestination ∧ decode 0x0010130E#32 = .error .digit := by decide

/-- The host's numbering: a table word is the 32-bit word itself. -/
theorem test_table_word : decodeTableWord 32 0x0007130E = some (.decacc .w128 3 1 7) := by decide

/-! ## One step for each command -/

/-- A state with the STATUS and the register contents given. -/
def machine (status : BitVec 32) (contents : List (Reg × RegWord)) : State :=
  { contents.foldl (fun s p => s.setReg p.1 p.2) State.reset with status := status }

/-- Issuing the word in that state is one step that leaves the results and the STATUS given and no other register
changed. -/
def runs (status : BitVec 32) (word : CommandWord) (contents results : List (Reg × RegWord)) (after : BitVec 32) :
    Bool :=
  let s := machine status contents
  match step (s.withFetchWord 32 word.toNat) with
  | .next t => decide (t = { results.foldl (fun s p => s.setReg p.1 p.2) s with status := after })
  | _ => false

/-- MaxU(256). -/
def ones256 : RegWord := BitVec.allOnes 256

/-- MaxU(128) as a register holds it. -/
def ones128 : RegWord := 0xFFFFFFFFFFFFFFFFFFFFFFFFFFFFFFFF#256

/-- spec/95_test_vectors.md 2.1: `ADD.U128 r3, r1, r2`. -/
theorem test_add_ignores_high_half :
    runs 0x00 0x00021301 [(1, ones256), (2, 1)] [(3, 0)] 0x00 = true := by decide

/-- spec/95_test_vectors.md 2.1: `ADD.U256 r1, r1, r1`. -/
theorem test_add_aliased :
    runs 0x00 0x00011141 [(1, 0x8000000000000000000000000000000000000000000000000000000000000000)]
      [(1, 0)] 0x00 = true := by decide

/-- spec/95_test_vectors.md 2.1: `SUB.U128 r3, r1, r2`. -/
theorem test_sub_borrows_at_128 :
    runs 0x00 0x00021302 [(1, 0), (2, 1)] [(3, ones128)] 0x00 = true := by decide

/-- spec/95_test_vectors.md 2.1: `SUB.S128 r4, r1, r2`. -/
theorem test_sub_wraps_least_value :
    runs 0x00 0x00021482 [(1, 0x80000000000000000000000000000000), (2, 1)]
      [(4, 0x7FFFFFFFFFFFFFFFFFFFFFFFFFFFFFFF)] 0x00 = true := by decide

/-- spec/95_test_vectors.md 2.2: `MUL.U128 r3, r1, r2`. -/
theorem test_mul_ignores_high_half :
    runs 0x00 0x00021303 [(1, 0x100000000000000000000000000000007), (2, 6)]
      [(3, 0x2A)] 0x00 = true := by decide

/-- spec/95_test_vectors.md 2.2: `MUL.S128 r3, r1, r2`. -/
theorem test_mul_signed_reading :
    runs 0x00 0x00021383 [(1, 0xFFFFFFFFFFFFFFFFFFFFFFFFFFFFFFFD), (2, 5)]
      [(3, 0xFFFFFFFFFFFFFFFFFFFFFFFFFFFFFFF1)] 0x00 = true := by decide

/-- spec/95_test_vectors.md 2.3: `DIVREM.U256 r3, r4, r1, r2`. -/
theorem test_divremU_general_path :
    runs 0x00 0x00421344 [(1, 0x1000000000000000000000000000000000000000000000001), (2, 0x10000000000000003)]
      [(3, 0xFFFFFFFFFFFFFFFD0000000000000008), (4, 0xFFFFFFFFFFFFFFE9)] 0x00 = true := by decide

/-- spec/95_test_vectors.md 2.3: `DIVREM.U128 r3, r4, r1, r2`. -/
theorem test_divremU_zero_at_128 :
    runs 0x00 0x00421304 [(1, 0x4D2), (2, 0x100000000000000000000000000000000)] [] 0x11 = true := by decide

/-- spec/95_test_vectors.md 2.3: `DIVREM.S128 r3, r4, r1, r2`. -/
theorem test_divremS_truncates :
    runs 0x00 0x00421384 [(1, 0xFFFFFFFFFFFFFFFFFFFFFFFFFFFFFFF9), (2, 2)]
      [(3, 0xFFFFFFFFFFFFFFFFFFFFFFFFFFFFFFFD), (4, ones128)] 0x00 = true := by decide

/-- spec/95_test_vectors.md 2.3: `DIVREM.S128 r3, r4, r1, r2`. -/
theorem test_divremS_least_by_minus_one :
    runs 0x00 0x00421384 [(1, 0x80000000000000000000000000000000), (2, ones128)]
      [(3, 0x80000000000000000000000000000000), (4, 0)] 0x00 = true := by decide

/-- spec/95_test_vectors.md 2.4: `CMP.U128 r3, r1, r2`. -/
theorem test_cmpU_less_at_128 :
    runs 0x00 0x00021305 [(1, 1), (2, ones256)] [(3, ones128)] 0x00 = true := by decide

/-- spec/95_test_vectors.md 2.4: `CMP.U256 r3, r1, r2`. -/
theorem test_cmpU_top_word_decides :
    runs 0x00 0x00021345 [(1, 0x1000000000000000000000000000000000000000000000000),
      (2, 0xFFFFFFFFFFFFFFFFFFFFFFFFFFFFFFFFFFFFFFFFFFFFFFFF)]
      [(3, 1)] 0x00 = true := by decide

/-- spec/95_test_vectors.md 2.4: `CMP.S128 r3, r1, r2`. -/
theorem test_cmpS_greatest_above_least :
    runs 0x00 0x00021385 [(1, 0x7FFFFFFFFFFFFFFFFFFFFFFFFFFFFFFF), (2, 0x80000000000000000000000000000000)]
      [(3, 1)] 0x00 = true := by decide

/-- spec/95_test_vectors.md 2.4: `CMP.S256 r3, r1, r2`. -/
theorem test_cmpS_negative_below_zero :
    runs 0x00 0x000213C5 [(1, ones256), (2, 0)] [(3, ones256)] 0x00 = true := by decide

/-- spec/95_test_vectors.md 2.5: `SHL.U256 r3, r1, r2`. -/
theorem test_shl_huge_amount :
    runs 0x00 0x00021346 [(1, ones256), (2, 0x100000000000000000000000000000000000000000000000000)]
      [(3, 0)] 0x00 = true := by decide

/-- spec/95_test_vectors.md 2.5: `SHL.U256 r3, r1, r2`. -/
theorem test_shl_by_255 :
    runs 0x00 0x00021346 [(1, ones256), (2, 0xFF)]
      [(3, 0x8000000000000000000000000000000000000000000000000000000000000000)] 0x00 = true := by decide

/-- spec/95_test_vectors.md 2.5: `SHR.U128 r3, r1, r2`. -/
theorem test_shr_amount_read_at_128 :
    runs 0x00 0x00021307 [(1, ones256), (2, 0x100000000000000000000000000000001)]
      [(3, 0x7FFFFFFFFFFFFFFFFFFFFFFFFFFFFFFF)] 0x00 = true := by decide

/-- spec/95_test_vectors.md 2.5: `SHR.U256 r3, r1, r2`. -/
theorem test_shr_fills_zeros :
    runs 0x00 0x00021347 [(1, ones256), (2, 1)]
      [(3, 0x7FFFFFFFFFFFFFFFFFFFFFFFFFFFFFFFFFFFFFFFFFFFFFFFFFFFFFFFFFFFFFFF)] 0x00 = true := by decide

/-- spec/95_test_vectors.md 2.5: `SHLI.U256 r3, r1, #70`. -/
theorem test_shli_across_words :
    runs 0x00 0x00461348 [(1, 0xFF00000000000000)]
      [(3, 0x3FC0000000000000000000000000000000)] 0x00 = true := by decide

/-- spec/95_test_vectors.md 2.5: `SHLI.U256 r3, r1, #255`. -/
theorem test_shli_by_255 :
    runs 0x00 0x00FF1348 [(1, 1)]
      [(3, 0x8000000000000000000000000000000000000000000000000000000000000000)] 0x00 = true := by decide

/-- spec/95_test_vectors.md 2.5: `SHRI.U256 r3, r1, #65535`. -/
theorem test_shri_largest_immediate :
    runs 0x00 0xFFFF1349 [(1, ones256)] [(3, 0)] 0x00 = true := by decide

/-- spec/95_test_vectors.md 2.5: `SHRI.U128 r3, r1, #64`. -/
theorem test_shri_word_move :
    runs 0x00 0x00401309 [(1, 0x10000000000000000)] [(3, 1)] 0x00 = true := by decide

/-- spec/95_test_vectors.md 2.6: `AND.U128 r3, r1, r2`. -/
theorem test_and_clears_high_half :
    runs 0x00 0x0002130A [(1, ones256), (2, ones256)] [(3, ones128)] 0x00 = true := by decide

/-- spec/95_test_vectors.md 2.6: `OR.S256 r3, r1, r2`. -/
theorem test_or_ignores_S :
    runs 0x00 0x000213CB [(1, 0x8000000000000000000000000000000000000000000000000000000000000000), (2, 1)]
      [(3, 0x8000000000000000000000000000000000000000000000000000000000000001)] 0x00 = true := by decide

/-- spec/95_test_vectors.md 2.6: `XOR.U256 r3, r1, r2`. -/
theorem test_xor_bits :
    runs 0x00 0x0002134C [(1, 0xF0), (2, 0x3C)] [(3, 0xCC)] 0x00 = true := by decide

/-- spec/95_test_vectors.md 2.6: `NOT.U128 r3, r1`. -/
theorem test_not_at_128 :
    runs 0x00 0x0000130D [(1, 0)] [(3, ones128)] 0x00 = true := by decide

/-- spec/95_test_vectors.md 2.7: `DECACC.U256 r3, r1, #5`. -/
theorem test_decacc_reaches_the_maximum :
    runs 0x00 0x0005134E [(1, 0x1999999999999999999999999999999999999999999999999999999999999999)]
      [(3, ones256)] 0x00 = true := by decide

/-- spec/95_test_vectors.md 2.7: `DECACC.U256 r3, r1, #6`. -/
theorem test_decacc_overflows :
    runs 0x00 0x0006134E [(1, 0x1999999999999999999999999999999999999999999999999999999999999999)]
      [] 0x22 = true := by decide

/-- spec/95_test_vectors.md 2.8: `LDI.S128 r1, #-1`. -/
theorem test_ldi_sign_extends_to_128 :
    runs 0x00 0xFFFF018F [] [(1, ones128)] 0x00 = true := by decide

/-- spec/95_test_vectors.md 2.8: `LDI.U128 r1, #65535`. -/
theorem test_ldi_zero_extends :
    runs 0x00 0xFFFF010F [] [(1, 0xFFFF)] 0x00 = true := by decide

/-- spec/95_test_vectors.md 2.8: `EXT.S256 r3, r1`. -/
theorem test_ext_sign :
    runs 0x00 0x000013D0 [(1, 0xFFFFFFFFFFFFFFFFFFFFFFFFFFFFFFFB)]
      [(3, 0xFFFFFFFFFFFFFFFFFFFFFFFFFFFFFFFFFFFFFFFFFFFFFFFFFFFFFFFFFFFFFFFB)] 0x00 = true := by decide

/-- spec/95_test_vectors.md 2.8: `EXT.U256 r3, r1`. -/
theorem test_ext_zero :
    runs 0x00 0x00001350 [(1, ones256)] [(3, ones128)] 0x00 = true := by decide

/-- spec/95_test_vectors.md 2.8: `TRUNC.U128 r3, r1`. -/
theorem test_trunc_unchecked :
    runs 0x00 0x00001311 [(1, ones256)] [(3, ones128)] 0x00 = true := by decide

/-- spec/95_test_vectors.md 2.8: `TRUNCC.S128 r3, r1`. -/
theorem test_truncc_least_value_fits :
    runs 0x00 0x00001392 [(1, 0xFFFFFFFFFFFFFFFFFFFFFFFFFFFFFFFF80000000000000000000000000000000)]
      [(3, 0x80000000000000000000000000000000)] 0x00 = true := by decide

/-- spec/95_test_vectors.md 2.8: `TRUNCC.S128 r3, r1`. -/
theorem test_truncc_overflows :
    runs 0x00 0x00001392 [(1, 0x80000000000000000000000000000000)] [] 0x22 = true := by decide

/-- spec/95_test_vectors.md 2.9: `NEG.U128 r3, r1`. -/
theorem test_neg_ignores_high_half :
    runs 0x00 0x00001313 [(1, 0x500000000000000000000000000000005)]
      [(3, 0xFFFFFFFFFFFFFFFFFFFFFFFFFFFFFFFB)] 0x00 = true := by decide

/-- spec/95_test_vectors.md 2.9: `NEG.S256 r3, r1`. -/
theorem test_neg_least_value :
    runs 0x00 0x000013D3 [(1, 0x8000000000000000000000000000000000000000000000000000000000000000)]
      [(3, 0x8000000000000000000000000000000000000000000000000000000000000000)] 0x00 = true := by decide

/-- spec/95_test_vectors.md 2.9: `ABS.S128 r3, r1`. -/
theorem test_abs_negative :
    runs 0x00 0x00001394 [(1, 0xFFFFFFFFFFFFFFFFFFFFFFFFFFFFFFFB)] [(3, 5)] 0x00 = true := by decide

/-- spec/95_test_vectors.md 2.9: `ABS.S256 r3, r1`. -/
theorem test_abs_least_value :
    runs 0x00 0x000013D4 [(1, 0x8000000000000000000000000000000000000000000000000000000000000000)]
      [(3, 0x8000000000000000000000000000000000000000000000000000000000000000)] 0x00 = true := by decide

/-- spec/95_test_vectors.md 2.9: `SIGN.U128 r3, r1`. -/
theorem test_sign_unsigned :
    runs 0x00 0x00001315 [(1, 0x80000000000000000000000000000000)] [(3, 1)] 0x00 = true := by decide

/-- spec/95_test_vectors.md 2.9: `SIGN.S128 r3, r1`. -/
theorem test_sign_signed :
    runs 0x00 0x00001395 [(1, 0x80000000000000000000000000000000)] [(3, ones128)] 0x00 = true := by decide

/-- spec/95_test_vectors.md 2.10: `NOP`. -/
theorem test_nop_keeps_sticky_bits :
    runs 0x11 0x00000000 [] [] 0x10 = true := by decide

/-- spec/95_test_vectors.md 2.10: `CLRST`. -/
theorem test_clrst_clears :
    runs 0x75 0x00000016 [] [] 0x00 = true := by decide

/-- spec/95_test_vectors.md 3: a word of the reserved range. -/
theorem test_reserved_opcode : runs 0x00 0x000013D7 [] [] 0x45 = true := by decide

/-- spec/95_test_vectors.md 3: a word with S = 1 where R46 wants S = 0. -/
theorem test_illegal_word : runs 0x00 0x000213C7 [(1, ones256), (2, 1)] [] 0x45 = true := by decide

/-! ## The host port (R22, R26, R116), by hand from the rules -/

/-- The four words of a register; word 0 is bits 63:0 (R9). -/
theorem test_load_register :
    (match Host.Core.run Sys2Proof.core 4
        { State.reset with pending := loadRegister 5 0x4000000000000000300000000000000020000000000000001 } with
      | .next t => t.reg 5 == 0x4000000000000000300000000000000020000000000000001 && t.isWritten 5
      | _ => false) = true := by decide

/-- Three words leave the register unwritten. -/
theorem test_three_words_are_not_enough :
    (match Host.Core.run Sys2Proof.core 3 { State.reset with pending := loadRegister 5 ones256 } with
      | .next t => t.isWritten 5
      | _ => true) = false := by decide

/-- HostReadWord(1, 2) returns bits 191:128. -/
theorem test_read_word :
    (match step { machine 0 [(1, 0xAAAA00000000000000000000000000000000#256)] with pending := [.readWord 1 2] } with
      | .next t => t.replies
      | _ => []) = [.word 0xAAAA] := by decide

/-- The reserved bits of STATUS read 0 (R18). -/
theorem test_read_status :
    (match step { machine 0xFFFFFFFF [] with pending := [.readStatus] } with
      | .next t => t.replies
      | _ => []) = [.status 0x77] := by decide

/-- R26: the check stops a command that reads a register nothing has written, and lets LDI run. -/
theorem test_checked_step :
    strictStep ((machine 0 [(1, 7)]).issueFirst 0x00021341) = .fault (.unwrittenRead 2) ∧
    strictStep (State.reset.issueFirst 0x000A014F) = step (State.reset.issueFirst 0x000A014F) :=
  ⟨rfl, rfl⟩

/-! ## Reference datapaths -/

/-- spec/95_test_vectors.md 4: the pairs that take the add-back. -/
theorem test_division_adds_back :
    normalizedDivMod 0x7fffffff800000000000000000000000 0x800000000000000000000001 =
      (0xfffffffe, 0x7fffffffffffffff00000002) ∧
    normalizedDivMod 0x800000000000000000000003 0x200000000000000000000001 = (3, 0x200000000000000000000000) ∧
    normalizedDivMod 0x7fff000080000000000000000000 0x80000000000000000001 =
      (0xfffe0000, 0x7fffffffffff00020000) := by decide

/-! ## Host functions (spec/95_test_vectors.md 5) -/

theorem test_format_dec :
    formatDec .w128 .signed (BitVec.ofInt 128 (minS .w128)) = "-170141183460469231731687303715884105728".toList ∧
    formatDec .w128 .unsigned 0 = "0".toList := by decide

theorem test_parse_dec :
    parseDec .reject .w256 .unsigned true "-1".toList = .ok (BitVec.allOnes 256) ∧
    parseDec .reject .w128 .unsigned false "340282366920938463463374607431768211456".toList = .error .overflow ∧
    parseDec .reject .w128 .unsigned false "007".toList = .error .formatError ∧
    parseDec .accept .w128 .unsigned false "007".toList = .ok 7#128 := by decide

theorem test_format_hex :
    formatHex .w128 true 8 true 255#128 = "000000FF".toList ∧ formatHex .w256 false 1 true 255#256 = "ff".toList := by
  decide

theorem test_parse_hex :
    parseHex .w256 .unsigned "XfF".toList = .ok 255#256 ∧
    parseHex .w128 .signed "-0x1".toList = .ok (BitVec.allOnes 128) ∧
    parseHex .w256 .unsigned "0x".toList = .error .formatError := by decide

theorem test_arrays :
    toWords .w128 (BitVec.ofInt 128 (-2)) = [0xFFFFFFFFFFFFFFFF, 0xFFFFFFFFFFFFFFFE] ∧
    fromWords .w128 [1, 2, 3] = .error .invalidArgument ∧
    toLimbs .w128 0x00000001000000020000000300000004#128 = [4, 3, 2, 1] ∧
    fromLimbs .w128 [4, 3, 2, 1] = .ok 0x00000001000000020000000300000004#128 ∧
    toBytes .w128 .big 0x0102#128 = [0, 0, 0, 0, 0, 0, 0, 0, 0, 0, 0, 0, 0, 0, 1, 2] ∧
    fromSignedWords .negative .w128 [0, 5] = .ok (BitVec.ofInt 128 (-5)) := by decide

theorem test_native :
    toNative .w256 .signed .signed .n8 (BitVec.ofInt 256 (-128)) = .ok (0x80#8 : BitVec 8) ∧
    toNative .w128 .signed .unsigned .n32 (BitVec.ofInt 128 (-1)) = .error .overflow ∧
    fromNative .w128 .signed .n16 0xFFFE#16 = BitVec.ofInt 128 (-2) := ⟨rfl, rfl, rfl⟩

/-- spec/95_test_vectors.md 2 and 3: the texts and the words of the same rows. -/
theorem test_assembler :
    (assemble "DIVREM.U256 r3, r4, r1, r2".toList).map encode = some 0x00421344#32 ∧
    (assemble "LDI.S128 r1, #-1".toList).map encode = some 0xFFFF018F#32 ∧
    (assemble "SHLI.U256 r3, r1, #0xfF".toList).map encode = some 0x00FF1348#32 ∧
    disassemble (.neg .w128 .unsigned 15 15) = some "NEG.U128 r15, r15".toList := by decide

/-- The model's choice (log 13): a line whose word R46 makes illegal has no command. -/
theorem test_assembler_refuses :
    assemble "SHR.S256 r3, r1, r2".toList = none ∧ assemble "ABS.U128 r3, r1".toList = none ∧
    assemble "DIVREM.U256 r3, r3, r1, r2".toList = none := by decide

/-! ## Witnesses: the hypotheses of each statement can be met -/

/-- A state with contents for r1 and r2 whose STATUS holds an old Overflow. -/
def loaded (a b : RegWord) : State := machine 0x22 [(1, a), (2, b)]

theorem witness_DecodeInvertsEncode :
    (Instr.divremU .w128 0 15 15 0).wellFormed = true ∧ (Instr.decacc .w256 15 0 9).wellFormed = true ∧
    (Instr.reserved 0x17 0x3FFFFFF).wellFormed = true ∧ Instr.clrst.wellFormed = true := by decide

theorem witness_EncodeInvertsDecode :
    decode 0xFFFF1349#32 = .ok (.shri .w256 3 1 0xFFFF) ∧ decode 0xFFFFFFFF#32 = .ok (.reserved 0x3F 0x3FFFFFF) := by
  decide

theorem witness_DecoderAcceptsExactlyTheOpcodeMap :
    LegalWord 0x0009130E ∧ ¬LegalWord 0x000A130E ∧ (∃ row ∈ opcodeMap, row.allows 0x00421344 = true) := by
  simp only [LegalWord]
  decide

theorem witness_IllegalWordsRaiseIllegalCommand :
    ((loaded 1 2).issueFirst 0x00000017).pending = .issue 0x00000017 :: [] ∧ ¬LegalWord 0x00000017 ∧
    ((loaded 1 2).issueFirst 0x00321344).pending = .issue 0x00321344 :: [] ∧ ¬LegalWord 0x00321344 := by
  simp only [LegalWord]
  decide

theorem witness_ReservedOpcodesRaiseIllegalCommand : 0x17 ≤ (0x17#6).toNat ∧ 0x17 ≤ (0x3F#6).toNat := by decide

theorem witness_StepRunsTheDecodedCommand :
    ((loaded 1 2).issueFirst 0x00021341).pending = .issue 0x00021341 :: [] ∧
    decode 0x00021341#32 = .ok (.add .w256 .unsigned 3 1 2) := by decide

/-- The last of the four words, so that the register becomes written, at the two ends of the word range. -/
theorem witness_HostWriteWordReplacesOneWord :
    (∃ s : State, ∃ v rest, s.pending = .writeWord 15 3 v :: rest ∧ s.hostMask 15 = 0x7#4 ∧ s.isWritten 15 = false) ∧
    ∃ s : State, ∃ v rest, s.pending = .writeWord 0 0 v :: rest ∧ s.hostMask 0 = 0#4 ∧ s.isWritten 0 = false :=
  ⟨⟨{ State.reset with pending := [.writeWord 15 3 7], wmask := Vector.replicate 16 0x7#4 }, 7, [], rfl, rfl, rfl⟩,
    { State.reset with pending := [.writeWord 0 0 7] }, 7, [], rfl, rfl, rfl⟩

theorem witness_FourWordWritesLoadARegister :
    ({ State.reset with pending := loadRegister 0 ones256 } : State).pending = loadRegister 0 ones256 ++ [] := by
  decide

theorem witness_HostReadsReturnAndChangeNothing :
    ({ State.reset with pending := [.readWord 15 3] } : State).pending = .readWord 15 3 :: [] ∧
    ({ State.reset with pending := [.readStatus] } : State).pending = .readStatus :: [] := by decide

theorem witness_ReadsAfterACommandSeeItsResult :
    ({ State.reset with pending := [.issue 0xFFFF01CF, .readStatus] } : State).pending =
      .issue 0xFFFF01CF :: .readStatus :: [] ∧
    ({ State.reset with pending := [.issue 0xFFFF01CF, .readWord 1 3] } : State).pending =
      .issue 0xFFFF01CF :: .readWord 1 3 :: [] := by decide

theorem witness_HostResetClearsStatusAndBookkeeping :
    ({ loaded 1 2 with pending := [.reset] } : State).pending = .reset :: [] := rfl

/-- The invariant holds in a state that is not the reset state, and a step goes on from it. -/
theorem witness_StepKeepsTheMachineInvariant :
    MachineInv ((loaded 1 2).issueFirst 0x00421344) ∧
    ∃ t, step ((loaded 1 2).issueFirst 0x00421344) = .next t :=
  ⟨by simp only [MachineInv, StatusLegal, BookkeepingLegal]; decide, _, rfl⟩

theorem witness_EveryStepAnswersANextState : State.reset.pending = [] := rfl

/-- A command that completes and one that does not. -/
theorem witness_SuccessClearsCodeAndKeepsStickyBits :
    (∃ t, exec (.not .w128 .unsigned 3 1) (loaded 1 2) = .next t ∧ t.code = 0#3) ∧
    (∃ t, exec (.divremU .w256 3 4 1 5) (loaded 1 2) = .next t ∧ t.code ≠ 0#3) ∧
    ∃ t, exec .clrst (loaded 1 2) = .next t :=
  ⟨⟨_, rfl, by decide⟩, ⟨_, rfl, by decide⟩, _, rfl⟩

theorem witness_TwentyCommandsNeverRaise :
    mnemonicOf (.cmpS .w256 3 1 2) = "CMP" ∧ mnemonicOf .clrst = "CLRST" ∧
    mnemonicOf (.decacc .w256 3 1 2) ∉ ["ADD", "SUB", "MUL", "CMP", "SHL", "SHR", "SHLI", "SHRI", "AND", "OR", "XOR",
      "NOT", "LDI", "EXT", "TRUNC", "NEG", "ABS", "SIGN", "NOP", "CLRST"] := by decide

/-- Zero and nonzero divisors at W = 128, and the greatest digit. -/
theorem witness_EachCommandRaisesOneKindOfError :
    (3 : Reg) ≠ 4 ∧ uval .w128 ((loaded 5 (1#256 <<< 128)).reg 2) = 0 ∧ uval .w128 ((loaded 5 1).reg 2) ≠ 0 ∧
    (9#4).toNat ≤ 9 := by decide

/-- A step that changes STATUS, and one that changes a register. -/
theorem witness_OnlyCommandsAndResetChangeStatus :
    (∃ s t : State, step s = .next t ∧ t.status ≠ s.status) ∧ ∃ s t : State, step s = .next t ∧ t.reg 1 ≠ s.reg 1 :=
  ⟨⟨(machine 0x75 []).issueFirst 0x16, _, rfl, by decide⟩,
    { State.reset with pending := [.writeWord 1 0 7] }, _, rfl, by decide⟩

/-- Two states that differ in r3, which ADD overwrites. -/
theorem witness_UnwrittenContentsDoNotInfluenceCheckedSteps :
    ∃ s s' t : State, s ≠ s' ∧ AgreeOnWritten s s' ∧ ReadsKnownWord s ∧ strictStep s = .next t := by
  refine ⟨(loaded 1 2).issueFirst 0x00021341,
    { (loaded 1 2).issueFirst 0x00021341 with regs := (loaded 1 2).regs.set 3 9#256 }, _, by decide, ?_, ?_,
    rfl⟩
  · simp only [AgreeOnWritten, KnownWord]
    decide
  · intro r k rest h
    cases h

/-- A command with an unwritten source, and one whose sources are all written. -/
theorem witness_CheckedStepFaultsOnUnwrittenReads :
    (∃ (s : State) (c : CommandWord) (rest : List PortOp) (i : Instr) (r : Reg),
      s.pending = .issue c :: rest ∧ decode c = .ok i ∧ r ∈ sources i ∧ s.isWritten r = false) ∧
    ∃ (s : State) (c : CommandWord) (rest : List PortOp) (i : Instr),
      s.pending = .issue c :: rest ∧ decode c = .ok i ∧ sources i ≠ [] ∧ ∀ r ∈ sources i, s.isWritten r = true :=
  ⟨⟨(machine 0 [(1, 7)]).issueFirst 0x00021341, 0x00021341, [], .add .w256 .unsigned 3 1 2, 2, rfl, by decide,
      by decide, by decide⟩,
    (loaded 1 2).issueFirst 0x00021341, 0x00021341, [], .add .w256 .unsigned 3 1 2, rfl, by decide, by decide,
    by decide⟩

/-- Every clause of the group laws, at both ends of the unsigned range. -/
theorem witness_AdditionObeysTheWraparoundGroupLaws :
    (∃ t u, (4 : Reg) ≠ 1 ∧ exec (.neg .w128 .signed 4 1) (loaded 5 7) = .next t ∧
      exec (.add .w128 .signed 5 1 4) t = .next u) ∧
    (∃ t, uval .w256 ((loaded ones256 1).reg 1) = maxU .w256 ∧ uval .w256 ((loaded ones256 1).reg 2) = 1 ∧
      exec (.add .w256 .unsigned 4 1 2) (loaded ones256 1) = .next t) ∧
    (∃ t, uval .w256 ((loaded 0 1).reg 1) = 0 ∧ uval .w256 ((loaded 0 1).reg 2) = 1 ∧
      exec (.sub .w256 .unsigned 4 1 2) (loaded 0 1) = .next t) ∧
    ∃ t u t' u', (4 : Reg) ≠ 1 ∧ (4 : Reg) ≠ 3 ∧ exec (.add .w128 .signed 4 1 2) (loaded 5 7) = .next t ∧
      exec (.add .w128 .signed 5 4 3) t = .next u ∧ exec (.add .w128 .signed 4 2 3) (loaded 5 7) = .next t' ∧
      exec (.add .w128 .signed 5 1 4) t' = .next u' :=
  ⟨⟨_, _, by decide, rfl, rfl⟩, ⟨_, by decide, by decide, rfl⟩,
    ⟨_, by decide, by decide, rfl⟩, _, _, _, _, by decide, by decide, rfl, rfl, rfl, rfl⟩

theorem witness_MultiplicationObeysTheRingLaws :
    (∃ t u t' u', (4 : Reg) ≠ 1 ∧ (4 : Reg) ≠ 3 ∧ exec (.mul .w128 .signed 4 1 2) (loaded 5 7) = .next t ∧
      exec (.mul .w128 .signed 5 4 3) t = .next u ∧ exec (.mul .w128 .signed 4 2 3) (loaded 5 7) = .next t' ∧
      exec (.mul .w128 .signed 5 1 4) t' = .next u') ∧
    ∃ t u t' u' v', (4 : Reg) ≠ 1 ∧ (4 : Reg) ≠ 3 ∧ (5 : Reg) ≠ 4 ∧
      exec (.add .w128 .signed 4 2 3) (loaded 5 7) = .next t ∧ exec (.mul .w128 .signed 6 1 4) t = .next u ∧
      exec (.mul .w128 .signed 4 1 2) (loaded 5 7) = .next t' ∧ exec (.mul .w128 .signed 5 1 3) t' = .next u' ∧
      exec (.add .w128 .signed 6 4 5) u' = .next v' :=
  ⟨⟨_, _, _, _, by decide, by decide, rfl, rfl, rfl, rfl⟩, _, _, _, _, _, by decide, by decide, by decide, rfl, rfl,
    rfl, rfl, rfl⟩

/-- Least nonzero divisor, and a divisor that is 0 only at W = 128. -/
theorem witness_UnsignedDivremWritesQuotientAndRemainder :
    (3 : Reg) ≠ 4 ∧ uval .w128 ((loaded 5 1).reg 2) ≠ 0 ∧ uval .w128 ((loaded 5 (1#256 <<< 128)).reg 2) = 0 := by
  decide

/-- Divisor -1 of the least dividend, and a divisor that is 0 only at W = 128. -/
theorem witness_SignedDivremTruncatesTowardZero :
    (3 : Reg) ≠ 4 ∧ sval .w128 ((loaded (1#256 <<< 127) ones128).reg 2) = -1 ∧
    sval .w128 ((loaded 5 (1#256 <<< 128)).reg 2) = 0 ∧ BitVec.allOnes 128 ≠ 0 := by decide

/-- The least dividend by -1, where the identity holds modulo 2^W only. -/
theorem witness_DivremObeysTheDivisionIdentity :
    (3 : Reg) ≠ 4 ∧ uval .w128 ((loaded (1#256 <<< 127) ones128).reg 2) ≠ 0 ∧
    (∃ t, exec (.divremU .w128 3 4 1 2) (loaded (1#256 <<< 127) ones128) = .next t) ∧
    ∃ t, exec (.divremS .w128 3 4 1 2) (loaded (1#256 <<< 127) ones128) = .next t :=
  ⟨by decide, by decide, ⟨_, rfl⟩, _, rfl⟩

/-- r1 < r2 < r3 in the signed order, so that every clause of the order is met. -/
theorem witness_CmpIsATotalOrder :
    ∃ (cmp : Reg → Reg → Reg → Instr) (tab tba tbc tac : State),
      cmp = (if Signedness.signed = .signed then Instr.cmpS .w256 else Instr.cmpU .w256) ∧
      exec (cmp 4 1 2) (loaded (BitVec.ofInt 256 (-128)) ones256) = .next tab ∧
      exec (cmp 4 2 1) (loaded (BitVec.ofInt 256 (-128)) ones256) = .next tba ∧
      exec (cmp 4 2 3) (loaded (BitVec.ofInt 256 (-128)) ones256) = .next tbc ∧
      exec (cmp 4 1 3) (loaded (BitVec.ofInt 256 (-128)) ones256) = .next tac ∧
      sval .w256 (tab.reg 4) = -1 ∧ sval .w256 (tbc.reg 4) = -1 ∧
      uval .w256 ((loaded (BitVec.ofInt 256 (-128)) ones256).reg 1) = (fromNative .w256 .signed .n8 0x80#8).toNat ∧
      uval .w256 ((loaded (BitVec.ofInt 256 (-128)) ones256).reg 2) = (fromNative .w256 .signed .n8 0xFF#8).toNat :=
  ⟨Instr.cmpS .w256, _, _, _, _, rfl, rfl, rfl, rfl, rfl, by decide, by decide, by decide, by decide⟩

/-- RS2 or RD2 that is not 0, at both ends of the register range. -/
theorem witness_LogicWorksBitByBitOnTheLowBits : (1 : Reg) ≠ 0 ∧ (15 : Reg) ≠ 0 := by decide

theorem witness_NegWritesTheNegation : (1 : Reg) ≠ 0 ∧ (15 : Reg) ≠ 0 := by decide

theorem witness_SignWritesTheSign : (1 : Reg) ≠ 0 ∧ (15 : Reg) ≠ 0 := by decide

/-- A count of W and one of W - 1, in a register and as an immediate. -/
theorem witness_ShiftLeftMultipliesByAPowerOfTwo :
    Width.bits .w128 ≤ uval .w128 ((loaded 5 128).reg 2) ∧ uval .w128 ((loaded 5 127).reg 2) < Width.bits .w128 ∧
    Width.bits .w256 ≤ (256#16).toNat := by decide

theorem witness_ShiftRightDividesByAPowerOfTwo :
    Width.bits .w256 ≤ uval .w256 ((loaded 5 256).reg 2) ∧ uval .w256 ((loaded 5 255).reg 2) < Width.bits .w256 ∧
    Width.bits .w128 ≤ (128#16).toNat := by decide

/-- The clauses of DECACC where they meet: floor(MaxU/10) with digits 5 and 6, and an illegal digit. -/
theorem witness_DecaccAccumulatesOrOverflows :
    9 < (10#16).toNat ∧ 9 < (0xFFFF#16).toNat ∧ (9#4).toNat ≤ 9 ∧
    uval .w256 ((loaded 0x1999999999999999999999999999999999999999999999999999999999999999 0).reg 1) * 10 + 5 =
      maxU .w256 ∧
    maxU .w256 <
      uval .w256 ((loaded 0x1999999999999999999999999999999999999999999999999999999999999999 0).reg 1) * 10 + 6 := by
  decide

theorem witness_LdiWritesTheExtendedImmediate : (1 : Reg) ≠ 0 ∧ (15 : Reg) ≠ 0 := by decide

/-- Both ends of both ranges, and the first value outside each. -/
theorem witness_TrunccNarrowsOrOverflows :
    uval .w256 ((loaded ones128 0).reg 1) ≤ maxU .w128 ∧ maxU .w128 < uval .w256 ((loaded (1#256 <<< 128) 0).reg 1) ∧
    sval .w256 ((loaded (BitVec.ofInt 256 (-2 ^ 127)) 0).reg 1) = minS .w128 ∧
    sval .w256 ((loaded (BitVec.ofInt 256 (-2 ^ 127 - 1)) 0).reg 1) < minS .w128 ∧
    sval .w256 ((loaded (BitVec.ofInt 256 (2 ^ 127 - 1)) 0).reg 1) = maxS .w128 ∧
    maxS .w128 < sval .w256 ((loaded (1#256 <<< 127) 0).reg 1) := by decide

theorem witness_AbsWritesTheMagnitude :
    sval .w128 ((loaded (1#256 <<< 127) 0).reg 1) = minS .w128 ∧ (1 : Reg) ≠ 0 ∧ (15 : Reg) ≠ 0 := by decide

theorem witness_NopClearsOnlyTheCode : (0x00000040#32).toNat % 2 ^ 6 = 0 := by decide

/-- An illegal word with CLRST's opcode; and all three sticky bits set before a step that may not clear one. -/
theorem witness_ClrstClearsAllOfStatus :
    (0x00010016#32).toNat % 2 ^ 6 = 0x16 ∧
    ∃ s t : State, step s = .next t ∧ s.pending.head? ≠ some .reset ∧
      s.pending.head? ≠ some (.issue 0x00000016#32) ∧ s.dz = true ∧ s.ov = true ∧ s.il = true :=
  ⟨by decide, (machine 0x75 []).issueFirst 0, _, rfl, by decide, by decide, by decide, by decide, by decide⟩

theorem witness_NormalizedDivisionGivesQuotientAndRemainder : 1 ≠ 0 ∧ 2 ^ 96 + 1 ≠ 0 := by decide

/-- Leading zeros accepted, a single zero, and a text that begins with no zero. -/
theorem witness_ParseDecReadsTheNumberInBaseTen :
    ([0, 7] : List (Fin 10)) ≠ [] ∧ (LeadingZeros.accept = .accept) ∧ ([0] : List (Fin 10)).length = 1 ∧
    ([9, 0] : List (Fin 10)).head? ≠ some 0 := by decide

/-- The least and the greatest index of each array, and lists of other lengths. -/
theorem witness_ArraysRoundTrip :
    1 < Width.bits .w128 / 64 ∧ 7 < Width.bits .w256 / 32 ∧ 31 < Width.bits .w256 / 8 ∧ 0 < Width.bits .w128 / 8 ∧
    ([] : List PortWord).length ≠ Width.bits .w128 / 64 ∧ ([1, 2, 3] : List PortWord).length ≠ Width.bits .w128 / 64 ∧
    ([1, 2, 3] : List (BitVec 32)).length ≠ Width.bits .w128 / 32 ∧
    ([1, 2, 3] : List (BitVec 8)).length ≠ Width.bits .w256 / 8 := by decide

/-- -128 is the least value of a signed byte, and 128 the first above its range. -/
theorem witness_NativeConversionsKeepTheValue :
    inNativeRange .signed .n8 (valueAt .signed (BitVec.ofInt 256 (-128))) = true ∧
    inNativeRange .signed .n8 (valueAt .signed (BitVec.ofInt 256 128)) = false := by decide

theorem witness_AssembleInvertsDisassemble :
    (Instr.divremS .w256 0 15 0 15).legal = true ∧ (Instr.decacc .w128 0 0 9).legal = true := by decide

end Sys2Proof.Tests
end

section
/-! The host array functions (R97): which bits each element holds, the round trips, and the rejected lengths. -/

namespace Sys2Proof

theorem Width.dvd_bits {n : Nat} (h : n ∣ 128) (w : Width) : n ∣ w.bits := by
  cases w
  case w128 => exact h
  case w256 => exact h.mul_left 2

/-- Part k, counted from the least significant. -/
theorem wordsOf_getElem? (n : Nat) {m k : Nat} (v : BitVec m) (h : k < m / n) :
    (wordsOf n v)[k]? = some (v.extractLsb' (n * k) n) := by
  simp [wordsOf, h]

/-- The same part, counted from the most significant. -/
theorem wordsOf_reverse_getElem? (n : Nat) {m k : Nat} (v : BitVec m) (h : k < m / n) :
    (wordsOf n v).reverse[m / n - 1 - k]? = some (v.extractLsb' (n * k) n) := by
  rw [List.getElem?_reverse (by rw [wordsOf_length]; omega), wordsOf_length,
    show m / n - 1 - (m / n - 1 - k) = k by omega, wordsOf_getElem? n v h]

namespace Machine

/-! ### Elements -/

theorem toWords_getElem? (w : Width) (v : BitVec w.bits) {k : Nat} (h : k < w.bits / 64) :
    (toWords w v)[w.bits / 64 - 1 - k]? = some (v.extractLsb' (64 * k) 64) :=
  wordsOf_reverse_getElem? 64 v h

theorem toLimbs_getElem? (w : Width) (v : BitVec w.bits) {k : Nat} (h : k < w.bits / 32) :
    (toLimbs w v)[k]? = some (v.extractLsb' (32 * k) 32) :=
  wordsOf_getElem? 32 v h

theorem toBytes_little_getElem? (w : Width) (v : BitVec w.bits) {j : Nat} (h : j < w.bits / 8) :
    (toBytes w .little v)[j]? = some (v.extractLsb' (8 * j) 8) :=
  wordsOf_getElem? 8 v h

/-- Byte j in big order is part W/8 - 1 - j, whose lowest bit is W - 8 - 8j because 8 divides W. -/
theorem toBytes_big_getElem? (w : Width) (v : BitVec w.bits) {j : Nat} (h : j < w.bits / 8) :
    (toBytes w .big v)[j]? = some (v.extractLsb' (w.bits - 8 - 8 * j) 8) := by
  have hdvd : 8 ∣ w.bits := w.dvd_bits (by decide)
  have hpart := wordsOf_reverse_getElem? 8 v (k := w.bits / 8 - 1 - j) (by omega)
  rwa [show w.bits / 8 - 1 - (w.bits / 8 - 1 - j) = j by omega,
    show 8 * (w.bits / 8 - 1 - j) = w.bits - 8 - 8 * j by omega] at hpart

/-! ### Round trips -/

theorem fromWords_toWords (w : Width) (v : BitVec w.bits) : fromWords w (toWords w v) = .ok v := by
  rw [fromWords, toWords, List.reverse_reverse]
  exact ofParts_wordsOf w (w.dvd_bits (by decide)) v

theorem fromLimbs_toLimbs (w : Width) (v : BitVec w.bits) : fromLimbs w (toLimbs w v) = .ok v :=
  ofParts_wordsOf w (w.dvd_bits (by decide)) v

theorem fromBytes_toBytes (w : Width) (order : ByteOrder) (v : BitVec w.bits) :
    fromBytes w order (toBytes w order v) = .ok v := by
  have hjoin : ofParts w (wordsOf 8 v) = .ok v := ofParts_wordsOf w (w.dvd_bits (by decide)) v
  cases order
  case little => exact hjoin
  case big => rwa [fromBytes, toBytes, List.reverse_reverse]

/-! ### Lists of another length -/

theorem fromWords_eq_error (w : Width) {ws : List PortWord} (h : ws.length ≠ w.bits / 64) :
    fromWords w ws = .error .invalidArgument :=
  ofParts_eq_error w (by rwa [List.length_reverse])

theorem fromLimbs_eq_error (w : Width) {limbs : List (BitVec 32)} (h : limbs.length ≠ w.bits / 32) :
    fromLimbs w limbs = .error .invalidArgument :=
  ofParts_eq_error w h

theorem fromBytes_eq_error (w : Width) (order : ByteOrder) {bs : List (BitVec 8)} (h : bs.length ≠ w.bits / 8) :
    fromBytes w order bs = .error .invalidArgument := by
  cases order
  case little => exact ofParts_eq_error w h
  case big => exact ofParts_eq_error w (by rwa [List.length_reverse])

/-- Settles O55: every array is `wordsOf` or its reverse, so each clause is one fact about the parts of a value. -/
theorem arraysRoundTrip : Obligations.ArraysRoundTrip := fun w v =>
  ⟨fun _ => toWords_getElem? w v, fun _ => toLimbs_getElem? w v,
    fun _ hj => ⟨toBytes_little_getElem? w v hj, toBytes_big_getElem? w v hj⟩,
    fromWords_toWords w v, fromLimbs_toLimbs w v, fun order => fromBytes_toBytes w order v,
    fun _ => fromWords_eq_error w, fun _ => fromLimbs_eq_error w, fun order _ => fromBytes_eq_error w order⟩

end Machine

end Sys2Proof
end

section
/-! Steps of the machine and the host port (R22, R26, R31): what a step performs, what each port operation leaves, and
which operations can change STATUS or a register. -/

namespace Sys2Proof.Machine

/-! ### What a step can do -/

/-- A step either ends the run or performs the first pending operation in the state without it. -/
theorem step_cases {s t : State} (h : step s = .next t) :
    (s.pending = [] ∧ t = s) ∨
      ∃ op rest, s.pending = op :: rest ∧ State.perform { s with pending := rest } op = .next t := by
  cases hp : s.pending with
  | nil =>
    rw [step_ended s hp] at h
    cases h
    exact .inl ⟨rfl, rfl⟩
  | cons op rest => exact .inr ⟨op, rest, rfl, by rw [← step_performs s op rest hp, h]⟩

/-- Issuing a word raises IllegalCommand or has the effect of the command it decodes to. -/
theorem hostIssue_cases {s t : State} {c : CommandWord} (h : s.hostIssue c = .next t) :
    t = s.raise .illegalCommand ∨ ∃ i, CommandEffect i s t := by
  cases hd : decode c with
  | error why =>
    rw [hostIssue_illegal s c why hd] at h
    cases h
    exact .inl rfl
  | ok i =>
    rw [hostIssue_decoded s c i hd] at h
    exact .inr ⟨i, effect_of_exec h⟩

/-- Settles O20, by the kind of the operation performed: the two reads and the writes of other words change neither. -/
theorem onlyCommandsAndResetChangeStatus : Obligations.OnlyCommandsAndResetChangeStatus := by
  intro s t h
  obtain ⟨-, rfl⟩ | ⟨op, rest, hp, h⟩ := step_cases h
  · exact ⟨fun hne => absurd rfl hne, fun r hne => absurd rfl hne⟩
  · rw [hp]
    cases op with
    | issue c => exact ⟨fun _ => .inl ⟨c, rfl⟩, fun _ _ => .inl ⟨c, rfl⟩⟩
    | reset => exact ⟨fun _ => .inr rfl, fun _ _ => .inr (.inl rfl)⟩
    | readWord i k =>
      cases h
      exact ⟨fun hne => absurd rfl hne, fun r hne => absurd rfl hne⟩
    | readStatus =>
      cases h
      exact ⟨fun hne => absurd rfl hne, fun r hne => absurd rfl hne⟩
    | writeWord i k v =>
      cases h
      refine ⟨fun hne => absurd rfl hne, fun r hne => .inr (.inr ?_)⟩
      have hr : r = i := by
        by_contra hri
        exact hne (by simp [hostWriteWord_reg, hri])
      exact ⟨k, v, by rw [hr]; rfl⟩

/-! ### HostWriteWord -/

theorem fullMask_iff (m : BitVec 4) : m = 0xF#4 ↔ ∀ k : WordIndex, m.getLsbD k.val = true := by
  refine ⟨fun h => by rw [h]; decide, fun h => BitVec.eq_of_getLsbD_eq fun b hb => ?_⟩
  have hF : ∀ k : WordIndex, (0xF#4).getLsbD k.val = true := by decide
  rw [h ⟨b, hb⟩, hF ⟨b, hb⟩]

section
variable (s : State) (i r : Reg) (k j : WordIndex) (x : PortWord)

theorem maskAfterWrite_getLsbD (m : BitVec 4) :
    (m ||| (1#4 <<< k.val)).getLsbD j.val = (m.getLsbD j.val || j == k) := by
  have hbit : ∀ k j : WordIndex, (1#4 <<< k.val).getLsbD j.val = (j == k) := by decide
  rw [BitVec.getLsbD_or, hbit]

theorem hostWriteWord_hostMask_getLsbD :
    ((s.hostWriteWord i k x).hostMask i).getLsbD j.val = ((s.hostMask i).getLsbD j.val || j == k) := by
  rw [hostWriteWord_hostMask, if_pos rfl, maskAfterWrite_getLsbD]

/-- The register is written after the write exactly if it was before or its mask is now full (R26). -/
theorem hostWriteWord_isWritten_iff :
    (s.hostWriteWord i k x).isWritten i = true ↔
      s.isWritten i = true ∨ ∀ j : WordIndex, j = k ∨ (s.hostMask i).getLsbD j.val = true := by
  rw [hostWriteWord_isWritten, if_pos rfl, Bool.or_eq_true, beq_iff_eq, fullMask_iff]
  simp only [maskAfterWrite_getLsbD, Bool.or_eq_true, beq_iff_eq, or_comm]

/-- HostWriteWord makes its own word known and no other. -/
theorem hostWriteWord_knownWord_iff :
    KnownWord (s.hostWriteWord i k x) r j ↔ KnownWord s r j ∨ (r = i ∧ j = k) := by
  by_cases hr : r = i
  · subst hr
    rw [KnownWord, KnownWord, hostWriteWord_isWritten_iff, hostWriteWord_hostMask_getLsbD, Bool.or_eq_true, beq_iff_eq]
    constructor
    · rintro ((hw | hall) | hm | hk)
      · exact .inl (.inl hw)
      · exact (hall j).elim (fun hk => .inr ⟨rfl, hk⟩) fun hm => .inl (.inr hm)
      · exact .inl (.inr hm)
      · exact .inr ⟨rfl, hk⟩
    · rintro ((hw | hm) | ⟨-, hk⟩)
      · exact .inl (.inl hw)
      · exact .inr (.inl hm)
      · exact .inr (.inr hk)
  · simp [KnownWord, hostWriteWord_isWritten, hostWriteWord_hostMask, hr]

end

/-- Settles O8, field by field from what `hostWriteWord` leaves. -/
theorem hostWriteWordReplacesOneWord : Obligations.HostWriteWordReplacesOneWord := by
  intro s i k v rest hp
  refine ⟨_, step_performs s _ rest hp, fun b => ?_, fun k' => hostWriteWord_hostMask_getLsbD ..,
    hostWriteWord_isWritten_iff .., fun r hr => ?_, rfl, rfl, rfl, rfl⟩
  · rw [hostWriteWord_reg, if_pos rfl]
    exact setWord_getLsbD ..
  · simp [hostWriteWord_reg, hostWriteWord_isWritten, hostWriteWord_hostMask, hr]

/-- The state after words 0 to 3 of v were written to register i in turn. -/
def State.loadReg (s : State) (i : Reg) (v : RegWord) : State :=
  (((s.hostWriteWord i 0 (getWord v 0)).hostWriteWord i 1 (getWord v 1)).hostWriteWord i 2
    (getWord v 2)).hostWriteWord i 3 (getWord v 3)

theorem hostWriteWord_withPending (s : State) (i : Reg) (k : WordIndex) (x : PortWord) (rest : List PortOp) :
    { s.hostWriteWord i k x with pending := rest } = State.hostWriteWord { s with pending := rest } i k x := rfl

theorem run_writeWord {s : State} {i : Reg} {k : WordIndex} {x : PortWord} {rest : List PortOp} (n : Nat)
    (hp : s.pending = .writeWord i k x :: rest) :
    Host.Core.run Sys2Proof.core (n + 1) s =
      Host.Core.run Sys2Proof.core n (State.hostWriteWord { s with pending := rest } i k x) := by
  have hstep : Sys2Proof.core.step s = .next (State.hostWriteWord { s with pending := rest } i k x) :=
    step_performs s _ rest hp
  simp only [Host.Core.run, hstep]

theorem run_loadRegister {s : State} {i : Reg} {v : RegWord} {rest : List PortOp}
    (hp : s.pending = loadRegister i v ++ rest) :
    Host.Core.run Sys2Proof.core 4 s = .next (State.loadReg { s with pending := rest } i v) := by
  simp only [loadRegister, List.cons_append, List.nil_append] at hp
  rw [run_writeWord 3 hp, run_writeWord 2 (hostWriteWord_pending ..), hostWriteWord_withPending,
    run_writeWord 1 (hostWriteWord_pending ..), hostWriteWord_withPending, hostWriteWord_withPending,
    run_writeWord 0 (hostWriteWord_pending ..), hostWriteWord_withPending, hostWriteWord_withPending,
    hostWriteWord_withPending]
  simp only [State.loadReg, Host.Core.run]

theorem loadReg_reg (s : State) (i : Reg) (v : RegWord) : (s.loadReg i v).reg i = v := by
  refine reg_eq_of_words fun k => ?_
  simp only [State.loadReg, hostWriteWord_reg, if_true, getWord_setWord]
  fin_cases k <;> rfl

theorem loadReg_isWritten (s : State) (i : Reg) (v : RegWord) : (s.loadReg i v).isWritten i = true := by
  rw [State.loadReg, hostWriteWord_isWritten_iff]
  refine .inr fun j => ?_
  simp only [hostWriteWord_hostMask_getLsbD, Bool.or_eq_true, beq_iff_eq]
  fin_cases j <;> simp

/-- Settles O9: the four steps leave `State.loadReg`, whose register is known word by word. -/
theorem fourWordWritesLoadARegister : Obligations.FourWordWritesLoadARegister := by
  intro s i v rest hp
  refine ⟨_, run_loadRegister hp, loadReg_reg .., loadReg_isWritten .., fun r hr => ?_, rfl, rfl, rfl⟩
  simp [State.loadReg, hostWriteWord_reg, hostWriteWord_isWritten, hr]

/-! ### The two reads -/

/-- The bits of STATUS that exist (R18). -/
theorem statusMask_getLsbD (b : Nat) : statusMask.getLsbD b = decide (b < 3 ∨ (4 ≤ b ∧ b < 7)) := by
  by_cases hb : b < 32
  · have hall : ∀ c : Fin 32, statusMask.getLsbD c.val = decide (c.val < 3 ∨ (4 ≤ c.val ∧ c.val < 7)) := by decide
    exact hall ⟨b, hb⟩
  · rw [BitVec.getLsbD_of_ge _ b (Nat.le_of_not_lt hb), eq_comm, decide_eq_false_iff_not]
    omega

/-- Settles O10: each read answers its reply, whose bits `getWord` and the STATUS mask give. -/
theorem hostReadsReturnAndChangeNothing : Obligations.HostReadsReturnAndChangeNothing := by
  rintro s op rest hp
  constructor
  · rintro i k rfl
    refine ⟨getWord (s.reg i) k, step_performs s _ rest hp, fun b hb => ?_⟩
    rw [getWord_getLsbD, decide_eq_true hb, Bool.true_and]
  · rintro rfl
    refine ⟨s.statusWord, step_performs s _ rest hp, fun b _ => ?_⟩
    rw [State.statusWord, BitVec.getLsbD_and, statusMask_getLsbD]

end Sys2Proof.Machine
end

section
/-! The machine invariant (R18, R26, R108, R110): STATUS holds a legal value and a fully host-written register counts
as written, after reset and after every step; and what a command's ending does to STATUS (R19). -/

namespace Sys2Proof.Machine

/-! ### STATUS after success and after an error -/

theorem reservedBits_zero_iff (st : BitVec 32) :
    st &&& ~~~statusMask = 0#32 ↔ ∀ b, b = 3 ∨ 7 ≤ b → st.getLsbD b = false := by
  constructor
  · intro h b hb
    have hmask : statusMask.getLsbD b = false := by
      rw [statusMask_getLsbD, decide_eq_false_iff_not]
      omega
    by_cases h32 : b < 32
    · have hbit := congrArg (·.getLsbD b) h
      simpa only [BitVec.getLsbD_and, BitVec.getLsbD_not, hmask, h32, BitVec.getLsbD_zero, decide_true, Bool.not_false,
        Bool.and_true] using hbit
    · exact BitVec.getLsbD_of_ge _ b (Nat.le_of_not_lt h32)
  · refine fun h => BitVec.eq_of_getLsbD_eq fun b hb => ?_
    by_cases hres : b = 3 ∨ 7 ≤ b
    · simp [h b hres]
    · have hmask : statusMask.getLsbD b = true := by
        rw [statusMask_getLsbD, decide_eq_true_eq]
        omega
      simp [hmask]

theorem statusLegal_congr {s t : State} (h : t.status = s.status) (hs : StatusLegal s) : StatusLegal t := by
  simpa only [StatusLegal, State.code, State.dz, State.ov, State.il, h] using hs

theorem clear_statusLegal {s : State} (h : s.status = 0#32) : StatusLegal s :=
  statusLegal_congr (s := State.reset) h ⟨rfl, .inl rfl⟩

theorem succeed_statusLegal {s : State} (hs : StatusLegal s) : StatusLegal s.succeed := by
  refine ⟨(reservedBits_zero_iff _).mpr fun b hb => ?_, .inl (succeed_code s)⟩
  rw [succeed_status, statusAfterSuccess_getLsbD, (reservedBits_zero_iff _).mp hs.1 b hb, Bool.and_false]

/-- An error that commands raise sets the sticky bit of the code it writes; the host functions' kinds have none. -/
theorem raise_statusLegal {s : State} {e : ErrorKind} (he : e ≠ .formatError ∧ e ≠ .invalidArgument)
    (hs : StatusLegal s) : StatusLegal (s.raise e) := by
  obtain ⟨-, hcode, hdz, hov, hil, hres, -⟩ := raise_raises s e
  refine ⟨(reservedBits_zero_iff _).mpr fun b hb => ?_, ?_⟩
  · rw [hres b hb, (reservedBits_zero_iff _).mp hs.1 b hb]
  · cases e with
    | divideByZero => exact .inr (.inl ⟨hcode, by rw [hdz]; exact Bool.or_true _⟩)
    | overflow => exact .inr (.inr (.inl ⟨hcode, by rw [hov]; exact Bool.or_true _⟩))
    | illegalCommand => exact .inr (.inr (.inr ⟨hcode, by rw [hil]; exact Bool.or_true _⟩))
    | formatError => exact absurd rfl he.1
    | invalidArgument => exact absurd rfl he.2

theorem ErrorKind.code_ne_zero (e : ErrorKind) : e.code ≠ 0#3 := by cases e <;> decide

/-- A command ends with CODE 0, its sticky bits kept unless it is CLRST, or with an error. -/
theorem CommandEffect.succeeds_or_raises {i : Instr} {s t : State} (h : CommandEffect i s t) :
    (t.code = 0#3 ∧ (i ≠ .clrst → t.dz = s.dz ∧ t.ov = s.ov ∧ t.il = s.il)) ∨ ∃ e, Raises s t e := by
  cases h with
  | one d v _ => exact .inl ⟨succeed_code _, fun _ => ⟨succeed_dz _, succeed_ov _, succeed_il _⟩⟩
  | two d e v u _ _ => exact .inl ⟨succeed_code _, fun _ => ⟨succeed_dz _, succeed_ov _, succeed_il _⟩⟩
  | nothing _ => exact .inl ⟨succeed_code _, fun _ => ⟨succeed_dz _, succeed_ov _, succeed_il _⟩⟩
  | cleared hi => exact .inl ⟨rfl, fun hne => absurd hi hne⟩
  | divideByZero _ => exact .inr ⟨_, raise_raises s _⟩
  | overflow _ => exact .inr ⟨_, raise_raises s _⟩
  | illegal _ => exact .inr ⟨_, raise_raises s _⟩

/-- Settles O17: an error's code is never 0, so CODE 0 leaves only the successful endings. -/
theorem successClearsCodeAndKeepsStickyBits : Obligations.SuccessClearsCodeAndKeepsStickyBits := by
  intro i s t h
  refine ⟨?_, fun hcode hne => ?_, ?_⟩
  · obtain ⟨hcode, -⟩ | ⟨e, he⟩ := (effect_of_exec h).succeeds_or_raises
    · exact .inl hcode
    · exact .inr ⟨e, he, e.code_ne_zero⟩
  · obtain ⟨-, hkept⟩ | ⟨e, -, hraised, -⟩ := (effect_of_exec h).succeeds_or_raises
    · exact hkept hne
    · exact absurd (hraised.symm.trans hcode) e.code_ne_zero
  · rintro rfl
    cases h
    rfl

/-! ### The invariant -/

theorem setReg_bookkeepingLegal {s : State} (d : Reg) (v : RegWord) (hs : BookkeepingLegal s) :
    BookkeepingLegal (s.setReg d v) := by
  intro r hmask
  rw [setReg_isWritten]
  split
  · rfl
  · exact hs r hmask

theorem setReg_inv {s : State} (d : Reg) (v : RegWord) (hs : MachineInv s) : MachineInv (s.setReg d v) :=
  ⟨statusLegal_congr rfl hs.1, setReg_bookkeepingLegal d v hs.2⟩

theorem succeed_inv {s : State} (hs : MachineInv s) : MachineInv s.succeed := ⟨succeed_statusLegal hs.1, hs.2⟩

theorem raise_inv {s : State} {e : ErrorKind} (he : e ≠ .formatError ∧ e ≠ .invalidArgument) (hs : MachineInv s) :
    MachineInv (s.raise e) := ⟨raise_statusLegal he hs.1, hs.2⟩

theorem CommandEffect.keeps_inv {i : Instr} {s t : State} (h : CommandEffect i s t) (hs : MachineInv s) :
    MachineInv t := by
  cases h with
  | one d v _ => exact succeed_inv (setReg_inv d v hs)
  | two d e v u _ _ => exact succeed_inv (setReg_inv e u (setReg_inv d v hs))
  | nothing _ => exact succeed_inv hs
  | cleared _ => exact ⟨clear_statusLegal rfl, hs.2⟩
  | divideByZero _ => exact raise_inv (by decide) hs
  | overflow _ => exact raise_inv (by decide) hs
  | illegal _ => exact raise_inv (by decide) hs

/-- A full mask makes its register written by the very write that fills it. -/
theorem hostWriteWord_bookkeepingLegal {s : State} (i : Reg) (k : WordIndex) (x : PortWord)
    (hs : BookkeepingLegal s) : BookkeepingLegal (s.hostWriteWord i k x) := by
  intro r hmask
  rw [hostWriteWord_hostMask] at hmask
  rw [hostWriteWord_isWritten]
  by_cases hr : r = i
  · rw [if_pos hr] at hmask
    simp [hr, hmask]
  · rw [if_neg hr] at hmask
    rw [if_neg hr]
    exact hs r hmask

theorem hostReset_inv (s : State) : MachineInv s.hostReset :=
  ⟨clear_statusLegal rfl, fun r hmask => absurd hmask (by simp)⟩

theorem perform_keeps_inv {s t : State} {op : PortOp} (hs : MachineInv s) (h : s.perform op = .next t) :
    MachineInv t := by
  cases op with
  | writeWord i k x =>
    cases h
    exact ⟨statusLegal_congr rfl hs.1, hostWriteWord_bookkeepingLegal i k x hs.2⟩
  | readWord i k =>
    cases h
    exact hs
  | readStatus =>
    cases h
    exact hs
  | reset =>
    -- `cases h` would compare `t` with the sixteen drawn registers of the reset state
    have ht : s.hostReset = t := Host.Outcome.next.inj h
    exact ht ▸ hostReset_inv s
  | issue c =>
    obtain rfl | ⟨i, hi⟩ := hostIssue_cases h
    · exact raise_inv (by decide) hs
    · exact hi.keeps_inv hs

/-- Settles O13, by what the step's operation does to STATUS and to the bookkeeping. -/
theorem stepKeepsTheMachineInvariant : Obligations.StepKeepsTheMachineInvariant := by
  intro s t hs h
  obtain ⟨-, rfl⟩ | ⟨op, rest, -, h⟩ := step_cases h
  · exact hs
  · exact perform_keeps_inv (s := { s with pending := rest }) hs h

/-- Settles O14: STATUS is 0 and no mask is full. -/
theorem resetMeetsTheMachineInvariant : Obligations.ResetMeetsTheMachineInvariant :=
  ⟨clear_statusLegal rfl, fun r hmask => absurd hmask (by simp [State.reset, State.hostMask])⟩

end Sys2Proof.Machine
end

section
/-! Noninterference (R17, R26, R122): two states that agree on what has been written step, under the check of unwritten
registers, to states that agree on what has been written. -/

namespace Sys2Proof.Machine

/-! ### States that agree on what has been written -/

section
variable {s s' : State}

theorem AgreeOnWritten.isWritten_eq (h : AgreeOnWritten s s') (r : Reg) : s'.isWritten r = s.isWritten r := by
  obtain ⟨-, hwritten, -⟩ := h
  rw [State.isWritten, State.isWritten, hwritten]

theorem AgreeOnWritten.hostMask_eq (h : AgreeOnWritten s s') (r : Reg) : s'.hostMask r = s.hostMask r := by
  obtain ⟨-, -, hmask, -⟩ := h
  rw [State.hostMask, State.hostMask, hmask]

theorem AgreeOnWritten.pending_eq (h : AgreeOnWritten s s') : s'.pending = s.pending := by
  obtain ⟨-, -, -, hpending, -⟩ := h
  exact hpending.symm

/-- Every word of a written register is known, so its whole content agrees. -/
theorem AgreeOnWritten.reg_eq (h : AgreeOnWritten s s') {r : Reg} (hr : s.isWritten r = true) :
    s'.reg r = s.reg r := by
  obtain ⟨-, -, -, -, -, -, hwords⟩ := h
  exact (reg_eq_of_words fun k => hwords r k (.inl hr)).symm

theorem AgreeOnWritten.withPending (h : AgreeOnWritten s s') (rest : List PortOp) :
    AgreeOnWritten { s with pending := rest } { s' with pending := rest } := by
  obtain ⟨hstatus, hwritten, hmask, -, hreplies, hdraws, hwords⟩ := h
  exact ⟨hstatus, hwritten, hmask, rfl, hreplies, hdraws, hwords⟩

theorem AgreeOnWritten.succeed (h : AgreeOnWritten s s') : AgreeOnWritten s.succeed s'.succeed := by
  obtain ⟨hstatus, hrest⟩ := h
  exact ⟨congrArg statusAfterSuccess hstatus, hrest⟩

theorem AgreeOnWritten.raise (h : AgreeOnWritten s s') (e : ErrorKind) : AgreeOnWritten (s.raise e) (s'.raise e) := by
  obtain ⟨hstatus, hrest⟩ := h
  exact ⟨congrArg (statusAfterError e) hstatus, hrest⟩

theorem AgreeOnWritten.clearStatus (h : AgreeOnWritten s s') : AgreeOnWritten s.clearStatus s'.clearStatus := by
  obtain ⟨-, hrest⟩ := h
  exact ⟨rfl, hrest⟩

theorem AgreeOnWritten.setReg (h : AgreeOnWritten s s') (d : Reg) (v : RegWord) :
    AgreeOnWritten (s.setReg d v) (s'.setReg d v) := by
  obtain ⟨hstatus, hwritten, hmask, hpending, hreplies, hdraws, hwords⟩ := h
  refine ⟨hstatus, congrArg (·.set d true) hwritten, hmask, hpending, hreplies, hdraws, fun r k hk => ?_⟩
  by_cases hr : r = d
  · rw [hr, setReg_reg_same, setReg_reg_same]
  · rw [setReg_reg_other _ _ _ _ hr, setReg_reg_other _ _ _ _ hr]
    exact hwords r k (by simpa [KnownWord, hr] using hk)

/-- A word known after HostWriteWord is the one it wrote or was known before. -/
theorem AgreeOnWritten.hostWriteWord (h : AgreeOnWritten s s') (i : Reg) (k : WordIndex) (x : PortWord) :
    AgreeOnWritten (s.hostWriteWord i k x) (s'.hostWriteWord i k x) := by
  have hw := h.isWritten_eq i
  have hm := h.hostMask_eq i
  obtain ⟨hstatus, hwritten, hmask, hpending, hreplies, hdraws, hwords⟩ := h
  refine ⟨hstatus, ?_, ?_, hpending, hreplies, hdraws, fun r j hj => ?_⟩
  · simp only [State.hostWriteWord, hw, hm, hwritten]
  · simp only [State.hostWriteWord, hm, hmask]
  · rw [hostWriteWord_knownWord_iff] at hj
    rw [hostWriteWord_reg, hostWriteWord_reg]
    split
    · rename_i hr
      rw [getWord_setWord, getWord_setWord]
      split
      · rfl
      · rename_i hjk
        exact hwords i j (hr ▸ hj.resolve_right fun hrj => hjk hrj.2)
    · rename_i hr
      exact hwords r j (hj.resolve_right fun hrj => hr hrj.1)

theorem AgreeOnWritten.hostReadWord (h : AgreeOnWritten s s') {i : Reg} {k : WordIndex} (hk : KnownWord s i k) :
    AgreeOnWritten (s.hostReadWord i k) (s'.hostReadWord i k) := by
  obtain ⟨hstatus, hwritten, hmask, hpending, hreplies, hdraws, hwords⟩ := h
  refine ⟨hstatus, hwritten, hmask, hpending, ?_, hdraws, hwords⟩
  rw [hostReadWord_replies, hostReadWord_replies, hreplies, hwords i k hk]

theorem AgreeOnWritten.hostReadStatus (h : AgreeOnWritten s s') :
    AgreeOnWritten s.hostReadStatus s'.hostReadStatus := by
  obtain ⟨hstatus, hwritten, hmask, hpending, hreplies, hdraws, hwords⟩ := h
  refine ⟨hstatus, hwritten, hmask, hpending, ?_, hdraws, hwords⟩
  rw [hostReadStatus_replies, hostReadStatus_replies, hreplies, State.statusWord, State.statusWord, hstatus]

/-- HostReset draws the same free values in both states, since their counters agree. -/
theorem AgreeOnWritten.hostReset (h : AgreeOnWritten s s') : AgreeOnWritten s.hostReset s'.hostReset := by
  obtain ⟨-, -, -, hpending, hreplies, hdraws, -⟩ := h
  simp [AgreeOnWritten, hpending, hreplies, hdraws]

end

/-! ### Outcomes that agree on what has been written -/

/-- Both outcomes are next states, and these agree on what has been written. -/
def AgreeingNext (o o' : Host.Outcome State Fault Refusal) : Prop :=
  ∃ t t', o = .next t ∧ o' = .next t' ∧ AgreeOnWritten t t'

theorem AgreeOnWritten.agreeingNext {t t' : State} (h : AgreeOnWritten t t') : AgreeingNext (.next t) (.next t') :=
  ⟨t, t', rfl, rfl, h⟩

section
variable {s s' : State} (h : AgreeOnWritten s s')
include h

theorem AgreeOnWritten.complete {n : Nat} (d : Reg) (v : BitVec n) :
    AgreeingNext (s.complete d v) (s'.complete d v) := (h.setReg d _).succeed.agreeingNext

theorem AgreeOnWritten.completeTwo {n : Nat} (d1 d2 : Reg) (v1 v2 : BitVec n) :
    AgreeingNext (s.completeTwo d1 v1 d2 v2) (s'.completeTwo d1 v1 d2 v2) :=
  ((h.setReg d1 _).setReg d2 _).succeed.agreeingNext

theorem AgreeOnWritten.fail (e : ErrorKind) : AgreeingNext (s.fail e) (s'.fail e) := (h.raise e).agreeingNext

end

theorem AgreeingNext.ite {p : Prop} [Decidable p] {a a' b b' : Host.Outcome State Fault Refusal}
    (ha : AgreeingNext a a') (hb : AgreeingNext b b') : AgreeingNext (if p then a else b) (if p then a' else b') := by
  split
  · exact ha
  · exact hb

/-! ### Commands -/

/-- A command's results and its errors depend on its sources only. -/
theorem AgreeOnWritten.exec {s s' : State} (h : AgreeOnWritten s s') (i : Instr)
    (hsrc : ∀ r ∈ sources i, s.isWritten r = true) : AgreeingNext (exec i s) (exec i s') := by
  have hreg : ∀ r ∈ sources i, s'.reg r = s.reg r := fun r hr => h.reg_eq (hsrc r hr)
  cases i with
  | nop => exact h.succeed.agreeingNext
  | clrst => exact h.clearStatus.agreeingNext
  | reserved => exact h.fail _
  | ldi w sg rd imm => exact h.complete _ _
  | divremU w rd rd2 rs1 rs2 =>
    obtain ⟨h1, h2⟩ : s'.reg rs1 = s.reg rs1 ∧ s'.reg rs2 = s.reg rs2 := by simpa [sources] using hreg
    simp only [Machine.exec, execDivremU, State.source, h1, h2]
    exact .ite (h.fail _) (.ite (h.fail _) (h.completeTwo ..))
  | divremS w rd rd2 rs1 rs2 =>
    obtain ⟨h1, h2⟩ : s'.reg rs1 = s.reg rs1 ∧ s'.reg rs2 = s.reg rs2 := by simpa [sources] using hreg
    simp only [Machine.exec, execDivremS, State.source, h1, h2]
    exact .ite (h.fail _) (.ite (h.fail _) (h.completeTwo ..))
  | decacc w rd rs1 digit =>
    have h1 : s'.reg rs1 = s.reg rs1 := by simpa [sources] using hreg
    simp only [Machine.exec, execDecacc, State.source, h1]
    refine .ite (h.fail _) ?_
    split
    · exact h.complete _ _
    · exact h.fail _
  | truncc sg rd rs1 =>
    have h1 : s'.reg rs1 = s.reg rs1 := by simpa [sources] using hreg
    simp only [Machine.exec, execTruncc, h1]
    exact .ite (h.complete _ _) (h.fail _)
  | _ =>
    simp only [sources, List.mem_cons, List.not_mem_nil, or_false, forall_eq_or_imp, forall_eq] at hreg
    simp only [Machine.exec, execAdd, execSub, execMul, execCmpU, execCmpS, execShl, execShr, execShli, execShri,
      execAnd, execOr, execXor, execNot, execExt, execTrunc, execNeg, execAbs, execSign, State.source, hreg]
    exact h.complete _ _

/-! ### Steps -/

/-- The next port operation, if it issues a command, reads written registers only. -/
def SourcesWritten (s : State) : Prop :=
  ∀ c rest i, s.pending = .issue c :: rest → decode c = .ok i → ∀ r ∈ sources i, s.isWritten r = true

theorem strictStep_eq_step {s : State} (hs : SourcesWritten s) : strictStep s = step s := by
  unfold strictStep
  split
  · rename_i c rest hp
    split
    · rename_i i hd
      have hnone : unwrittenSource i s = none := by
        simpa [unwrittenSource, List.find?_eq_none] using hs c rest i hp hd
      rw [hnone]
    · rfl
  · rfl

/-- A checked step that answers a next state has passed the check. -/
theorem sourcesWritten_of_strictStep {s t : State} (h : strictStep s = .next t) : SourcesWritten s := by
  intro c rest i hp hd
  cases hsrc : unwrittenSource i s with
  | none => simpa [unwrittenSource, List.find?_eq_none] using hsrc
  | some r => simp [strictStep, hp, hd, hsrc] at h

theorem AgreeOnWritten.sourcesWritten {s s' : State} (h : AgreeOnWritten s s') (hs : SourcesWritten s) :
    SourcesWritten s' := by
  intro c rest i hp hd r hr
  rw [h.isWritten_eq]
  exact hs c rest i (h.pending_eq ▸ hp) hd r hr

theorem AgreeOnWritten.perform {s s' : State} (h : AgreeOnWritten s s') (op : PortOp)
    (hread : ∀ r k, op = .readWord r k → KnownWord s r k)
    (hsrc : ∀ c i, op = .issue c → decode c = .ok i → ∀ r ∈ sources i, s.isWritten r = true) :
    AgreeingNext (s.perform op) (s'.perform op) := by
  cases op with
  | writeWord i k x => exact (h.hostWriteWord i k x).agreeingNext
  | readWord i k => exact (h.hostReadWord (hread i k rfl)).agreeingNext
  | readStatus => exact h.hostReadStatus.agreeingNext
  | reset => exact h.hostReset.agreeingNext
  | issue c =>
    simp only [State.perform]
    cases hd : decode c with
    | error why =>
      rw [hostIssue_illegal s c why hd, hostIssue_illegal s' c why hd]
      exact (h.raise _).agreeingNext
    | ok i =>
      rw [hostIssue_decoded s c i hd, hostIssue_decoded s' c i hd]
      exact h.exec i (hsrc c i rfl hd)

theorem AgreeOnWritten.step {s s' : State} (h : AgreeOnWritten s s') (hread : ReadsKnownWord s)
    (hsrc : SourcesWritten s) : AgreeingNext (step s) (step s') := by
  cases hp : s.pending with
  | nil =>
    rw [step_ended s hp, step_ended s' (h.pending_eq.trans hp)]
    exact h.agreeingNext
  | cons op rest =>
    rw [step_performs s op rest hp, step_performs s' op rest (h.pending_eq.trans hp)]
    refine (h.withPending rest).perform op (fun r k hop => ?_) fun c i hop => ?_
    · exact hread r k rest (hop ▸ hp)
    · exact hsrc c rest i (hop ▸ hp)

/-- Settles O21: the check passes in both states, and what the step reads is written or known, so it agrees. -/
theorem unwrittenContentsDoNotInfluenceCheckedSteps : Obligations.UnwrittenContentsDoNotInfluenceCheckedSteps := by
  intro s s' t h hread hstep
  have hsrc := sourcesWritten_of_strictStep hstep
  obtain ⟨u, u', hu, hu', hagree⟩ := h.step hread hsrc
  rw [strictStep_eq_step hsrc, hu] at hstep
  cases hstep
  exact ⟨u', by rw [strictStep_eq_step (h.sourcesWritten hsrc), hu'], hagree⟩

end Sys2Proof.Machine
end

section
/-! Command words by their fields (R41, R42): the two formats hold their fields and nothing else, so a word and its
fields determine each other. -/

namespace Sys2Proof

theorem toNat_append_eq_add {m n : Nat} (x : BitVec m) (y : BitVec n) :
    (x ++ y).toNat = x.toNat * 2 ^ n + y.toNat := by
  rw [BitVec.toNat_append, ← Nat.shiftLeft_add_eq_or_of_lt y.isLt, Nat.shiftLeft_eq]

theorem Reg.toBits_toNat (r : Reg) : r.toBits.toNat = r.val := by
  rw [Reg.toBits, BitVec.toNat_ofNat, Nat.mod_eq_of_lt r.isLt]

theorem selectorBits_eq (w : Width) (sg : Signedness) :
    selectorBits w sg = sg.toBit.toNat * 2 ^ 7 + w.toBit.toNat * 2 ^ 6 := by
  cases w <;> cases sg <;> rfl

section
variable (op : BitVec 6) (w : Width) (sg : Signedness) (rd rs1 rs2 rd2 : Reg) (imm : BitVec 16) (c : CommandWord)

/-- The encoder's format R word is the one written as a number. -/
theorem formatR_eq_wordR : formatR op w sg rd rs1 rs2 rd2 = wordR op.toNat w sg rd rs1 rs2 rd2 := by
  apply BitVec.eq_of_toNat_eq
  rw [wordR_toNat _ op.isLt, selectorBits_eq, formatR]
  simp only [toNat_append_eq_add, Reg.toBits_toNat, BitVec.toNat_ofNat]
  omega

/-- The encoder's format I word is the one written as a number. -/
theorem formatI_eq_wordI : formatI op w sg rd rs1 imm = wordI op.toNat w sg rd rs1 imm.toNat := by
  apply BitVec.eq_of_toNat_eq
  rw [wordI_toNat _ op.isLt, selectorBits_eq, formatI]
  simp only [toNat_append_eq_add, Reg.toBits_toNat]
  omega

theorem selectorBits_fields :
    selectorBits (widthField c) (signField c) = fieldAt c 6 1 * 2 ^ 6 + fieldAt c 7 1 * 2 ^ 7 := by
  rw [widthField_eq, signField_eq, selectorBits]
  obtain h6 | h6 : fieldAt c 6 1 = 0 ∨ fieldAt c 6 1 = 1 := Nat.mod_two_eq_zero_or_one _ <;>
  obtain h7 | h7 : fieldAt c 7 1 = 0 ∨ fieldAt c 7 1 = 1 := Nat.mod_two_eq_zero_or_one _ <;>
  simp [h6, h7]

/-- A word is the format R word of the fields given exactly if these are its fields and Z is 0. -/
theorem formatR_eq_iff : formatR op w sg rd rs1 rs2 rd2 = c ↔
    (opField c).toNat = op.toNat ∧ widthField c = w ∧ signField c = sg ∧ rdField c = rd ∧ rs1Field c = rs1 ∧
    rs2Field c = rs2 ∧ rd2Field c = rd2 ∧ zField c = 0#8 := by
  rw [formatR_eq_wordR]
  constructor
  · rintro rfl
    exact wordR_decoded _ op.isLt w sg rd rs1 rs2 rd2
  · rintro ⟨hop, rfl, rfl, rfl, rfl, rfl, rfl, hz⟩
    have hz : fieldAt c 24 8 = 0 := by rw [← zField_toNat, hz]; rfl
    apply BitVec.eq_of_toNat_eq
    rw [wordR_toNat _ op.isLt, selectorBits_fields, ← hop, opField_toNat, rdField, rs1Field, rs2Field, rd2Field]
    simp only [regField_val, fieldAt] at hz ⊢
    omega

/-- A word is the format I word of the fields given exactly if these are its fields. -/
theorem formatI_eq_iff : formatI op w sg rd rs1 imm = c ↔
    (opField c).toNat = op.toNat ∧ widthField c = w ∧ signField c = sg ∧ rdField c = rd ∧ rs1Field c = rs1 ∧
    immField c = imm := by
  rw [formatI_eq_wordI]
  constructor
  · rintro rfl
    exact wordI_decoded _ op.isLt w sg rd rs1 imm
  · rintro ⟨hop, rfl, rfl, rfl, rfl, rfl⟩
    apply BitVec.eq_of_toNat_eq
    rw [wordI_toNat _ op.isLt, selectorBits_fields, ← hop, opField_toNat, rdField, rs1Field, immField_toNat]
    simp only [regField_val, fieldAt]
    omega

@[simp] theorem formatR_fields :
    (opField (formatR op w sg rd rs1 rs2 rd2)).toNat = op.toNat ∧ widthField (formatR op w sg rd rs1 rs2 rd2) = w ∧
    signField (formatR op w sg rd rs1 rs2 rd2) = sg ∧ rdField (formatR op w sg rd rs1 rs2 rd2) = rd ∧
    rs1Field (formatR op w sg rd rs1 rs2 rd2) = rs1 ∧ rs2Field (formatR op w sg rd rs1 rs2 rd2) = rs2 ∧
    rd2Field (formatR op w sg rd rs1 rs2 rd2) = rd2 ∧ zField (formatR op w sg rd rs1 rs2 rd2) = 0#8 :=
  (formatR_eq_iff op w sg rd rs1 rs2 rd2 _).mp rfl

@[simp] theorem formatI_fields :
    (opField (formatI op w sg rd rs1 imm)).toNat = op.toNat ∧ widthField (formatI op w sg rd rs1 imm) = w ∧
    signField (formatI op w sg rd rs1 imm) = sg ∧ rdField (formatI op w sg rd rs1 imm) = rd ∧
    rs1Field (formatI op w sg rd rs1 imm) = rs1 ∧ immField (formatI op w sg rd rs1 imm) = imm :=
  (formatI_eq_iff op w sg rd rs1 imm _).mp rfl

end

/-! ### The reserved row's word: the opcode and the 26 bits above it (R47) -/

theorem append_opField (c : CommandWord) : (c.extractLsb' 6 26 ++ opField c : BitVec 32) = c := by
  apply BitVec.eq_of_toNat_eq
  rw [toNat_append_eq_add, fieldAt_eq, opField_toNat]
  simp only [fieldAt]
  omega

theorem extractLsb'_append_op (rest : BitVec 26) (op : BitVec 6) :
    (rest ++ op : BitVec 32).extractLsb' 6 26 = rest := by
  apply BitVec.eq_of_toNat_eq
  rw [fieldAt_eq, fieldAt, toNat_append_eq_add]
  omega

/-! ### Conditions on fields, as the opcode map writes them (R46) -/

section
variable (c : CommandWord)

@[simp] theorem zField_eq_zero_iff : zField c = 0#8 ↔ fieldAt c 24 8 = 0 := by
  rw [← BitVec.toNat_inj, zField_toNat]
  rfl

@[simp] theorem rd2Field_eq_zero_iff : rd2Field c = 0 ↔ fieldAt c 20 4 = 0 := by
  rw [Fin.ext_iff, rd2Field, regField_val]
  rfl

@[simp] theorem rs2Field_eq_zero_iff : rs2Field c = 0 ↔ fieldAt c 16 4 = 0 := by
  rw [Fin.ext_iff, rs2Field, regField_val]
  rfl

@[simp] theorem rs1Field_eq_zero_iff : rs1Field c = 0 ↔ fieldAt c 12 4 = 0 := by
  rw [Fin.ext_iff, rs1Field, regField_val]
  rfl

@[simp] theorem rdField_eq_rd2Field_iff : rdField c = rd2Field c ↔ fieldAt c 8 4 = fieldAt c 20 4 := by
  rw [Fin.ext_iff, rdField, rd2Field, regField_val, regField_val]

@[simp] theorem widthField_eq_w256_iff : widthField c = .w256 ↔ fieldAt c 6 1 = 1 := by
  simp [widthField_eq]

@[simp] theorem widthField_eq_w128_iff : widthField c = .w128 ↔ fieldAt c 6 1 = 0 := by
  obtain h | h : fieldAt c 6 1 = 0 ∨ fieldAt c 6 1 = 1 := Nat.mod_two_eq_zero_or_one _ <;> simp [widthField_eq, h]

@[simp] theorem signField_eq_signed_iff : signField c = .signed ↔ fieldAt c 7 1 = 1 := by
  simp [signField_eq]

@[simp] theorem signField_eq_unsigned_iff : signField c = .unsigned ↔ fieldAt c 7 1 = 0 := by
  obtain h | h : fieldAt c 7 1 = 0 ∨ fieldAt c 7 1 = 1 := Nat.mod_two_eq_zero_or_one _ <;> simp [signField_eq, h]

end

end Sys2Proof
end

section
/-! The decoder and the encoder are inverse to each other on the well-formed instructions (R46, R48). -/

namespace Sys2Proof

/-! ### What the parts of the decoder accept -/

section
variable {c : CommandWord} {i j : Instr} {k : Except Illegal Instr} {b : Bool} {why : Illegal}

@[simp] theorem require_eq_ok : require b why k = .ok j ↔ b = true ∧ k = .ok j := by
  cases b <;> simp [require]

@[simp] theorem requireSign_eq_ok {sg : Signedness} : requireSign c sg k = .ok j ↔ signField c = sg ∧ k = .ok j := by
  rw [requireSign, require_eq_ok, beq_iff_eq]

@[simp] theorem requireWidth_eq_ok {w : Width} : requireWidth c w k = .ok j ↔ widthField c = w ∧ k = .ok j := by
  rw [requireWidth, require_eq_ok, beq_iff_eq]

@[simp] theorem decodeThree_eq_ok : decodeThree c i = .ok j ↔ zField c = 0#8 ∧ rd2Field c = 0 ∧ i = j := by
  simp only [decodeThree, require_eq_ok, beq_iff_eq, Except.ok.injEq]

@[simp] theorem decodeTwo_eq_ok :
    decodeTwo c i = .ok j ↔ zField c = 0#8 ∧ rd2Field c = 0 ∧ rs2Field c = 0 ∧ i = j := by
  simp only [decodeTwo, require_eq_ok, beq_iff_eq, Except.ok.injEq]

@[simp] theorem decodeDivrem_eq_ok :
    decodeDivrem c i = .ok j ↔ zField c = 0#8 ∧ rdField c ≠ rd2Field c ∧ i = j := by
  simp only [decodeDivrem, require_eq_ok, beq_iff_eq, bne_iff_ne, Except.ok.injEq]

end

/-- Every word of the reserved range decodes to the table's row for it (R47). -/
theorem decode_of_reserved {c : CommandWord} (h : 0x17 ≤ (opField c).toNat) :
    decode c = .ok (.reserved (opField c) (c.extractLsb' 6 26)) := by
  unfold decode
  split
  case h_24 => rfl
  all_goals omega

/-! ### Decoding an encoded instruction -/

/-- Settles O1: the decoder reads back every field of the word's format, and its conditions are well-formedness. -/
theorem decodeInvertsEncode : Obligations.DecodeInvertsEncode := by
  intro i hwf
  cases i with
  | nop => rfl
  | clrst => rfl
  | divremU w rd rd2 rs1 rs2 =>
    have hne : rd ≠ rd2 := bne_iff_ne.mp hwf
    simp [encode, decode, decodeDivrem, require, hne]
  | divremS w rd rd2 rs1 rs2 =>
    have hne : rd ≠ rd2 := bne_iff_ne.mp hwf
    simp [encode, decode, decodeDivrem, require, hne]
  | decacc w rd rs1 digit =>
    have hdigit : digit.toNat ≤ 9 := of_decide_eq_true hwf
    have hwide : digit.toNat % 65536 ≤ 9 := by omega
    simp [encode, decode, hwide]
  | reserved op rest =>
    have hop : 0x17 ≤ op.toNat := of_decide_eq_true hwf
    have hfield : opField (rest ++ op) = op := opField_append rest op
    rw [encode, decode_of_reserved (by rwa [hfield]), hfield, extractLsb'_append_op]
  | _ => simp [encode, decode]

/-! ### Encoding a decoded instruction: one lemma for each form of the decoder's arms -/

section
variable {c : CommandWord} {i j : Instr} (op : BitVec 6) (hop : (opField c).toNat = op.toNat)
include hop

theorem encode_of_decodeThree
    (hi : encode i = formatR op (widthField c) (signField c) (rdField c) (rs1Field c) (rs2Field c) 0)
    (hwf : i.wellFormed = true) (h : decodeThree c i = .ok j) : encode j = c ∧ j.wellFormed = true := by
  obtain ⟨hz, hrd2, rfl⟩ := decodeThree_eq_ok.mp h
  exact ⟨hi.trans ((formatR_eq_iff ..).mpr ⟨hop, rfl, rfl, rfl, rfl, rfl, hrd2, hz⟩), hwf⟩

theorem encode_of_decodeTwo
    (hi : encode i = formatR op (widthField c) (signField c) (rdField c) (rs1Field c) 0 0)
    (hwf : i.wellFormed = true) (h : decodeTwo c i = .ok j) : encode j = c ∧ j.wellFormed = true := by
  obtain ⟨hz, hrd2, hrs2, rfl⟩ := decodeTwo_eq_ok.mp h
  exact ⟨hi.trans ((formatR_eq_iff ..).mpr ⟨hop, rfl, rfl, rfl, rfl, hrs2, hrd2, hz⟩), hwf⟩

theorem encode_of_decodeDivrem
    (hi : encode i = formatR op (widthField c) (signField c) (rdField c) (rs1Field c) (rs2Field c) (rd2Field c))
    (hwf : i.wellFormed = (rdField c != rd2Field c)) (h : decodeDivrem c i = .ok j) :
    encode j = c ∧ j.wellFormed = true := by
  obtain ⟨hz, hne, rfl⟩ := decodeDivrem_eq_ok.mp h
  exact ⟨hi.trans ((formatR_eq_iff ..).mpr ⟨hop, rfl, rfl, rfl, rfl, rfl, rfl, hz⟩), hwf.trans (bne_iff_ne.mpr hne)⟩

theorem encode_of_formatI
    (hi : encode i = formatI op (widthField c) (signField c) (rdField c) (rs1Field c) (immField c)) :
    encode i = c :=
  hi.trans ((formatI_eq_iff ..).mpr ⟨hop, rfl, rfl, rfl, rfl, rfl⟩)

end

theorem encode_of_fixedWord {c word : CommandWord} {i j : Instr} {why : Illegal}
    (h : require (c == word) why (.ok i) = .ok j) (hi : encode i = word) (hwf : i.wellFormed = true) :
    encode j = c ∧ j.wellFormed = true := by
  obtain ⟨hc, hij⟩ := require_eq_ok.mp h
  cases hij
  exact ⟨hi.trans (beq_iff_eq.mp hc).symm, hwf⟩

/-- DECACC's digit keeps the whole immediate, whose high 12 bits are 0 (R46). -/
theorem digit_setWidth {imm : BitVec 16} (h : imm.toNat ≤ 9) : (imm.setWidth 4).setWidth 16 = imm := by
  apply BitVec.eq_of_toNat_eq
  simp only [BitVec.toNat_setWidth]
  omega

/-- Settles O2: in each arm of the decoder, the instruction's operands and the arm's conditions are all the fields of
the word. -/
theorem encodeInvertsDecode : Obligations.EncodeInvertsDecode := by
  intro c i h
  unfold decode at h
  split at h <;> dsimp only at h
  next => exact encode_of_fixedWord h rfl rfl
  next hop => exact encode_of_decodeThree 0x01 hop rfl rfl h
  next hop => exact encode_of_decodeThree 0x02 hop rfl rfl h
  next hop => exact encode_of_decodeThree 0x03 hop rfl rfl h
  next hop =>
    split at h
    next hs => exact encode_of_decodeDivrem 0x04 hop (by rw [hs]; rfl) rfl h
    next hs => exact encode_of_decodeDivrem 0x04 hop (by rw [hs]; rfl) rfl h
  next hop =>
    split at h
    next hs => exact encode_of_decodeThree 0x05 hop (by rw [hs]; rfl) rfl h
    next hs => exact encode_of_decodeThree 0x05 hop (by rw [hs]; rfl) rfl h
  next hop => exact encode_of_decodeThree 0x06 hop rfl rfl h
  next hop =>
    obtain ⟨hs, h⟩ := requireSign_eq_ok.mp h
    exact encode_of_decodeThree 0x07 hop (by rw [hs]; rfl) rfl h
  next hop =>
    cases h
    exact ⟨encode_of_formatI 0x08 hop rfl, rfl⟩
  next hop =>
    obtain ⟨hs, h⟩ := requireSign_eq_ok.mp h
    cases h
    exact ⟨encode_of_formatI 0x09 hop (by rw [hs]; rfl), rfl⟩
  next hop => exact encode_of_decodeThree 0x0A hop rfl rfl h
  next hop => exact encode_of_decodeThree 0x0B hop rfl rfl h
  next hop => exact encode_of_decodeThree 0x0C hop rfl rfl h
  next hop => exact encode_of_decodeTwo 0x0D hop rfl rfl h
  next hop =>
    obtain ⟨hs, h⟩ := requireSign_eq_ok.mp h
    obtain ⟨hd, h⟩ := require_eq_ok.mp h
    cases h
    have hd : (immField c).toNat ≤ 9 := of_decide_eq_true hd
    refine ⟨encode_of_formatI 0x0E hop (by rw [hs, encode, digit_setWidth hd]), decide_eq_true ?_⟩
    rw [BitVec.toNat_setWidth]
    omega
  next hop =>
    obtain ⟨hrs1, h⟩ := require_eq_ok.mp h
    cases h
    exact ⟨encode_of_formatI 0x0F hop (by rw [beq_iff_eq.mp hrs1]; rfl), rfl⟩
  next hop =>
    obtain ⟨hw, h⟩ := requireWidth_eq_ok.mp h
    exact encode_of_decodeTwo 0x10 hop (by rw [hw]; rfl) rfl h
  next hop =>
    obtain ⟨hw, h⟩ := requireWidth_eq_ok.mp h
    obtain ⟨hs, h⟩ := requireSign_eq_ok.mp h
    exact encode_of_decodeTwo 0x11 hop (by rw [hw, hs]; rfl) rfl h
  next hop =>
    obtain ⟨hw, h⟩ := requireWidth_eq_ok.mp h
    exact encode_of_decodeTwo 0x12 hop (by rw [hw]; rfl) rfl h
  next hop => exact encode_of_decodeTwo 0x13 hop rfl rfl h
  next hop =>
    obtain ⟨hs, h⟩ := requireSign_eq_ok.mp h
    exact encode_of_decodeTwo 0x14 hop (by rw [hs]; rfl) rfl h
  next hop => exact encode_of_decodeTwo 0x15 hop rfl rfl h
  next => exact encode_of_fixedWord h rfl rfl
  next =>
    cases h
    refine ⟨append_opField c, decide_eq_true ?_⟩
    simp only [imp_false] at *
    omega

end Sys2Proof
end

section
/-! The decoder against the table of R46: each line allows exactly the words that decode to its command. -/

namespace Sys2Proof

/-! ### Opcodes and the reserved range -/

/-- The family Opcode of Laws/PerInstr.lean, over every instruction. -/
theorem opcode_statement : ∀ i : Instr, Laws.Opcode.Statement i
  | .nop => Laws.Opcode.nop
  | .add .. => Laws.Opcode.add ..
  | .sub .. => Laws.Opcode.sub ..
  | .mul .. => Laws.Opcode.mul ..
  | .divremU .. => Laws.Opcode.divremU ..
  | .divremS .. => Laws.Opcode.divremS ..
  | .cmpU .. => Laws.Opcode.cmpU ..
  | .cmpS .. => Laws.Opcode.cmpS ..
  | .shl .. => Laws.Opcode.shl ..
  | .shr .. => Laws.Opcode.shr ..
  | .shli .. => Laws.Opcode.shli ..
  | .shri .. => Laws.Opcode.shri ..
  | .and .. => Laws.Opcode.and ..
  | .or .. => Laws.Opcode.or ..
  | .xor .. => Laws.Opcode.xor ..
  | .not .. => Laws.Opcode.not ..
  | .decacc .. => Laws.Opcode.decacc ..
  | .ldi .. => Laws.Opcode.ldi ..
  | .ext .. => Laws.Opcode.ext ..
  | .trunc .. => Laws.Opcode.trunc ..
  | .truncc .. => Laws.Opcode.truncc ..
  | .neg .. => Laws.Opcode.neg ..
  | .abs .. => Laws.Opcode.abs ..
  | .sign .. => Laws.Opcode.sign ..
  | .clrst => Laws.Opcode.clrst
  | .reserved .. => Laws.Opcode.reserved ..

theorem opField_encode (i : Instr) : opField (encode i) = opcodeOf i := (opcode_statement i).1

theorem opField_of_decode {c : CommandWord} {i : Instr} (h : decode c = .ok i) : opField c = opcodeOf i := by
  obtain ⟨henc, -⟩ := encodeInvertsDecode c i h
  rw [← henc, opField_encode]

theorem eq_reserved_of_not_legal {i : Instr} (hwf : i.wellFormed = true) (h : i.legal = false) :
    ∃ op rest, i = .reserved op rest := by
  cases i with
  | reserved op rest => exact ⟨op, rest, rfl⟩
  | _ => exact absurd (h.symm.trans hwf) Bool.false_ne_true

/-! ### The lines of R46 -/

/-- The line allows the word exactly if the word has its opcode and decodes to a command of its mnemonic. -/
def OpcodeRow.AgreesWithDecoder (row : OpcodeRow) (c : CommandWord) : Prop :=
  row.allows c = true ↔ fieldAt c 0 6 = row.op ∧ ∃ i, decode c = .ok i ∧ mnemonicOf i = row.mnemonic

section
variable (c : CommandWord)

/-- Of format N, a line allows one word (R43). -/
theorem fixedRow_allows (op : Nat) (m : String) (hop : op < 64) :
    OpcodeRow.allows ⟨op, m, .n, some 0, some 0, false, false, false, .free⟩ c = true ↔ c = BitVec.ofNat 32 op := by
  have hmod : op % 2 ^ 32 = op := Nat.mod_eq_of_lt (by omega)
  rw [← BitVec.toNat_inj, BitVec.toNat_ofNat, hmod]
  simp only [OpcodeRow.allows, fieldAt, Option.all_some, Bool.and_eq_true, beq_iff_eq, and_true]
  omega

/-- Of format N, a line agrees with an arm of the decoder that compares the whole word. -/
theorem fixedRow_agrees {op : Nat} {m : String} {i : Instr} (hop : op < 64) (hm : mnemonicOf i = m)
    (harm : fieldAt c 0 6 = op → decode c = require (c == BitVec.ofNat 32 op) .fixedWord (.ok i)) :
    OpcodeRow.AgreesWithDecoder ⟨op, m, .n, some 0, some 0, false, false, false, .free⟩ c := by
  rw [OpcodeRow.AgreesWithDecoder, fixedRow_allows c _ _ hop]
  constructor
  · intro hc
    have hfield : fieldAt c 0 6 = op := by
      rw [hc, fieldAt, BitVec.toNat_ofNat]
      omega
    exact ⟨hfield, i, (harm hfield).trans (require_eq_ok.mpr ⟨beq_iff_eq.mpr hc, rfl⟩), hm⟩
  · rintro ⟨hfield, j, hj, -⟩
    rw [harm hfield] at hj
    exact beq_iff_eq.mp (require_eq_ok.mp hj).1

theorem nopRow_agrees :
    OpcodeRow.AgreesWithDecoder ⟨0x00, "NOP", .n, some 0, some 0, false, false, false, .free⟩ c :=
  fixedRow_agrees c (i := .nop) (by decide) rfl fun h => by simp [decode, opField_toNat, h]

theorem clrstRow_agrees :
    OpcodeRow.AgreesWithDecoder ⟨0x16, "CLRST", .n, some 0, some 0, false, false, false, .free⟩ c :=
  fixedRow_agrees c (i := .clrst) (by decide) rfl fun h => by simp [decode, opField_toNat, h]

/-- DIVREM's line leaves S free, which the decoder tells apart (R64, R65). -/
theorem divremRow_agrees :
    OpcodeRow.AgreesWithDecoder ⟨0x04, "DIVREM", .r, none, none, false, false, false, .rdDiffersFromRd2⟩ c := by
  cases hs : signField c <;>
    simp +contextual [OpcodeRow.AgreesWithDecoder, OpcodeRow.allows, decode, opField_toNat, mnemonicOf, and_assoc, hs]

/-- CMP's line leaves S free, which the decoder tells apart (R70, R71). -/
theorem cmpRow_agrees : OpcodeRow.AgreesWithDecoder ⟨0x05, "CMP", .r, none, none, false, false, true, .free⟩ c := by
  cases hs : signField c <;>
    simp +contextual [OpcodeRow.AgreesWithDecoder, OpcodeRow.allows, decode, opField_toNat, mnemonicOf, and_assoc, hs]

/-- Line by line; the lines not named above differ from their arms only in how they write the field conditions. -/
theorem opcodeMap_agrees : ∀ row ∈ opcodeMap, row.AgreesWithDecoder c := by
  simp only [opcodeMap, List.cons_append, List.nil_append, List.forall_mem_cons]
  refine ⟨nopRow_agrees c, ?_, ?_, ?_, divremRow_agrees c, cmpRow_agrees c, ?_, ?_, ?_, ?_, ?_, ?_, ?_, ?_, ?_, ?_, ?_,
    ?_, ?_, ?_, ?_, ?_, clrstRow_agrees c, List.forall_mem_nil _⟩
  all_goals
    simp +contextual [OpcodeRow.AgreesWithDecoder, OpcodeRow.allows, decode, opField_toNat, immField_toNat, mnemonicOf,
      and_assoc]

end

theorem opcodeMap_op_injective : ∀ r1 ∈ opcodeMap, ∀ r2 ∈ opcodeMap, r1.op = r2.op → r1 = r2 := by
  have hnodup : (opcodeMap.map OpcodeRow.op).Nodup := by decide
  exact fun r1 h1 r2 h2 h => List.inj_on_of_nodup_map hnodup h1 h2 h

theorem exists_row_of_legal {i : Instr} (h : i.legal = true) :
    ∃ row ∈ opcodeMap, row.op = (opcodeOf i).toNat ∧ row.mnemonic = mnemonicOf i := by
  cases i with
  | reserved op rest => exact absurd h Bool.false_ne_true
  | _ => simp [opcodeMap, opcodeOf, mnemonicOf]

/-- Every line's command is a legal one: the reserved range has no line. -/
theorem legal_of_row {i : Instr} {row : OpcodeRow} (hrow : row ∈ opcodeMap) (hwf : i.wellFormed = true)
    (hm : mnemonicOf i = row.mnemonic) : i.legal = true := by
  by_contra hlegal
  obtain ⟨op, rest, rfl⟩ := eq_reserved_of_not_legal hwf (Bool.eq_false_of_not_eq_true hlegal)
  have hnone : ∀ row ∈ opcodeMap, "(reserved)" ≠ row.mnemonic := by decide
  exact hnone row hrow hm

/-- Settles O3: each line agrees with the decoder, and a word's opcode names at most one line. -/
theorem decoderAcceptsExactlyTheOpcodeMap : Obligations.DecoderAcceptsExactlyTheOpcodeMap := by
  refine fun c => ⟨⟨?_, ?_⟩, fun row hrow h => ((opcodeMap_agrees c row hrow).mp h).2, fun r1 h1 r2 h2 ha1 ha2 => ?_⟩
  · rintro ⟨row, hrow, h⟩
    obtain ⟨-, i, hi, hm⟩ := (opcodeMap_agrees c row hrow).mp h
    exact ⟨i, hi, legal_of_row hrow (encodeInvertsDecode c i hi).2 hm⟩
  · rintro ⟨i, hi, hlegal⟩
    obtain ⟨row, hrow, hop, hm⟩ := exists_row_of_legal hlegal
    refine ⟨row, hrow, (opcodeMap_agrees c row hrow).mpr ⟨?_, i, hi, hm.symm⟩⟩
    rw [hop, ← opField_toNat, opField_of_decode hi]
  · obtain ⟨hop1, -⟩ := (opcodeMap_agrees c r1 h1).mp ha1
    obtain ⟨hop2, -⟩ := (opcodeMap_agrees c r2 h2).mp ha2
    exact opcodeMap_op_injective r1 h1 r2 h2 (hop1.symm.trans hop2)

end Sys2Proof
end

section
/-! Issuing a command word (R47, R49), words written out bit by bit, and the pseudo-instructions (R53). -/

namespace Sys2Proof.Machine

/-- Settles O6: the step performs the HostIssue, which decodes the word. -/
theorem stepRunsTheDecodedCommand : Obligations.StepRunsTheDecodedCommand := by
  intro s c rest i hp hi
  rw [step_performs s _ rest hp]
  exact hostIssue_decoded _ c i hi

/-- A word that no line of the map allows is rejected by the decoder or reserved; both raise the same error. -/
theorem hostIssue_of_not_legalWord (s : State) {c : CommandWord} (h : ¬ LegalWord c) :
    s.hostIssue c = .next (s.raise .illegalCommand) := by
  cases hd : decode c with
  | error why => exact hostIssue_illegal s c why hd
  | ok i =>
    have hlegal : i.legal = false := by
      by_contra hne
      exact h ((decoderAcceptsExactlyTheOpcodeMap c).1.mpr ⟨i, hd, Bool.eq_true_of_not_eq_false hne⟩)
    obtain ⟨op, rest, rfl⟩ := eq_reserved_of_not_legal (encodeInvertsDecode c i hd).2 hlegal
    exact hostIssue_decoded s c _ hd

/-- Settles O4: the step is the HostIssue of a word that no line allows. -/
theorem illegalWordsRaiseIllegalCommand : Obligations.IllegalWordsRaiseIllegalCommand := by
  intro s c rest hp h
  refine ⟨_, ?_, raise_raises _ _⟩
  rw [step_performs s _ rest hp]
  exact hostIssue_of_not_legalWord _ h

/-- Settles O7: the decoder run on each of the seven words. -/
theorem wordsWrittenOutDecode : Obligations.WordsWrittenOutDecode := by
  refine ⟨?_, ?_, ?_, ?_, ?_, ?_, ?_⟩ <;> decide

/-! ### Pseudo-instructions -/

/-- A command that completes with one result leaves the register content the result is zero-extended to. -/
theorem completes_of_exec {i : Instr} {s : State} {d : Reg} {x : RegWord} {n : Nat} (v : BitVec n)
    (hexec : exec i s = s.complete d v) (hv : v.setWidth 256 = x) :
    ∃ t, exec i s = .next t ∧ Completes s t [(d, x)] := by
  rw [hexec, ← hv]
  exact complete_completes s d v

theorem or_source_self_setWidth (s : State) (w : Width) (rs : Reg) :
    (s.source w rs ||| s.source w rs).setWidth 256 = enc w (uval w (s.reg rs)) := by
  rw [BitVec.or_self, enc_uval, State.source]

theorem immediate_zero_setWidth (w : Width) : (immediate w.bits .unsigned 0#16).setWidth 256 = 0#256 := by
  cases w <;> decide

/-- Sign-extending the immediate -1 sets all W low bits. -/
theorem immediate_neg_one_setWidth (w : Width) : (immediate w.bits .signed 0xFFFF#16).setWidth 256 = enc w (maxU w) := by
  cases w <;> decide

/-- Settles O58: each expansion completes with one result, whose register content is the one R53 gives. -/
theorem pseudoInstructionsHaveTheirEffects : Obligations.PseudoInstructionsHaveTheirEffects := by
  refine fun w rd rs s => ⟨⟨rfl, rfl, rfl, rfl⟩, ?_, ?_, ?_, ?_⟩
  · exact completes_of_exec _ rfl (or_source_self_setWidth s w rs)
  · exact completes_of_exec _ rfl (immediate_zero_setWidth w)
  · exact completes_of_exec _ rfl (immediate_neg_one_setWidth w)
  · exact completes_of_exec _ rfl (enc_uval .w128 (s.reg rs)).symm

end Sys2Proof.Machine
end

section
/-! Integers as W-bit vectors (R10): the W-bit vector of a sum, a difference or an unsigned reading, and the register
content it leaves. -/

namespace Sys2Proof

theorem ofInt_sub {n : Nat} (x y : Int) : BitVec.ofInt n (x - y) = BitVec.ofInt n x - BitVec.ofInt n y := by
  rw [Int.sub_eq_add_neg, BitVec.ofInt_add, BitVec.ofInt_neg, BitVec.sub_eq_add_neg]

theorem ofInt_toNat {n : Nat} (v : BitVec n) : BitVec.ofInt n v.toNat = v := by
  rw [BitVec.ofInt_natCast, BitVec.ofNat_toNat, BitVec.setWidth_eq]

theorem ofInt_congr {n : Nat} {x y : Int} (h : x ≡ y [ZMOD 2 ^ n]) : BitVec.ofInt n x = BitVec.ofInt n y := by
  apply BitVec.eq_of_toNat_eq
  rw [BitVec.toNat_ofInt, BitVec.toNat_ofInt, Nat.cast_pow, Nat.cast_ofNat, h.eq]

/-- The W-bit vector of an integer, zero-extended to a register, is `enc` of that integer. -/
theorem setWidth_ofInt (w : Width) (n : Int) : (BitVec.ofInt w.bits n).setWidth 256 = enc w n := by
  rw [setWidth_eq_enc_toInt, BitVec.toInt_ofInt]
  apply enc_congr
  exact_mod_cast Int.bmod_emod (x := n) (m := 2 ^ w.bits)

namespace Machine

theorem ofInt_uval (s : State) (w : Width) (r : Reg) : BitVec.ofInt w.bits (uval w (s.reg r)) = s.source w r := by
  rw [← source_toNat, ofInt_toNat]

theorem ofInt_sval (s : State) (w : Width) (r : Reg) : BitVec.ofInt w.bits (sval w (s.reg r)) = s.source w r := by
  rw [← source_toInt, BitVec.ofInt_toInt]

end Machine

end Sys2Proof
end

section
/-! The word datapaths of the adder (R54) and the subtractor (R57): one turn of each loop is exact once the carry or the
borrow out is counted, so the loop is right modulo the words' width. -/

namespace Sys2Proof

/-! ### Word lists modulo a power of 2 -/

theorem wordsValue_cons {n : Nat} (x : BitVec n) (ws : List (BitVec n)) :
    wordsValue (x :: ws) = x.toNat + 2 ^ n * wordsValue ws := rfl

/-- A word put below words known modulo 2^(nk) gives the whole modulo 2^(n(k+1)). -/
theorem wordsValue_cons_modEq {n : Nat} {x : BitVec n} {ws : List (BitVec n)} {k : Nat} {y z : Int}
    (h : (wordsValue ws : Int) ≡ y [ZMOD 2 ^ (n * k)]) (hz : x.toNat + 2 ^ n * y = z) :
    (wordsValue (x :: ws) : Int) ≡ z [ZMOD 2 ^ (n * (k + 1))] := by
  rw [wordsValue_cons, ← hz, Nat.mul_succ, Nat.add_comm, pow_add]
  push_cast
  exact (h.mul_left' (c := 2 ^ n)).add_left _

/-- Words known modulo 2^W, read back as a W-bit vector. -/
theorem ofNat_wordsValue {n : Nat} {w : Width} (hdvd : n ∣ w.bits) {v : BitVec w.bits} {ws : List (BitVec n)}
    {y : Int} (h : (wordsValue ws : Int) ≡ y [ZMOD 2 ^ (n * (wordsOf n v).length)]) :
    BitVec.ofNat w.bits (wordsValue ws) = BitVec.ofInt w.bits y := by
  rw [wordsOf_length, Nat.mul_div_cancel' hdvd] at h
  rw [← BitVec.ofInt_natCast]
  exact ofInt_congr h

namespace Machine

/-! ### The adder -/

/-- One turn of R54's loop: the sum word and the carry out are the whole 65-bit sum. -/
theorem sumWord_add_carry (a b : BitVec 64) (c : Bool) {t : BitVec 65}
    (ht : t = a.setWidth 65 + b.setWidth 65 + (BitVec.ofBool c).setWidth 65) :
    (t.setWidth 64).toNat + 2 ^ 64 * (t.getLsbD 64).toNat = a.toNat + b.toNat + c.toNat := by
  have hsum : t.toNat = a.toNat + b.toNat + c.toNat := by
    have hc := c.toNat_lt
    rw [ht]
    simp only [BitVec.toNat_add, BitVec.toNat_setWidth, BitVec.toNat_ofBool]
    omega
  rw [← hsum, BitVec.toNat_setWidth, ← BitVec.testBit_toNat, Nat.toNat_testBit]
  omega

theorem rippleAdd_modEq {as bs : List (BitVec 64)} (c : Bool) (h : as.length = bs.length) :
    (wordsValue (rippleAdd as bs c) : Int) ≡ wordsValue as + wordsValue bs + c.toNat [ZMOD 2 ^ (64 * as.length)] := by
  induction as generalizing bs c with
  | nil => exact Int.modEq_one
  | cons a as ih =>
    obtain _ | ⟨b, bs⟩ := bs
    · cases h
    · rw [rippleAdd]
      refine wordsValue_cons_modEq (ih _ (Nat.succ.inj h)) ?_
      have hturn := sumWord_add_carry a b c rfl
      rw [wordsValue_cons, wordsValue_cons]
      zify at hturn ⊢
      linear_combination hturn

/-- Settles O47: the loop adds modulo 2^W, and the words of a value make the value. -/
theorem rippleAdderComputesTheSum : Obligations.RippleAdderComputesTheSum := by
  intro w a b
  have hdvd : 64 ∣ w.bits := w.dvd_bits (by decide)
  have hsum := rippleAdd_modEq (as := wordsOf 64 a) (bs := wordsOf 64 b) false (by simp only [wordsOf_length])
  rw [ofNat_wordsValue hdvd hsum, wordsValue_wordsOf a hdvd, wordsValue_wordsOf b hdvd, Bool.toNat_false, Nat.cast_zero,
    Int.add_zero, ← Nat.cast_add, BitVec.ofInt_natCast]

/-! ### The subtractor -/

/-- One turn of R57's loop: the difference word less the borrow out is the whole difference. -/
theorem differenceWord_sub_borrow (a b : BitVec 64) {borrow t : Int} (hborrow : borrow = 0 ∨ borrow = 1)
    (ht : t = a.toNat - b.toNat - borrow) :
    ((BitVec.ofInt 64 t).toNat : Int) - 2 ^ 64 * (if t < 0 then 1 else 0) = t := by
  rw [BitVec.toNat_ofInt]
  split <;> omega

theorem borrowSub_modEq {as bs : List (BitVec 64)} {borrow : Int} (hborrow : borrow = 0 ∨ borrow = 1)
    (h : as.length = bs.length) :
    (wordsValue (borrowSub as bs borrow) : Int) ≡ wordsValue as - wordsValue bs - borrow
      [ZMOD 2 ^ (64 * as.length)] := by
  induction as generalizing bs borrow with
  | nil => exact Int.modEq_one
  | cons a as ih =>
    obtain _ | ⟨b, bs⟩ := bs
    · cases h
    · rw [borrowSub]
      refine wordsValue_cons_modEq (ih (by split <;> simp) (Nat.succ.inj h)) ?_
      have hturn := differenceWord_sub_borrow a b hborrow rfl
      rw [wordsValue_cons, wordsValue_cons]
      push_cast
      linear_combination hturn

theorem borrowSub_wordsOf (w : Width) (a b : BitVec w.bits) :
    BitVec.ofNat w.bits (wordsValue (borrowSub (wordsOf 64 a) (wordsOf 64 b) 0)) = a - b := by
  have hdvd : 64 ∣ w.bits := w.dvd_bits (by decide)
  have hdiff := borrowSub_modEq (as := wordsOf 64 a) (bs := wordsOf 64 b) (.inl rfl) (by simp only [wordsOf_length])
  rw [ofNat_wordsValue hdvd hdiff, wordsValue_wordsOf a hdvd, wordsValue_wordsOf b hdvd, Int.sub_zero, ofInt_sub,
    ofInt_toNat, ofInt_toNat]

end Machine

end Sys2Proof
end

section
/-! ADD and SUB (R56, R57): the result of one command, and the group laws as runs of commands (R58). -/

namespace Sys2Proof

/-- A format R word written as a number decodes to the instruction it encodes. -/
theorem decode_wordR {i : Instr} (op : BitVec 6) {w : Width} {sg : Signedness} {rd rs1 rs2 rd2 : Reg}
    (hi : encode i = formatR op w sg rd rs1 rs2 rd2) (hwf : i.wellFormed = true) :
    decode (wordR op.toNat w sg rd rs1 rs2 rd2) = .ok i := by
  rw [← formatR_eq_wordR, ← hi]
  exact decodeInvertsEncode i hwf

namespace Machine

theorem negate_eq_neg {n : Nat} (a : BitVec n) : negate a = -a := (BitVec.neg_eq_not_add a).symm

/-! ### The result of one command -/

/-- A command whose W-bit result is n and m modulo 2^W writes n modulo 2^W, which read signed is m wrapped. -/
theorem completes_wrapped {i : Instr} {s : State} {w : Width} {d : Reg} {v : BitVec w.bits} {n m : Int}
    (hexec : exec i s = s.complete d v) (hn : BitVec.ofInt w.bits n = v) (hm : BitVec.ofInt w.bits m = v) :
    ∃ t, exec i s = .next t ∧ Completes s t [(d, enc w n)] ∧ sval w (t.reg d) = m.bmod (2 ^ w.bits) := by
  have henc : enc w n = enc w m := by rw [← setWidth_ofInt, ← setWidth_ofInt, hn, hm]
  obtain ⟨t, ht, hc⟩ := completes_of_exec v hexec (by rw [← hn, setWidth_ofInt])
  have hreg : t.reg d = enc w n := (hc.1 _ List.mem_cons_self).1
  exact ⟨t, ht, hc, by rw [hreg, henc, sval_enc]⟩

/-- Settles O23: the sum of the sources is the sum of their readings, unsigned and signed. -/
theorem addWritesTheWrappedSum : Obligations.AddWritesTheWrappedSum := by
  refine fun w sg rd rs1 rs2 s => ⟨decode_wordR 0x01 rfl rfl, completes_wrapped rfl ?_ ?_⟩
  · rw [BitVec.ofInt_add, ofInt_uval, ofInt_uval]
  · rw [BitVec.ofInt_add, ofInt_sval, ofInt_sval]

/-- Settles O24: the difference of the sources is the difference of their readings, and what the borrow loop gives. -/
theorem subWritesTheWrappedDifference : Obligations.SubWritesTheWrappedDifference := by
  refine ⟨fun w sg rd rs1 rs2 s => ⟨decode_wordR 0x02 rfl rfl, completes_wrapped rfl ?_ ?_⟩,
    fun w a b => ⟨borrowSub_wordsOf w a b, ?_⟩⟩
  · rw [ofInt_sub, ofInt_uval, ofInt_uval]
  · rw [ofInt_sub, ofInt_sval, ofInt_sval]
  · rw [negate_eq_neg, BitVec.sub_eq_add_neg]

/-! ### What a later command reads -/

section
variable {s t : State} {w : Width} {d r : Reg} {n : Nat} {v : BitVec n}

theorem complete_reg_same (h : s.complete d v = .next t) : t.reg d = v.setWidth 256 := by
  cases h
  exact setReg_reg_same s d _

theorem complete_reg_other (h : s.complete d v = .next t) (hr : r ≠ d) : t.reg r = s.reg r := by
  cases h
  exact setReg_reg_other s d r _ hr

theorem complete_source_same {v : BitVec w.bits} (h : s.complete d v = .next t) : t.source w d = v := by
  rw [State.source, complete_reg_same h, BitVec.setWidth_setWidth_of_le _ w.bits_le, BitVec.setWidth_eq]

theorem complete_source_other (h : s.complete d v = .next t) (hr : r ≠ d) : t.source w r = s.source w r := by
  rw [State.source, complete_reg_other h hr, State.source]

end

/-! ### The group laws -/

section
variable {w : Width} {sg : Signedness} {d a b : Reg} {s t : State}

theorem add_reg (h : exec (.add w sg d a b) s = .next t) :
    t.reg d = (s.source w a + s.source w b).setWidth 256 :=
  complete_reg_same h

theorem add_reg_enc (h : exec (.add w sg d a b) s = .next t) :
    t.reg d = enc w (uval w (s.reg a) + uval w (s.reg b)) := by
  rw [add_reg h, ← ofInt_uval, ← ofInt_uval, ← BitVec.ofInt_add, setWidth_ofInt]

theorem sub_reg_enc (h : exec (.sub w sg d a b) s = .next t) :
    t.reg d = enc w (uval w (s.reg a) - uval w (s.reg b)) := by
  rw [complete_reg_same h, ← ofInt_uval, ← ofInt_uval, ← ofInt_sub, setWidth_ofInt]

end

theorem enc_maxU_add_one (w : Width) : enc w (maxU w + 1) = 0 := by cases w <;> decide

theorem uval_enc_zero_sub_one (w : Width) : uval w (enc w (0 - 1)) = maxU w := by cases w <;> decide

/-- Settles O26: each law is one of W-bit vectors, once every command's result is written in the sources of the first
state. -/
theorem additionObeysTheWraparoundGroupLaws : Obligations.AdditionObeysTheWraparoundGroupLaws := by
  refine fun w sg a b c d e s t u t' u' => ⟨?_, ?_, ?_, ?_, ?_⟩
  · intro hda hneg hadd
    have hd : t.source w d = negate (s.source w a) := complete_source_same hneg
    have ha : t.source w a = s.source w a := complete_source_other hneg hda.symm
    rw [add_reg hadd, ha, hd, negate_eq_neg, BitVec.add_right_neg, BitVec.setWidth_zero]
    rfl
  · intro ha hb hadd
    rw [add_reg_enc hadd, ha, hb]
    exact enc_maxU_add_one w
  · intro ha hb hsub
    rw [sub_reg_enc hsub, ha, hb]
    exact uval_enc_zero_sub_one w
  · exact congrArg (s.complete d) (BitVec.add_comm _ _)
  · intro hda hdc hab habc hbc habc'
    have hd : t.source w d = s.source w a + s.source w b := complete_source_same hab
    have hc : t.source w c = s.source w c := complete_source_other hab hdc.symm
    have hd' : t'.source w d = s.source w b + s.source w c := complete_source_same hbc
    have ha' : t'.source w a = s.source w a := complete_source_other hbc hda.symm
    rw [add_reg habc, add_reg habc', hd, hc, hd', ha', BitVec.add_assoc]

end Machine

end Sys2Proof
end

section
/-! The schoolbook multiplier (R59): one turn of the inner loop fits the 64-bit accumulator, a row adds one limb's
multiple of the second operand, and the rows add up to the whole product. -/

namespace Sys2Proof

/-- The k lowest words of a list hold its value modulo 2^(nk). -/
theorem wordsValue_take {n : Nat} (ws : List (BitVec n)) (k : Nat) :
    wordsValue (ws.take k) = wordsValue ws % 2 ^ (n * k) := by
  induction k generalizing ws with
  | zero => rw [List.take_zero, Nat.mul_zero, Nat.pow_zero, Nat.mod_one, wordsValue, List.foldr_nil]
  | succ k ih =>
    cases ws with
    | nil => rw [List.take_nil, wordsValue, List.foldr_nil, Nat.zero_mod]
    | cons x ws =>
      have hx : (x.toNat + 2 ^ n * wordsValue ws) % 2 ^ n = x.toNat := by
        rw [Nat.add_mul_mod_self_left, Nat.mod_eq_of_lt x.isLt]
      have hws : (x.toNat + 2 ^ n * wordsValue ws) / 2 ^ n = wordsValue ws := by
        rw [Nat.add_mul_div_left _ _ (Nat.two_pow_pos n), Nat.div_eq_of_lt x.isLt, Nat.zero_add]
      rw [List.take_succ_cons, wordsValue_cons, wordsValue_cons, ih, Nat.mul_succ, Nat.add_comm (n * k), Nat.pow_add,
        Nat.mod_mul, hx, hws]

theorem wordsValue_replicate_zero (n k : Nat) : wordsValue (List.replicate k 0#n) = 0 := by
  induction k with
  | zero => rfl
  | succ k ih => rw [List.replicate_succ, wordsValue_cons, ih, BitVec.toNat_zero, Nat.mul_zero]

namespace Machine

/-- The accumulator t of R59's inner loop. -/
def productAccumulator (a b p c : BitVec 32) : BitVec 64 :=
  a.setWidth 64 * b.setWidth 64 + p.setWidth 64 + c.setWidth 64

theorem mulRow_cons_cons (a b p c : BitVec 32) (bs ps : List (BitVec 32)) :
    mulRow a (b :: bs) (p :: ps) c =
      (productAccumulator a b p c).setWidth 32 :: mulRow a bs ps ((productAccumulator a b p c).extractLsb' 32 32) := rfl

/-- 64 bits are enough: (2^32 - 1)² + 2·(2^32 - 1) is 2^64 - 1. -/
theorem productAccumulator_toNat (a b p c : BitVec 32) :
    (productAccumulator a b p c).toNat = a.toNat * b.toNat + p.toNat + c.toNat := by
  have hab : a.toNat * b.toNat ≤ (2 ^ 32 - 1) * (2 ^ 32 - 1) :=
    Nat.mul_le_mul (Nat.le_sub_one_of_lt a.isLt) (Nat.le_sub_one_of_lt b.isLt)
  simp only [productAccumulator, BitVec.toNat_add, BitVec.toNat_mul,
    BitVec.toNat_setWidth_of_le (show 32 ≤ 64 by decide)]
  omega

/-- One turn of R59's inner loop: the limb left and the carry are the whole sum. -/
theorem productLimb_add_carry (a b p c : BitVec 32) :
    ((productAccumulator a b p c).setWidth 32).toNat +
        2 ^ 32 * ((productAccumulator a b p c).extractLsb' 32 32).toNat =
      a.toNat * b.toNat + p.toNat + c.toNat := by
  rw [← productAccumulator_toNat, BitVec.toNat_setWidth, BitVec.extractLsb'_toNat, Nat.shiftRight_eq_div_pow]
  omega

/-- A row works on one limb more than `bs` has, overwriting the last with the carry, and leaves the limbs above alone.
What it writes is the limbs below the overwritten one plus `a` times `bs`, with nothing lost. -/
theorem mulRow_spec (a z : BitVec 32) (zs : List (BitVec 32)) {bs ps : List (BitVec 32)} (c : BitVec 32)
    (h : ps.length = bs.length) :
    ∃ q qs, mulRow a bs (ps ++ z :: zs) c = q :: (qs ++ zs) ∧ qs.length = bs.length ∧
      wordsValue (q :: qs) = a.toNat * wordsValue bs + wordsValue ps + c.toNat := by
  induction bs generalizing ps c with
  | nil =>
    obtain rfl := List.eq_nil_of_length_eq_zero h
    exact ⟨c, [], rfl, rfl, by simp [wordsValue]⟩
  | cons b bs ih =>
    obtain _ | ⟨p, ps⟩ := ps
    · cases h
    · obtain ⟨q, qs, hrow, hlen, hval⟩ := ih ((productAccumulator a b p c).extractLsb' 32 32) (Nat.succ.inj h)
      refine ⟨(productAccumulator a b p c).setWidth 32, q :: qs, ?_, congrArg Nat.succ hlen, ?_⟩
      · rw [List.cons_append, mulRow_cons_cons, hrow, List.cons_append]
      · have hturn := productLimb_add_carry a b p c
        rw [wordsValue_cons, hval, wordsValue_cons, wordsValue_cons]
        linear_combination hturn

/-- The rows add the product to the limbs that lie where the first row begins. -/
theorem wordsValue_mulRows {as bs ps zs : List (BitVec 32)} (hps : ps.length = bs.length)
    (hzs : zs.length = as.length) :
    wordsValue (mulRows as bs (ps ++ zs)) = wordsValue as * wordsValue bs + wordsValue ps := by
  induction as generalizing ps zs with
  | nil =>
    obtain rfl := List.eq_nil_of_length_eq_zero hzs
    simp [mulRows, wordsValue]
  | cons a as ih =>
    obtain _ | ⟨z, zs⟩ := zs
    · cases hzs
    · obtain ⟨q, qs, hrow, hlen, hval⟩ := mulRow_spec a z zs 0#32 hps
      rw [wordsValue_cons, BitVec.toNat_zero] at hval
      rw [mulRows, hrow, wordsValue_cons, ih hlen (Nat.succ.inj hzs), wordsValue_cons]
      linear_combination hval

theorem wordsValue_schoolbookProduct (as bs : List (BitVec 32)) :
    wordsValue (schoolbookProduct as bs) = wordsValue as * wordsValue bs := by
  rw [schoolbookProduct, Nat.add_comm, ← List.replicate_append_replicate,
    wordsValue_mulRows List.length_replicate List.length_replicate, wordsValue_replicate_zero, Nat.add_zero]

/-- Settles O48: the product of the limbs' values is the whole product, and the low half of its limbs is that
modulo 2^W. -/
theorem schoolbookMultiplierComputesTheProduct : Obligations.SchoolbookMultiplierComputesTheProduct := by
  intro w a b
  have hdvd : 32 ∣ w.bits := w.dvd_bits (by decide)
  have hproduct : wordsValue (schoolbookProduct (wordsOf 32 a) (wordsOf 32 b)) = a.toNat * b.toNat := by
    rw [wordsValue_schoolbookProduct, wordsValue_wordsOf a hdvd, wordsValue_wordsOf b hdvd]
  refine ⟨hproduct, BitVec.eq_of_toNat_eq ?_⟩
  rw [schoolbookMul, wordsValue_take, hproduct, Nat.mul_div_cancel' hdvd, BitVec.toNat_ofNat, Nat.mod_mod,
    BitVec.toNat_mul]

end Machine

end Sys2Proof
end

section
/-! MUL (R60): the result of one command, and the ring laws as runs of commands (R61). -/

namespace Sys2Proof.Machine

/-- Settles O25: the product of the sources is the product of their readings, unsigned and signed. -/
theorem mulWritesTheLowHalfOfTheProduct : Obligations.MulWritesTheLowHalfOfTheProduct := by
  refine fun w sg rd rs1 rs2 s => ⟨decode_wordR 0x03 rfl rfl, completes_wrapped rfl ?_ ?_⟩
  · rw [BitVec.ofInt_mul, ofInt_uval, ofInt_uval]
  · rw [BitVec.ofInt_mul, ofInt_sval, ofInt_sval]

theorem mul_reg {w : Width} {sg : Signedness} {d a b : Reg} {s t : State} (h : exec (.mul w sg d a b) s = .next t) :
    t.reg d = (s.source w a * s.source w b).setWidth 256 :=
  complete_reg_same h

/-- Settles O27: each law is one of W-bit vectors, once every command's result is written in the sources of the first
state. -/
theorem multiplicationObeysTheRingLaws : Obligations.MultiplicationObeysTheRingLaws := by
  refine fun w sg a b c d e f s t u t' u' v' => ⟨?_, ?_, ?_⟩
  · exact congrArg (s.complete d) (BitVec.mul_comm _ _)
  · intro hda hdc hab habc hbc habc'
    have hd : t.source w d = s.source w a * s.source w b := complete_source_same hab
    have hc : t.source w c = s.source w c := complete_source_other hab hdc.symm
    have hd' : t'.source w d = s.source w b * s.source w c := complete_source_same hbc
    have ha' : t'.source w a = s.source w a := complete_source_other hbc hda.symm
    rw [mul_reg habc, mul_reg habc', hd, hc, hd', ha', BitVec.mul_assoc]
  · intro hda hdc hed hbc habc hab hac hsum
    have ha : t.source w a = s.source w a := complete_source_other hbc hda.symm
    have hd : t.source w d = s.source w b + s.source w c := complete_source_same hbc
    have ha' : t'.source w a = s.source w a := complete_source_other hab hda.symm
    have hc' : t'.source w c = s.source w c := complete_source_other hab hdc.symm
    have hd' : u'.source w d = s.source w a * s.source w b :=
      (complete_source_other hac hed.symm).trans (complete_source_same hab)
    have he' : u'.source w e = s.source w a * s.source w c := by rw [complete_source_same hac, ha', hc']
    rw [mul_reg habc, add_reg hsum, ha, hd, hd', he', BitVec.mul_add]

end Sys2Proof.Machine
end

section
/-! DIVREM (R64, R65): the two results of one command, its error on a zero divisor, and the division identity (R67). -/

namespace Sys2Proof

/-- A DIVREM word that names one register for both results is rejected (R46). -/
theorem decode_divrem_sameDestination (w : Width) (sg : Signedness) (rd rs1 rs2 : Reg) :
    decode (wordR 0x04 w sg rd rs1 rs2 rd) = .error .sameDestination := by
  obtain ⟨hop, -, hsg, hrd, -, -, hrd2, hz⟩ := wordR_decoded 0x04 (by decide) w sg rd rs1 rs2 rd
  cases sg <;> simp [decode, decodeDivrem, require, hop, hsg, hrd, hrd2, hz, -zField_eq_zero_iff]

namespace Machine

/-! ### Two results -/

/-- A command that completes with two results leaves the register contents the results are zero-extended to. -/
theorem completesTwo_of_exec {i : Instr} {s : State} {d1 d2 : Reg} {x1 x2 : RegWord} {n : Nat} {v1 v2 : BitVec n}
    (hne : d1 ≠ d2) (hexec : exec i s = s.completeTwo d1 v1 d2 v2) (hv1 : v1.setWidth 256 = x1)
    (hv2 : v2.setWidth 256 = x2) : ∃ t, exec i s = .next t ∧ Completes s t [(d1, x1), (d2, x2)] := by
  rw [hexec, ← hv1, ← hv2]
  exact completeTwo_completes s d1 d2 v1 v2 hne

theorem raises_of_exec {i : Instr} {s : State} {e : ErrorKind} (hexec : exec i s = s.fail e) :
    ∃ t, exec i s = .next t ∧ Raises s t e :=
  ⟨_, hexec, raise_raises s e⟩

theorem completeTwo_sources {s t : State} {w : Width} {d1 d2 : Reg} {v1 v2 : BitVec w.bits} (hne : d1 ≠ d2)
    (h : s.completeTwo d1 v1 d2 v2 = .next t) : t.source w d1 = v1 ∧ t.source w d2 = v2 := by
  cases h
  simp [State.source, hne, BitVec.setWidth_setWidth_of_le _ w.bits_le]

/-! ### The operands -/

theorem source_eq_zero_iff_uval (s : State) (w : Width) (r : Reg) : s.source w r = 0 ↔ uval w (s.reg r) = 0 := by
  rw [← source_toNat, ← BitVec.toNat_inj]
  rfl

theorem source_eq_zero_iff_sval (s : State) (w : Width) (r : Reg) : s.source w r = 0 ↔ sval w (s.reg r) = 0 := by
  rw [← source_toInt, ← BitVec.toInt_inj, BitVec.ofNat_eq_ofNat, BitVec.toInt_zero]

section
variable {w : Width} {rd rd2 rs1 rs2 : Reg} {s : State}

theorem divremU_completes (hne : rd ≠ rd2) (hv : s.source w rs2 ≠ 0) :
    exec (.divremU w rd rd2 rs1 rs2) s =
      s.completeTwo rd (s.source w rs1 / s.source w rs2) rd2 (s.source w rs1 % s.source w rs2) :=
  (if_neg hne).trans (if_neg hv)

theorem divremU_fails (hne : rd ≠ rd2) (hv : s.source w rs2 = 0) :
    exec (.divremU w rd rd2 rs1 rs2) s = s.fail .divideByZero :=
  (if_neg hne).trans (if_pos hv)

theorem divremS_completes (hne : rd ≠ rd2) (hv : s.source w rs2 ≠ 0) :
    exec (.divremS w rd rd2 rs1 rs2) s =
      s.completeTwo rd (signedQuotient (s.source w rs1) (s.source w rs2)) rd2
        (signedRemainder (s.source w rs1) (s.source w rs2)) :=
  (if_neg hne).trans (if_neg hv)

theorem divremS_fails (hne : rd ≠ rd2) (hv : s.source w rs2 = 0) :
    exec (.divremS w rd rd2 rs1 rs2) s = s.fail .divideByZero :=
  (if_neg hne).trans (if_pos hv)

end

/-! ### Unsigned (R64) -/

/-- Settles O28: the results of bit-vector division are those of the numbers, which W bits hold. -/
theorem unsignedDivremWritesQuotientAndRemainder : Obligations.UnsignedDivremWritesQuotientAndRemainder := by
  refine fun w rd rd2 rs1 rs2 s => ⟨?_, fun hne => ?_, fun hne hv => ?_, fun hne hv => ?_⟩
  · rintro rfl
    exact decode_divrem_sameDestination w .unsigned rd rs1 rs2
  · exact decode_wordR 0x04 rfl (bne_iff_ne.mpr hne)
  · have hv : s.source w rs2 ≠ 0 := (source_eq_zero_iff_uval s w rs2).not.mpr hv
    refine completesTwo_of_exec hne (divremU_completes hne hv) ?_ ?_
    · rw [setWidth_eq_enc, BitVec.toNat_udiv, source_toNat, source_toNat]
    · rw [setWidth_eq_enc, BitVec.toNat_umod, source_toNat, source_toNat, Nat.mod_eq_sub_div_mul]
  · exact raises_of_exec (divremU_fails hne ((source_eq_zero_iff_uval s w rs2).mpr hv))

/-! ### Signed (R65) -/

/-- The sign-magnitude procedure's quotient is the one of two's-complement division. -/
theorem signedQuotient_eq_sdiv {n : Nat} (a b : BitVec n) : signedQuotient a b = a.sdiv b := by
  rw [BitVec.sdiv_eq, signedQuotient, applySign, magnitude, magnitude]
  cases a.msb <;> cases b.msb <;> rfl

/-- The sign-magnitude procedure's remainder is the one of two's-complement division. -/
theorem signedRemainder_eq_srem {n : Nat} (a b : BitVec n) : signedRemainder a b = a.srem b := by
  rw [BitVec.srem_eq, signedRemainder, applySign, magnitude, magnitude]
  cases a.msb <;> cases b.msb <;> rfl

/-- The one quotient that does not fit W bits, of the least value by -1, wraps. -/
theorem signedQuotient_toInt {n : Nat} (a b : BitVec n) :
    (signedQuotient a b).toInt = (a.toInt.tdiv b.toInt).bmod (2 ^ n) := by
  rw [signedQuotient_eq_sdiv, BitVec.toInt_sdiv]

theorem signedRemainder_toInt {n : Nat} (a b : BitVec n) : (signedRemainder a b).toInt = a.toInt.tmod b.toInt := by
  rw [signedRemainder_eq_srem, BitVec.toInt_srem]

theorem signedQuotient_eq_ofInt {n : Nat} (a b : BitVec n) :
    signedQuotient a b = BitVec.ofInt n (a.toInt.tdiv b.toInt) := by
  rw [← BitVec.toInt_inj, signedQuotient_toInt, BitVec.toInt_ofInt]

theorem signedRemainder_eq_ofInt {n : Nat} (a b : BitVec n) :
    signedRemainder a b = BitVec.ofInt n (a.toInt.tmod b.toInt) := by
  rw [← signedRemainder_toInt, BitVec.ofInt_toInt]

/-- Settles O29: the sign-magnitude procedure truncates toward zero, and its results are read modulo 2^W. -/
theorem signedDivremTruncatesTowardZero : Obligations.SignedDivremTruncatesTowardZero := by
  refine ⟨fun w rd rd2 rs1 rs2 s => ⟨?_, fun hne => ?_, fun hne hv => ?_, fun hne hv => ?_⟩,
    fun w a b _ => ⟨signedQuotient_eq_ofInt a b, signedRemainder_eq_ofInt a b⟩⟩
  · rintro rfl
    exact decode_divrem_sameDestination w .signed rd rs1 rs2
  · exact decode_wordR 0x04 rfl (bne_iff_ne.mpr hne)
  · have hv : s.source w rs2 ≠ 0 := (source_eq_zero_iff_sval s w rs2).not.mpr hv
    refine completesTwo_of_exec hne (divremS_completes hne hv) ?_ ?_
    · rw [signedQuotient_eq_ofInt, setWidth_ofInt, source_toInt, source_toInt]
    · rw [signedRemainder_eq_ofInt, setWidth_ofInt, source_toInt, source_toInt]
  · exact raises_of_exec (divremS_fails hne ((source_eq_zero_iff_sval s w rs2).mpr hv))

/-! ### The division identity (R67) -/

/-- The identity holds modulo 2^W, since the quotient is exact but for the wrap. -/
theorem signedQuotient_mul_add_signedRemainder {n : Nat} (a b : BitVec n) :
    ((signedQuotient a b).toInt * b.toInt + (signedRemainder a b).toInt) % 2 ^ n = a.toInt % 2 ^ n := by
  have hwrap : (signedQuotient a b).toInt ≡ a.toInt.tdiv b.toInt [ZMOD 2 ^ n] := by
    rw [signedQuotient_toInt]
    exact_mod_cast Int.bmod_emod (x := a.toInt.tdiv b.toInt) (m := 2 ^ n)
  have hexact : a.toInt.tdiv b.toInt * b.toInt + (signedRemainder a b).toInt = a.toInt := by
    rw [signedRemainder_toInt, Int.tdiv_mul_add_tmod]
  exact ((hwrap.mul_right b.toInt).add_right _).trans (congrArg (· % 2 ^ n) hexact)

theorem signedRemainder_natAbs_lt {n : Nat} (a : BitVec n) {b : BitVec n} (hb : b ≠ 0) :
    (signedRemainder a b).toInt.natAbs < b.toInt.natAbs := by
  rw [signedRemainder_toInt, Int.natAbs_tmod]
  refine Nat.mod_lt _ (Int.natAbs_pos.mpr fun h => hb ?_)
  rw [← BitVec.toInt_inj, h, BitVec.ofNat_eq_ofNat, BitVec.toInt_zero]

/-- Settles O30: the two destinations hold quotient and remainder of the sources, for which the identity is known. -/
theorem divremObeysTheDivisionIdentity : Obligations.DivremObeysTheDivisionIdentity := by
  intro w rd rd2 rs1 rs2 s t hne hv
  have hsource : s.source w rs2 ≠ 0 := (source_eq_zero_iff_uval s w rs2).not.mpr hv
  constructor
  · intro h
    obtain ⟨hq, hr⟩ := completeTwo_sources hne ((divremU_completes hne hsource).symm.trans h)
    rw [← source_toNat t, ← source_toNat t, hq, hr, BitVec.toNat_udiv, BitVec.toNat_umod, source_toNat, source_toNat]
    exact ⟨Nat.div_add_mod' .., Nat.mod_lt _ (Nat.pos_of_ne_zero hv)⟩
  · intro h
    obtain ⟨hq, hr⟩ := completeTwo_sources hne ((divremS_completes hne hsource).symm.trans h)
    rw [← source_toInt t, ← source_toInt t, hq, hr, ← source_toInt s, ← source_toInt s]
    exact ⟨signedQuotient_mul_add_signedRemainder .., signedRemainder_natAbs_lt _ hsource⟩

end Machine

end Sys2Proof
end

section
/-! The normalized long division (R62, R63): the refined estimate is the best digit that the top limbs allow, so that it
is the quotient digit or one more; a digit with its correction step is a quotient and a remainder; and the positions'
digits add up to the whole quotient. -/

namespace Sys2Proof.Machine

/-! ### Limbs -/

theorem limbBase_pos : 0 < limbBase := Nat.two_pow_pos 32

theorem limbBase_pow (n : Nat) : limbBase ^ n = 2 ^ (32 * n) := (Nat.pow_mul 2 32 n).symm

theorem limbBase_pow_pos (n : Nat) : 0 < limbBase ^ n := Nat.pow_pos limbBase_pos

theorem limbAt_lt (v k : Nat) : limbAt v k < limbBase := Nat.mod_lt _ limbBase_pos

/-- The top limb of a number of k + 1 limbs is all that lies above the other k. -/
theorem limbAt_top {v k : Nat} (h : v < limbBase ^ (k + 1)) : limbAt v k = v / limbBase ^ k :=
  Nat.mod_eq_of_lt ((Nat.div_lt_iff_lt_mul (limbBase_pow_pos k)).mpr (by rwa [← Nat.pow_succ']))

theorem limbAt_add (v j k : Nat) : limbAt v (j + k) = limbAt (v / limbBase ^ j) k := by
  rw [limbAt, limbAt, Nat.pow_add, Nat.div_div_eq_div_mul]

/-- Limb k below all that lies above it. -/
theorem div_pow_mul_add_limbAt (v k : Nat) :
    v / limbBase ^ (k + 1) * limbBase + limbAt v k = v / limbBase ^ k := by
  rw [limbAt, Nat.pow_succ, ← Nat.div_div_eq_div_mul]
  exact Nat.div_add_mod' ..

theorem limbAt_mul_pow_add_mod (v k : Nat) :
    limbAt v k * limbBase ^ k + v % limbBase ^ k = v % limbBase ^ (k + 1) := by
  rw [Nat.mod_pow_succ, limbAt, Nat.mul_comm, Nat.add_comm]

/-- A nonzero number has the limbs that `limbCount` counts, and no fewer. -/
theorem limbCount_bounds {v : Nat} (h : v ≠ 0) :
    limbBase ^ (limbCount v - 1) ≤ v ∧ v < limbBase ^ limbCount v := by
  have hlow : 2 ^ v.log2 ≤ v := Nat.log2_self_le h
  have hhigh : v < 2 ^ (v.log2 + 1) := Nat.lt_log2_self
  rw [limbCount, if_neg h, limbBase_pow, limbBase_pow]
  exact ⟨(Nat.pow_le_pow_right (by decide) (by omega)).trans hlow,
    hhigh.trans_le (Nat.pow_le_pow_right (by decide) (by omega))⟩

theorem limbCount_pos {v : Nat} (h : v ≠ 0) : 0 < limbCount v := by
  rw [limbCount, if_neg h]
  omega

/-! ### The fast path: a divisor of one limb -/

/-- The running remainder and the limbs still to come are the dividend that is left. -/
theorem shortDivision_eq {d : Nat} (u : Nat) (hd : 0 < d) (count : Nat) {rem : Nat} (hrem : rem < d) :
    shortDivision u d count rem =
      ((rem * limbBase ^ count + u % limbBase ^ count) / d, (rem * limbBase ^ count + u % limbBase ^ count) % d) := by
  induction count generalizing rem with
  | zero =>
    rw [shortDivision, Nat.pow_zero, Nat.mod_one, Nat.mul_one, Nat.add_zero, Nat.div_eq_of_lt hrem,
      Nat.mod_eq_of_lt hrem]
  | succ j ih =>
    have hcur : rem * limbBase ^ (j + 1) + u % limbBase ^ (j + 1) =
        (rem * limbBase + limbAt u j) * limbBase ^ j + u % limbBase ^ j := by
      rw [← limbAt_mul_pow_add_mod]
      ring
    rw [hcur, shortDivision, ih (Nat.mod_lt _ hd)]
    generalize rem * limbBase + limbAt u j = cur
    have hsplit : cur * limbBase ^ j + u % limbBase ^ j =
        cur % d * limbBase ^ j + u % limbBase ^ j + cur / d * limbBase ^ j * d := by
      linear_combination limbBase ^ j * (Nat.div_add_mod' cur d).symm
    rw [hsplit, Nat.add_mul_div_right _ _ hd, Nat.add_mul_mod_self_right, Nat.add_comm (cur / d * limbBase ^ j)]

/-! ### The estimate of a digit (R63's `while`) -/

/-- The greatest digit whose product with the divisor's two top limbs is at most the three limbs of the dividend that
the estimate looks at. -/
def bestDigit (vtop vnext num ulow : Nat) : Nat :=
  min (limbBase - 1) ((num * limbBase + ulow) / (vtop * limbBase + vnext))

section
variable {vtop vnext num ulow qhat rhat : Nat}

/-- R63's `while` goes on exactly as long as the estimate is above the best digit. -/
theorem estimateTooLarge_iff (hnum : qhat * vtop + rhat = num) (hvtop : 0 < vtop) :
    (qhat ≥ limbBase ∨ qhat * vnext > rhat * limbBase + ulow) ↔ bestDigit vtop vnext num ulow < qhat := by
  have hbase := limbBase_pos
  have hpos : 0 < vtop * limbBase + vnext := Nat.add_pos_left (Nat.mul_pos hvtop hbase) _
  have hproduct : num * limbBase + ulow < qhat * (vtop * limbBase + vnext) ↔
      rhat * limbBase + ulow < qhat * vnext := by
    rw [← hnum, show (qhat * vtop + rhat) * limbBase + ulow =
        qhat * vtop * limbBase + (rhat * limbBase + ulow) by ring,
      show qhat * (vtop * limbBase + vnext) = qhat * vtop * limbBase + qhat * vnext by ring, Nat.add_lt_add_iff_left]
  rw [bestDigit, min_lt_iff, Nat.div_lt_iff_lt_mul hpos, hproduct]
  exact or_congr_left (by omega)

/-- R63's `break`: an estimate whose remainder needs more than a limb is not above the best digit. -/
theorem le_bestDigit_of_limbBase_le (hnum : qhat * vtop + rhat = num) (hvtop : 0 < vtop)
    (htop : num < (vtop + 1) * limbBase) (hvnext : vnext < limbBase) (hrhat : limbBase ≤ rhat) :
    qhat ≤ bestDigit vtop vnext num ulow := by
  have hqhat : qhat < limbBase := by
    have hlt : qhat * vtop < limbBase * vtop := by linarith
    exact Nat.lt_of_mul_lt_mul_right hlt
  have hproduct : qhat * vnext ≤ rhat * limbBase :=
    (Nat.mul_le_mul hqhat.le hvnext.le).trans (Nat.mul_le_mul_right _ hrhat)
  rw [← not_lt, ← estimateTooLarge_iff hnum hvtop]
  omega

/-- Every turn adds vtop to the remainder, so the loop reaches the best digit before `turns` runs out if that many turns
would bring the remainder to a limb's size. -/
theorem refineEstimate_eq_bestDigit (turns : Nat) (hvtop : 0 < vtop) (htop : num < (vtop + 1) * limbBase)
    (hvnext : vnext < limbBase) (hnum : qhat * vtop + rhat = num) (hbest : bestDigit vtop vnext num ulow ≤ qhat)
    (hturns : limbBase ≤ rhat + turns * vtop) :
    (refineEstimate vtop vnext ulow turns qhat rhat).1 = bestDigit vtop vnext num ulow := by
  induction turns generalizing qhat rhat with
  | zero =>
    rw [Nat.zero_mul, Nat.add_zero] at hturns
    exact (le_bestDigit_of_limbBase_le hnum hvtop htop hvnext hturns).antisymm hbest
  | succ turns ih =>
    rw [refineEstimate]
    split
    next hlarge =>
      rw [estimateTooLarge_iff hnum hvtop] at hlarge
      have hbest' : bestDigit vtop vnext num ulow ≤ qhat - 1 := Nat.le_sub_one_of_lt hlarge
      have hnum' : (qhat - 1) * vtop + (rhat + vtop) = num := by
        obtain ⟨q, hq⟩ := Nat.exists_eq_add_one_of_ne_zero (Nat.ne_zero_of_lt hlarge)
        rw [← hnum, hq, Nat.add_sub_cancel]
        ring
      split
      next hbreak => exact (le_bestDigit_of_limbBase_le hnum' hvtop htop hvnext hbreak).antisymm hbest'
      next => exact ih hnum' hbest' (by linarith)
    next hdone =>
      rw [estimateTooLarge_iff hnum hvtop, not_lt] at hdone
      exact hdone.antisymm hbest

/-- The first estimate, from one limb of the divisor, is no smaller than the best digit. -/
theorem bestDigit_le_div (hvtop : 0 < vtop) (hulow : ulow < limbBase) :
    bestDigit vtop vnext num ulow ≤ num / vtop := by
  have hbase := limbBase_pos
  calc bestDigit vtop vnext num ulow
    _ ≤ (num * limbBase + ulow) / (vtop * limbBase + vnext) := min_le_right ..
    _ ≤ (num * limbBase + ulow) / (limbBase * vtop) :=
      Nat.div_le_div_left (by rw [Nat.mul_comm]; exact Nat.le_add_right ..) (Nat.mul_pos hbase hvtop)
    _ = num / vtop := by
      rw [← Nat.div_div_eq_div_mul, Nat.mul_comm, Nat.mul_add_div hbase, Nat.div_eq_of_lt hulow, Nat.add_zero]

end

/-- The best digit against the true one: X is the window, V the divisor, and P what the estimate does not look at. -/
theorem bestDigit_bounds {vtop vnext num ulow X V P : Nat} (hP : 0 < P) (hV : vtop * limbBase + vnext = V / P)
    (hX : num * limbBase + ulow = X / P) (hVlow : limbBase * P ≤ V) (hlt : X < V * limbBase) :
    X / V ≤ bestDigit vtop vnext num ulow ∧ bestDigit vtop vnext num ulow ≤ X / V + 1 := by
  have hbase := limbBase_pos
  have hVpos : 0 < V := (Nat.mul_pos hbase hP).trans_le hVlow
  have hDpos : 0 < V / P := Nat.div_pos ((Nat.le_mul_of_pos_left P hbase).trans hVlow) hP
  rw [bestDigit, hV, hX]
  constructor
  · refine le_min (Nat.le_sub_one_of_lt ((Nat.div_lt_iff_lt_mul hVpos).mpr (by rwa [Nat.mul_comm]))) ?_
    rw [Nat.le_div_iff_mul_le hDpos, Nat.le_div_iff_mul_le hP]
    calc X / V * (V / P) * P
      _ = X / V * (V / P * P) := Nat.mul_assoc ..
      _ ≤ X / V * V := Nat.mul_le_mul_left _ (Nat.div_mul_le_self V P)
      _ ≤ X := Nat.div_mul_le_self X V
  · by_contra! hlarge
    obtain ⟨hbelow, hq⟩ := lt_min_iff.mp hlarge
    have hX' : (X / V + 2) * (V / P * P) ≤ X := by
      rw [← Nat.mul_assoc, ← Nat.le_div_iff_mul_le hP, ← Nat.le_div_iff_mul_le hDpos]
      exact hq
    have hXlt : X < V * (X / V + 1) := Nat.lt_mul_div_succ X hVpos
    have hVlt : V ≤ V / P * P + P := (Nat.lt_div_mul_add hP).le
    have hunseen : (X / V + 2) * P ≤ V := (Nat.mul_le_mul_right P (by omega)).trans hVlow
    have hscaled : (X / V + 2) * V ≤ (X / V + 2) * (V / P * P + P) := Nat.mul_le_mul_left _ hVlt
    linarith

/-! ### One digit with its correction step -/

/-- A divisor of n limbs whose top bit is set. -/
structure Normalized (vn n : Nat) : Prop where
  half_le : limbBase ^ n ≤ 2 * vn
  lt : vn < limbBase ^ n

section
variable {vn k j un X : Nat}

theorem Normalized.pos (h : Normalized vn k) : 0 < vn := by
  have := limbBase_pow_pos k
  have := h.half_le
  omega

/-- Normalization sets the top bit of the top limb. -/
theorem Normalized.limbBase_le (h : Normalized vn (k + 1)) : limbBase ≤ 2 * limbAt vn k := by
  have hhalf : limbBase / 2 ≤ limbAt vn k := by
    rw [limbAt_top h.lt, Nat.le_div_iff_mul_le (limbBase_pow_pos k)]
    have hle := h.half_le
    rw [Nat.pow_succ', show limbBase = 2 * (limbBase / 2) from rfl, Nat.mul_assoc] at hle
    exact Nat.le_of_mul_le_mul_left hle (by decide)
  calc limbBase
    _ = 2 * (limbBase / 2) := rfl
    _ ≤ 2 * limbAt vn k := Nat.mul_le_mul_left 2 hhalf

/-- The window has one limb more than the divisor. -/
theorem Normalized.window_lt (h : Normalized vn k) (hX : X < vn * limbBase) : X < limbBase ^ (k + 1) :=
  hX.trans (by rw [Nat.pow_succ]; exact Nat.mul_lt_mul_of_pos_right h.lt limbBase_pos)

/-- R63's estimate for a window X and a divisor of k + 2 limbs, with the loop on the estimate as an argument. -/
def windowEstimate (refine : Nat → Nat → Nat → Nat → Nat → Nat → Nat × Nat) (vn k X : Nat) : Nat :=
  (refine (limbAt vn (k + 1)) (limbAt vn k) (limbAt X k) 2
    (X / limbBase ^ (k + 1) / limbAt vn (k + 1)) (X / limbBase ^ (k + 1) % limbAt vn (k + 1))).1

/-- Two turns are enough to reach the best digit (log 14), since the divisor's top limb is at least half of B. -/
theorem windowEstimate_eq_bestDigit (h : Normalized vn (k + 2)) (hX : X < vn * limbBase) :
    windowEstimate refineEstimate vn k X =
      bestDigit (limbAt vn (k + 1)) (limbAt vn k) (X / limbBase ^ (k + 1)) (limbAt X k) := by
  have hhalf : limbBase ≤ 2 * limbAt vn (k + 1) := h.limbBase_le
  have hvtop : 0 < limbAt vn (k + 1) := by
    have := limbBase_pos
    omega
  have htop : X / limbBase ^ (k + 1) < (limbAt vn (k + 1) + 1) * limbBase := by
    rw [Nat.div_lt_iff_lt_mul (limbBase_pow_pos _), limbAt_top h.lt]
    have hvn : vn < limbBase ^ (k + 1) * (vn / limbBase ^ (k + 1) + 1) := Nat.lt_mul_div_succ _ (limbBase_pow_pos _)
    calc X
      _ < vn * limbBase := hX
      _ ≤ limbBase ^ (k + 1) * (vn / limbBase ^ (k + 1) + 1) * limbBase := Nat.mul_le_mul_right _ hvn.le
      _ = (vn / limbBase ^ (k + 1) + 1) * limbBase * limbBase ^ (k + 1) := by ring
  rw [windowEstimate]
  exact refineEstimate_eq_bestDigit 2 hvtop htop (limbAt_lt ..) (Nat.div_add_mod' ..)
    (bestDigit_le_div hvtop (limbAt_lt ..)) (hhalf.trans (Nat.le_add_left ..))

/-- The estimate is the window's quotient or one more. -/
theorem windowEstimate_bounds (h : Normalized vn (k + 2)) (hX : X < vn * limbBase) :
    X / vn ≤ windowEstimate refineEstimate vn k X ∧ windowEstimate refineEstimate vn k X ≤ X / vn + 1 := by
  have hseen : limbAt vn (k + 1) * limbBase + limbAt vn k = vn / limbBase ^ k := by
    rw [limbAt_top h.lt, div_pow_mul_add_limbAt]
  have hlow : limbBase * limbBase ^ k ≤ vn := by
    have hhalf := h.half_le
    rw [Nat.pow_succ', Nat.pow_succ'] at hhalf
    have hbase : 2 * (limbBase * limbBase ^ k) ≤ limbBase * (limbBase * limbBase ^ k) :=
      Nat.mul_le_mul_right _ (by decide)
    omega
  rw [windowEstimate_eq_bestDigit h hX]
  exact bestDigit_bounds (limbBase_pow_pos k) hseen (div_pow_mul_add_limbAt X k) hlow hX

/-- Multiplying and subtracting, with the one correction step, gives quotient and remainder of the window when the
estimate is the quotient or one more. -/
theorem correctedDigit_eq {V qhat : Nat} (hV : 0 < V) (hlow : X / V ≤ qhat) (hhigh : qhat ≤ X / V + 1) :
    (if (X : Int) - qhat * V < 0 then (qhat - 1, ((X : Int) - qhat * V + V).toNat)
      else (qhat, ((X : Int) - qhat * V).toNat)) = (X / V, X % V) := by
  have hX : (X / V : Nat) * (V : Int) + (X % V : Nat) = X := mod_cast Nat.div_add_mod' X V
  have hmod : X % V < V := Nat.mod_lt X hV
  obtain rfl | rfl : qhat = X / V ∨ qhat = X / V + 1 := by omega
  · rw [show (X : Int) - (X / V : Nat) * V = (X % V : Nat) by linarith, if_neg (by omega), Int.toNat_natCast]
  · rw [show (X : Int) - (X / V + 1 : Nat) * V = (X % V : Nat) - V by push_cast at hX ⊢; linarith,
      if_pos (by omega), Nat.add_sub_cancel, Int.sub_add_cancel, Int.toNat_natCast]

/-- `divisionDigit` with the loop on the estimate as an argument, as in `windowEstimate`. With the loop itself, the
kernel would try to run it on limbs that are not known whenever the digit is unfolded. -/
def digitWith (refine : Nat → Nat → Nat → Nat → Nat → Nat → Nat × Nat) (vn n j un : Nat) : Nat × Nat :=
  let num := limbAt un (j + n) * limbBase + limbAt un (j + n - 1)
  let vtop := limbAt vn (n - 1)
  let qhat := (refine vtop (limbAt vn (n - 2)) (limbAt un (j + n - 2)) 2 (num / vtop) (num % vtop)).1
  let window := un / limbBase ^ j % limbBase ^ (n + 1)
  let t : Int := (window : Int) - qhat * vn
  let (digit, left) := if t < 0 then (qhat - 1, (t + vn).toNat) else (qhat, t.toNat)
  (digit, un - window * limbBase ^ j + left * limbBase ^ j)

theorem divisionDigit_eq_digitWith : divisionDigit = digitWith refineEstimate := rfl

/-- A digit divides what stands at position j and above, and leaves the limbs below alone. -/
theorem digitWith_eq {refine : Nat → Nat → Nat → Nat → Nat → Nat → Nat × Nat} (h : Normalized vn (k + 2))
    (hX : un / limbBase ^ j = X) (hlt : X < vn * limbBase) (hlow : X / vn ≤ windowEstimate refine vn k X)
    (hhigh : windowEstimate refine vn k X ≤ X / vn + 1) :
    digitWith refine vn (k + 2) j un = (un / (limbBase ^ j * vn), un % (limbBase ^ j * vn)) := by
  have hlimb : ∀ i, limbAt un (j + i) = limbAt X i := fun i => by rw [limbAt_add, hX]
  have hnum : limbAt X (k + 2) * limbBase + limbAt X (k + 1) = X / limbBase ^ (k + 1) := by
    rw [limbAt_top (h.window_lt hlt), div_pow_mul_add_limbAt]
  have hbelow : un - X * limbBase ^ j = un % limbBase ^ j := by rw [← hX, Nat.mod_eq_sub_div_mul]
  rw [windowEstimate] at hlow hhigh
  simp only [digitWith, show j + (k + 2) - 1 = j + (k + 1) from rfl, show j + (k + 2) - 2 = j + k from rfl,
    show k + 2 - 1 = k + 1 from rfl, Nat.add_sub_cancel, hlimb, hX, hnum,
    Nat.mod_eq_of_lt (h.window_lt hlt), correctedDigit_eq h.pos hlow hhigh, hbelow]
  rw [← hX, Nat.div_div_eq_div_mul, Nat.mod_mul, Nat.mul_comm (_ % vn)]

theorem divisionDigit_eq (h : Normalized vn (k + 2)) (hun : un < vn * limbBase ^ (j + 1)) :
    divisionDigit vn (k + 2) j un = (un / (limbBase ^ j * vn), un % (limbBase ^ j * vn)) := by
  have hlt : un / limbBase ^ j < vn * limbBase := by
    rwa [Nat.div_lt_iff_lt_mul (limbBase_pow_pos j), Nat.mul_assoc, ← Nat.pow_succ']
  obtain ⟨hlow, hhigh⟩ := windowEstimate_bounds h hlt
  rw [divisionDigit_eq_digitWith]
  exact digitWith_eq h rfl hlt hlow hhigh

end

/-! ### All digits, and the general path -/

/-- The digits from position `count` - 1 down add up to the whole quotient. -/
theorem divisionLoop_eq {vn k : Nat} (h : Normalized vn (k + 2)) (count : Nat) {un : Nat}
    (hun : un < vn * limbBase ^ count) : divisionLoop vn (k + 2) count un = (un / vn, un % vn) := by
  induction count generalizing un with
  | zero =>
    rw [Nat.pow_zero, Nat.mul_one] at hun
    rw [divisionLoop, Nat.div_eq_of_lt hun, Nat.mod_eq_of_lt hun]
  | succ j ih =>
    have hleft : un % (limbBase ^ j * vn) < vn * limbBase ^ j := by
      rw [Nat.mul_comm vn]
      exact Nat.mod_lt _ (Nat.mul_pos (limbBase_pow_pos j) h.pos)
    have hquotient : un / (limbBase ^ j * vn) * limbBase ^ j + un % (limbBase ^ j * vn) / vn = un / vn := by
      rw [Nat.mod_mul_left_div_self, Nat.mul_comm _ vn, ← Nat.div_div_eq_div_mul, Nat.div_add_mod']
    rw [divisionLoop, divisionDigit_eq h hun, ih hleft, hquotient, Nat.mod_mod_of_dvd _ (Nat.dvd_mul_left ..)]

/-- Shifting left by the leading zero bits of the top limb normalizes the divisor. -/
theorem normalized_shift {v : Nat} (hv : v ≠ 0) :
    Normalized (v * 2 ^ (32 * limbCount v - (v.log2 + 1))) (limbCount v) := by
  have hbits : v.log2 + 1 + (32 * limbCount v - (v.log2 + 1)) = 32 * limbCount v := by
    rw [limbCount, if_neg hv]
    omega
  have hpow : limbBase ^ limbCount v = 2 ^ (v.log2 + 1) * 2 ^ (32 * limbCount v - (v.log2 + 1)) := by
    rw [limbBase_pow, ← Nat.pow_add, hbits]
  constructor
  · rw [hpow, ← Nat.mul_assoc, Nat.pow_succ']
    exact Nat.mul_le_mul_right _ (Nat.mul_le_mul_left 2 (Nat.log2_self_le hv))
  · rw [hpow]
    exact Nat.mul_lt_mul_of_pos_right Nat.lt_log2_self (Nat.two_pow_pos _)

/-- A dividend that is no smaller than the divisor is below the divisor moved past all positions. -/
theorem lt_mul_limbBase_pow {u v : Nat} (hv : v ≠ 0) (hle : v ≤ u) :
    u < v * limbBase ^ (limbCount u - limbCount v + 1) := by
  have hu : u < limbBase ^ limbCount u := (limbCount_bounds (by omega)).2
  have hlow : limbBase ^ (limbCount v - 1) ≤ v := (limbCount_bounds hv).1
  have hcounts : limbCount v - 1 < limbCount u :=
    (Nat.pow_lt_pow_iff_right (by decide)).mp ((hlow.trans hle).trans_lt hu)
  have hpos : 0 < limbCount v := limbCount_pos hv
  calc u
    _ < limbBase ^ limbCount u := hu
    _ = limbBase ^ (limbCount v - 1) * limbBase ^ (limbCount u - limbCount v + 1) := by
      rw [← Nat.pow_add]
      congr 1
      omega
    _ ≤ v * limbBase ^ (limbCount u - limbCount v + 1) := Nat.mul_le_mul_right _ hlow

/-- Dividing the shifted operands gives the same quotient, and the remainder shifted, which a right shift undoes. -/
theorem divisionLoop_shifted {u v k count shift : Nat} (h : Normalized (v * 2 ^ shift) (k + 2))
    (hu : u < v * limbBase ^ count) :
    (divisionLoop (v * 2 ^ shift) (k + 2) count (u * 2 ^ shift)).1 = u / v ∧
      (divisionLoop (v * 2 ^ shift) (k + 2) count (u * 2 ^ shift)).2 % limbBase ^ (k + 2) / 2 ^ shift = u % v := by
  have hpow : 0 < 2 ^ shift := Nat.two_pow_pos shift
  have hun : u * 2 ^ shift < v * 2 ^ shift * limbBase ^ count := by
    rw [Nat.mul_right_comm]
    exact Nat.mul_lt_mul_of_pos_right hu hpow
  have hfits : u * 2 ^ shift % (v * 2 ^ shift) < limbBase ^ (k + 2) := (Nat.mod_lt _ h.pos).trans h.lt
  rw [divisionLoop_eq h count hun, Nat.mod_eq_of_lt hfits, Nat.mul_mod_mul_right, Nat.mul_div_cancel _ hpow]
  exact ⟨Nat.mul_div_mul_right u v hpow, rfl⟩

/-- Settles O49, path by path: u below v, the fast path over one limb, and the normalized one over more. -/
theorem normalizedDivisionGivesQuotientAndRemainder : Obligations.NormalizedDivisionGivesQuotientAndRemainder := by
  intro u v hv
  have hpos : 0 < v := Nat.pos_of_ne_zero hv
  have hcount : 0 < limbCount v := limbCount_pos hv
  rw [normalizedDivMod]
  split
  next hlt => rw [Nat.div_eq_of_lt hlt, Nat.mod_eq_of_lt hlt]
  next hle =>
    rw [Nat.not_lt] at hle
    dsimp only
    split
    next hone =>
      have hu : u < limbBase ^ limbCount u := (limbCount_bounds (by omega)).2
      rw [shortDivision_eq u hpos _ hpos, Nat.zero_mul, Nat.zero_add, Nat.mod_eq_of_lt hu]
    next hmany =>
      obtain ⟨k, hk⟩ : ∃ k, limbCount v = k + 2 := ⟨limbCount v - 2, by omega⟩
      have hnormalized := normalized_shift hv
      have hu := lt_mul_limbBase_pow hv hle
      rw [hk] at hnormalized hu ⊢
      obtain ⟨hq, hr⟩ := divisionLoop_shifted hnormalized hu
      exact Prod.ext hq hr

end Sys2Proof.Machine
end

section
/-! CMP (R70, R71): both commands write the sign of the difference of their operands' readings, so that the laws of R72
are laws of the integers. -/

namespace Sys2Proof

/-- -1, 0 or 1 by the order of two integers (D9) is the sign of their difference. -/
theorem ite_lt_eq_sign_sub (x y : Int) : (if x < y then -1 else if x = y then 0 else 1) = (x - y).sign := by
  obtain h | rfl | h := lt_trichotomy x y
  · rw [if_pos h, Int.sign_eq_neg_one_of_neg (sub_neg.mpr h)]
  · rw [if_neg (lt_irrefl x), if_pos rfl, Int.sub_self, Int.sign_zero]
  · rw [if_neg h.not_gt, if_neg h.ne', Int.sign_eq_one_of_pos (sub_pos.mpr h)]

/-- A sign fits in W bits. -/
theorem sval_enc_sign (w : Width) (x : Int) : sval w (enc w x.sign) = x.sign := by
  have hfits : ∀ y ∈ ([-1, 0, 1] : List Int), y.bmod (2 ^ w.bits) = y := by cases w <;> decide
  rw [sval_enc]
  exact hfits _ (by obtain h | h | h := x.sign_trichotomy <;> simp [h])

namespace Machine

theorem ternary_eq_ofInt (n : Nat) (less equal : Bool) :
    ternary n less equal = BitVec.ofInt n (if less then -1 else if equal then 0 else 1) := by
  cases less
  case true => exact BitVec.neg_one_eq_allOnes.symm.trans (BitVec.ofInt_neg (n := 1)).symm
  case false => cases equal <;> rfl

/-! ### The readings compared -/

theorem valueAt_inj {n : Nat} {sg : Signedness} {x y : BitVec n} : valueAt sg x = valueAt sg y ↔ x = y := by
  cases sg
  case unsigned => exact Int.ofNat_inj.trans BitVec.toNat_inj
  case signed => exact BitVec.toInt_inj

theorem NativeSize.bits_le (size : NativeSize) (w : Width) : size.bits ≤ w.bits := by
  cases size <;> cases w <;> decide

/-- Extension by the native integer's own signedness keeps its value (R99). -/
theorem valueAt_fromNative (w : Width) (sg : Signedness) (size : NativeSize) (x : BitVec size.bits) :
    valueAt sg (fromNative w sg size x) = valueAt sg x := by
  cases sg
  case unsigned => exact congrArg Int.ofNat (BitVec.toNat_setWidth_of_le (size.bits_le w))
  case signed => exact BitVec.toInt_signExtend_of_le (size.bits_le w)

theorem source_eq_iff_uval {s : State} {w : Width} {r : Reg} {v : BitVec w.bits} :
    s.source w r = v ↔ uval w (s.reg r) = v.toNat := by
  rw [← source_toNat, BitVec.toNat_inj]

/-! ### The result of one command -/

section
variable {w : Width} {sg : Signedness} {d a b : Reg} {s t : State}

theorem exec_cmpU : exec (.cmpU w d a b) s = s.complete d (BitVec.ofInt w.bits
    (if uval w (s.reg a) < uval w (s.reg b) then -1 else if uval w (s.reg a) = uval w (s.reg b) then 0 else 1)) := by
  rw [exec, execCmpU, ternary_eq_ofInt]
  simp only [BitVec.ult, decide_eq_true_eq, beq_iff_eq, source_eq_iff_uval, source_toNat]

theorem exec_cmpS : exec (.cmpS w d a b) s = s.complete d (BitVec.ofInt w.bits
    (if sval w (s.reg a) < sval w (s.reg b) then -1 else if sval w (s.reg a) = sval w (s.reg b) then 0 else 1)) := by
  rw [exec, execCmpS, ternary_eq_ofInt]
  simp only [BitVec.slt, decide_eq_true_eq, beq_iff_eq, ← BitVec.toInt_inj, source_toInt]

/-- CMP writes the sign of the difference of the readings at its signedness. -/
theorem sval_cmp (h : exec ((if sg = .signed then Instr.cmpS w else Instr.cmpU w) d a b) s = .next t) :
    sval w (t.reg d) = (valueAt sg (s.source w a) - valueAt sg (s.source w b)).sign := by
  cases sg
  case unsigned =>
    rw [if_neg (by decide), exec_cmpU] at h
    rw [complete_reg_same h, setWidth_ofInt, valueAt, valueAt, source_toNat, source_toNat, ← sval_enc_sign w,
      ← ite_lt_eq_sign_sub]
    norm_cast
  case signed =>
    rw [if_pos rfl, exec_cmpS] at h
    rw [complete_reg_same h, setWidth_ofInt, ite_lt_eq_sign_sub, sval_enc_sign, valueAt, valueAt, source_toInt,
      source_toInt]

end

/-- Settles O31: the sources' order is the order of their unsigned readings. -/
theorem unsignedCmpWritesTheOrder : Obligations.UnsignedCmpWritesTheOrder := fun w _ _ _ _ =>
  ⟨decode_wordR 0x05 rfl rfl, completes_of_exec _ exec_cmpU (setWidth_ofInt w _)⟩

/-- Settles O32: the sources' signed order is the order of their signed readings. -/
theorem signedCmpWritesTheOrder : Obligations.SignedCmpWritesTheOrder := fun w _ _ _ _ =>
  ⟨decode_wordR 0x05 rfl rfl, completes_of_exec _ exec_cmpS (setWidth_ofInt w _)⟩

/-- Settles O33: each law is one of the signs of differences of integers, and a source's reading at either signedness
determines the source. -/
theorem cmpIsATotalOrder : Obligations.CmpIsATotalOrder := by
  rintro w sg _ rfl d a b c s tab tba tbc tac hab hba hbc hac
  rw [sval_cmp hab, sval_cmp hba, sval_cmp hbc, sval_cmp hac]
  refine ⟨?_, ?_, ?_, fun size x y hx hy => ?_⟩
  · rw [Int.sign_eq_zero_iff_zero, sub_eq_zero, valueAt_inj, source_eq_iff_uval, source_toNat]
  · rw [← Int.sign_neg, neg_sub]
  · simp only [Int.sign_eq_neg_one_iff_neg, sub_neg]
    exact lt_trans
  · rw [source_eq_iff_uval.mpr hx, source_eq_iff_uval.mpr hy, valueAt_fromNative, valueAt_fromNative]

end Machine

end Sys2Proof
end

section
/-! The word comparator (R69): the first word from the top that differs decides, since the words below it weigh less
than one unit of it. -/

namespace Sys2Proof

/-- A low part below its weight does not reach the next multiple. -/
theorem add_mul_lt_mul {r m q p : Nat} (hr : r < m) (hq : q < p) : r + m * q < m * p :=
  calc r + m * q
    _ < m + m * q := Nat.add_lt_add_right hr _
    _ = m * (q + 1) := by rw [Nat.mul_succ, Nat.add_comm]
    _ ≤ m * p := Nat.mul_le_mul_left m hq

theorem wordsValue_lt {n : Nat} (ws : List (BitVec n)) : wordsValue ws < 2 ^ (n * ws.length) := by
  induction ws with
  | nil => exact Nat.one_pos
  | cons x xs ih =>
    rw [wordsValue_cons, List.length_cons, Nat.mul_succ, Nat.pow_add, Nat.mul_comm (2 ^ (n * xs.length))]
    exact add_mul_lt_mul x.isLt ih

/-- Of two lists of equal length, the one with the greater top word has the greater value. -/
theorem wordsValue_append_lt {n : Nat} {xs ys : List (BitVec n)} {x y : BitVec n} (hlen : xs.length = ys.length)
    (h : x.toNat < y.toNat) : wordsValue (xs ++ [x]) < wordsValue (ys ++ [y]) := by
  rw [wordsValue_append_one, wordsValue_append_one, ← hlen]
  exact (add_mul_lt_mul (wordsValue_lt xs) h).trans_le (Nat.le_add_left ..)

namespace Machine

/-- The words stand most significant first. -/
theorem compareWords_eq_sign {as bs : List (BitVec 64)} (h : as.length = bs.length) :
    compareWords as bs = ((wordsValue as.reverse : Int) - wordsValue bs.reverse).sign := by
  induction as generalizing bs with
  | nil =>
    obtain rfl := List.eq_nil_of_length_eq_zero h.symm
    rfl
  | cons a as ih =>
    obtain _ | ⟨b, bs⟩ := bs
    · cases h
    · have hlen : as.reverse.length = bs.reverse.length := by simpa using h
      rw [compareWords, List.reverse_cons, List.reverse_cons]
      split_ifs with heq hlt
      · rw [ih (Nat.succ.inj h), wordsValue_append_one, wordsValue_append_one, heq, hlen]
        push_cast
        rw [add_sub_add_right_eq_sub]
      · have := wordsValue_append_lt hlen hlt
        rw [Int.sign_eq_neg_one_of_neg (by omega)]
      · have hgt : b.toNat < a.toNat := (Nat.not_lt.mp hlt).lt_of_ne' (BitVec.toNat_ne.mp heq)
        have := wordsValue_append_lt hlen.symm hgt
        rw [Int.sign_eq_one_of_pos (by omega)]

/-- Settles O50: the comparator gives the sign for the words' values, and the words of a value make the value. -/
theorem wordComparatorGivesTheUnsignedOrder : Obligations.WordComparatorGivesTheUnsignedOrder := by
  intro w a b
  have hdvd : 64 ∣ w.bits := w.dvd_bits (by decide)
  rw [compareWords_eq_sign (by simp), List.reverse_reverse, List.reverse_reverse, wordsValue_wordsOf a hdvd,
    wordsValue_wordsOf b hdvd]

end Machine

end Sys2Proof
end

section
/-! The shift commands (R75 to R78): both shifts by number, what a count of W or more gives, and the words with S = 1
that the decoder rejects. -/

namespace Sys2Proof

/-- A format I word written as a number decodes to the instruction it encodes. -/
theorem decode_wordI {i : Instr} (op : BitVec 6) {w : Width} {sg : Signedness} {rd rs1 : Reg} {imm : BitVec 16}
    (hi : encode i = formatI op w sg rd rs1 imm) (hwf : i.wellFormed = true) :
    decode (wordI op.toNat w sg rd rs1 imm.toNat) = .ok i := by
  rw [← formatI_eq_wordI, ← hi]
  exact decodeInvertsEncode i hwf

/-- SHR and SHRI have no signed form (R46). -/
theorem decode_shiftRight_signed {c : CommandWord} (hop : (opField c).toNat = 0x07 ∨ (opField c).toNat = 0x09)
    (hsg : signField c = .signed) : decode c = .error .signBit := by
  obtain hop | hop := hop <;> simp [decode, requireSign, require, hop, hsg]

namespace Machine

/-! ### The shifts by number -/

section
variable {n : Nat} (a : BitVec n) {count : Nat}

theorem shiftLeft_of_le (h : n ≤ count) : shiftLeft a count = 0#n := if_neg h.not_gt

theorem shiftRight_of_le (h : n ≤ count) : shiftRight a count = 0#n := if_neg h.not_gt

/-- The 0 for a count of W or more is no exception: a·2^count is then 0 modulo 2^W. -/
theorem shiftLeft_toNat : (shiftLeft a count).toNat = a.toNat * 2 ^ count % 2 ^ n := by
  rw [shiftLeft]
  split_ifs with h
  · rw [BitVec.toNat_shiftLeft, Nat.shiftLeft_eq]
  · have hdvd : 2 ^ n ∣ a.toNat * 2 ^ count := (Nat.pow_dvd_pow 2 (Nat.not_lt.mp h)).mul_left _
    rw [BitVec.toNat_zero, Nat.mod_eq_zero_of_dvd hdvd]

/-- The same to the right: a is below 2^count then. -/
theorem shiftRight_toNat : (shiftRight a count).toNat = a.toNat / 2 ^ count := by
  rw [shiftRight]
  split_ifs with h
  · rw [BitVec.toNat_ushiftRight, Nat.shiftRight_eq_div_pow]
  · have hlt : a.toNat < 2 ^ count := a.isLt.trans_le (Nat.pow_le_pow_right (by decide) (Nat.not_lt.mp h))
    rw [BitVec.toNat_zero, Nat.div_eq_of_lt hlt]

end

/-! ### The result of one command -/

section
variable {i : Instr} {s : State} {w : Width} {d r : Reg} {count : Nat}

/-- A shift completes with its result, which is 0 for every count from W on. -/
theorem completes_shifted {v : BitVec w.bits} {x : RegWord} (hexec : exec i s = s.complete d v)
    (hx : v.setWidth 256 = x) (hzero : w.bits ≤ count → v = 0#w.bits) :
    ∃ t, exec i s = .next t ∧ Completes s t [(d, x)] ∧ (w.bits ≤ count → t.reg d = 0) := by
  obtain ⟨t, ht, hc⟩ := completes_of_exec v hexec hx
  refine ⟨t, ht, hc, fun h => ?_⟩
  rw [complete_reg_same (hexec.symm.trans ht), hzero h, BitVec.setWidth_zero]
  rfl

theorem completes_shiftLeft (hexec : exec i s = s.complete d (shiftLeft (s.source w r) count)) :
    ∃ t, exec i s = .next t ∧ Completes s t [(d, enc w (uval w (s.reg r) * 2 ^ count))] ∧
      (w.bits ≤ count → t.reg d = 0) := by
  refine completes_shifted hexec ?_ (shiftLeft_of_le _)
  rw [setWidth_eq_enc, shiftLeft_toNat, source_toNat]
  exact enc_congr w (by push_cast; exact Int.emod_emod _ _)

theorem completes_shiftRight (hexec : exec i s = s.complete d (shiftRight (s.source w r) count)) :
    ∃ t, exec i s = .next t ∧ Completes s t [(d, enc w ((uval w (s.reg r) / 2 ^ count : Nat) : Int))] ∧
      (w.bits ≤ count → t.reg d = 0) := by
  refine completes_shifted hexec ?_ (shiftRight_of_le _)
  rw [setWidth_eq_enc, shiftRight_toNat, source_toNat]

end

/-- Settles O34: both commands shift the source left, by the whole value of the other source and by the immediate. -/
theorem shiftLeftMultipliesByAPowerOfTwo : Obligations.ShiftLeftMultipliesByAPowerOfTwo := by
  refine ⟨fun w sg rd rs1 rs2 s => ⟨decode_wordR 0x06 rfl rfl, completes_shiftLeft ?_⟩,
    fun w sg rd rs1 imm s => ⟨decode_wordI 0x08 rfl rfl, completes_shiftLeft rfl⟩⟩
  rw [← source_toNat]
  rfl

/-- Settles O35: both commands shift the source right; a word with S = 1 is none of theirs. -/
theorem shiftRightDividesByAPowerOfTwo : Obligations.ShiftRightDividesByAPowerOfTwo := by
  constructor
  · intro w rd rs1 rs2 s
    obtain ⟨hop, -, hsg, -⟩ := wordR_decoded 0x07 (by decide) w .signed rd rs1 rs2 0
    refine ⟨decode_wordR 0x07 rfl rfl, decode_shiftRight_signed (.inl hop) hsg, completes_shiftRight ?_⟩
    rw [← source_toNat]
    rfl
  · intro w rd rs1 imm s
    obtain ⟨hop, -, hsg, -⟩ := wordI_decoded 0x09 (by decide) w .signed rd rs1 imm
    exact ⟨decode_wordI 0x09 rfl rfl, decode_shiftRight_signed (.inr hop) hsg, completes_shiftRight rfl⟩

end Machine

end Sys2Proof
end

section
/-! The word shifter (R73): each result word is a window of 64 bits on two adjacent words, so a list of words is
shifted as one number. -/

namespace Sys2Proof

/-! ### Words appended and dropped -/

theorem wordsValue_append {n : Nat} (xs ys : List (BitVec n)) :
    wordsValue (xs ++ ys) = wordsValue xs + 2 ^ (n * xs.length) * wordsValue ys := by
  induction xs with
  | nil => simp [wordsValue]
  | cons x xs ih =>
    rw [List.cons_append, wordsValue_cons, wordsValue_cons, ih, List.length_cons, Nat.mul_succ, Nat.pow_add]
    ring

theorem wordsValue_append_zeros {n : Nat} (ws : List (BitVec n)) (k : Nat) :
    wordsValue (ws ++ List.replicate k 0#n) = wordsValue ws := by
  rw [wordsValue_append, wordsValue_replicate_zero, Nat.mul_zero, Nat.add_zero]

/-- Dividing by a word's weight leaves the words above the lowest. -/
theorem wordsValue_cons_div {n : Nat} (x : BitVec n) (ws : List (BitVec n)) :
    wordsValue (x :: ws) / 2 ^ n = wordsValue ws := by
  rw [wordsValue_cons, Nat.add_mul_div_left _ _ (Nat.two_pow_pos n), Nat.div_eq_of_lt x.isLt, Nat.zero_add]

/-- Dropping the k lowest words divides by their weight. -/
theorem wordsValue_drop {n : Nat} (ws : List (BitVec n)) (k : Nat) :
    wordsValue (ws.drop k) = wordsValue ws / 2 ^ (n * k) := by
  induction k generalizing ws with
  | zero => rw [List.drop_zero, Nat.mul_zero, Nat.pow_zero, Nat.div_one]
  | succ k ih =>
    cases ws with
    | nil => rw [List.drop_nil, wordsValue, List.foldr_nil, Nat.zero_div]
    | cons x ws =>
      rw [List.drop_succ_cons, ih, Nat.mul_succ, Nat.add_comm (n * k), Nat.pow_add, ← Nat.div_div_eq_div_mul,
        wordsValue_cons_div]

namespace Machine

/-! ### The window on two adjacent words -/

/-- R73's carry between adjacent words: the high word moved up by k bits, filled with the low word's k top bits. -/
def funnelWord (k : Nat) (hi lo : BitVec 64) : BitVec 64 := (hi <<< k) ||| (lo >>> (64 - k))

theorem funnelWord_toNat {k : Nat} (hk : k ≤ 64) (hi lo : BitVec 64) :
    (funnelWord k hi lo).toNat = (lo.toNat + 2 ^ 64 * hi.toNat) / 2 ^ (64 - k) % 2 ^ 64 := by
  have hwindow : funnelWord k hi lo = (hi ++ lo).extractLsb' (64 - k) 64 := by
    apply BitVec.eq_of_getLsbD_eq
    intro b hb
    rw [funnelWord, BitVec.getLsbD_or, BitVec.getLsbD_shiftLeft, BitVec.getLsbD_ushiftRight,
      BitVec.getLsbD_extractLsb', BitVec.getLsbD_append]
    obtain hlo | hhi := Nat.lt_or_ge b k
    · simp [hb, hlo, show 64 - k + b < 64 by omega]
    · have hge : 64 ≤ 64 - k + b := by omega
      simp [hb, hhi.not_gt, hge.not_gt, BitVec.getLsbD_of_ge lo _ hge, show 64 - k + b - 64 = b - k by omega]
  rw [hwindow, BitVec.extractLsb'_toNat, Nat.shiftRight_eq_div_pow, toNat_append_eq_add, Nat.mul_comm, Nat.add_comm]

/-- The window does not reach the words above the two. -/
theorem wordsValue_window {k : Nat} (hk : k ≤ 64) (hi lo : BitVec 64) (his : List (BitVec 64)) :
    wordsValue (lo :: hi :: his) / 2 ^ (64 - k) % 2 ^ 64 = (funnelWord k hi lo).toNat := by
  have habove : wordsValue (lo :: hi :: his) =
      lo.toNat + 2 ^ 64 * hi.toNat + 2 ^ (64 - k) * (2 ^ 64 * (2 ^ k * wordsValue his)) := by
    rw [wordsValue_cons, wordsValue_cons]
    linear_combination (2 ^ 64 * wordsValue his) * (pow_sub_mul_pow 2 hk).symm
  rw [funnelWord_toNat hk, habove, Nat.add_mul_div_left _ _ (Nat.two_pow_pos _), Nat.add_mul_mod_self_left]

/-- Windows on all adjacent words of a list shift it as one number. -/
theorem wordsValue_zipWith_funnelWord {k : Nat} (hk : k ≤ 64) (lo : BitVec 64) (his : List (BitVec 64)) :
    wordsValue (his.zipWith (funnelWord k) (lo :: his)) =
      wordsValue (lo :: his) / 2 ^ (64 - k) % 2 ^ (64 * his.length) := by
  induction his generalizing lo with
  | nil => exact (Nat.mod_one _).symm
  | cons hi his ih =>
    have hrest : wordsValue (lo :: hi :: his) / 2 ^ (64 - k) / 2 ^ 64 = wordsValue (hi :: his) / 2 ^ (64 - k) := by
      rw [Nat.div_right_comm, wordsValue_cons_div]
    rw [List.zipWith_cons_cons, wordsValue_cons, ih, List.length_cons, Nat.mul_succ, Nat.add_comm (64 * _), Nat.pow_add,
      Nat.mod_mul, wordsValue_window hk, hrest]

/-- With no word above the list's own, nothing is cut off at the top. -/
theorem wordsValue_zipWith_funnelWord_zero {k : Nat} (hk : k ≤ 64) (ws : List (BitVec 64)) :
    wordsValue ((ws.tail ++ [0#64]).zipWith (funnelWord k) ws) = wordsValue ws / 2 ^ (64 - k) := by
  cases ws with
  | nil => exact (Nat.zero_div _).symm
  | cons lo his =>
    have htop : (his ++ [0#64]).zipWith (funnelWord k) (lo :: his) =
        (his ++ [0#64]).zipWith (funnelWord k) (lo :: (his ++ [0#64])) := by
      simpa using (List.zipWith_append (f := funnelWord k) (l₁ := his ++ [0#64]) (l₂ := lo :: his) (l₁' := [])
        (l₂' := [0#64]) (by simp)).symm
    have hvalue : wordsValue (lo :: (his ++ [0#64])) = wordsValue (lo :: his) := wordsValue_append_zeros (lo :: his) 1
    have hlt : wordsValue (lo :: his) / 2 ^ (64 - k) < 2 ^ (64 * (his ++ [0#64]).length) := by
      rw [List.length_append]
      exact (Nat.div_le_self _ _).trans_lt (wordsValue_lt (lo :: his))
    rw [List.tail_cons, htop, wordsValue_zipWith_funnelWord hk, hvalue, Nat.mod_eq_of_lt hlt]

/-! ### The word moves -/

section
variable (ws : List (BitVec 64)) (k n : Nat)

/-- The words moved k places up, within their number. -/
def wordsMovedUp : List (BitVec 64) := (List.replicate k 0#64 ++ ws).take ws.length

/-- The words moved k places down. -/
def wordsMovedDown : List (BitVec 64) := ws.drop k ++ List.replicate (min k ws.length) 0#64

theorem wordsMovedUp_length : (wordsMovedUp ws k).length = ws.length := by simp [wordsMovedUp]

theorem wordsValue_wordsMovedUp :
    wordsValue (wordsMovedUp ws k) = 2 ^ (64 * k) * wordsValue ws % 2 ^ (64 * ws.length) := by
  rw [wordsMovedUp, wordsValue_take, wordsValue_append, wordsValue_replicate_zero, List.length_replicate, Nat.zero_add]

theorem wordsValue_wordsMovedDown : wordsValue (wordsMovedDown ws k) = wordsValue ws / 2 ^ (64 * k) := by
  rw [wordsMovedDown, wordsValue_append_zeros, wordsValue_drop]

/-! ### The two shifts -/

theorem shiftWordsLeft_eq : shiftWordsLeft ws n =
    (wordsMovedUp ws (n / 64)).zipWith (funnelWord (n % 64)) (0#64 :: wordsMovedUp ws (n / 64)) := rfl

theorem shiftWordsRight_eq : shiftWordsRight ws n =
    ((wordsMovedDown ws (n / 64)).tail ++ [0#64]).zipWith (funnelWord (64 - n % 64)) (wordsMovedDown ws (n / 64)) := by
  have hword (lo hi : BitVec 64) :
      (lo >>> (n % 64)) ||| (hi <<< (64 - n % 64)) = funnelWord (64 - n % 64) hi lo := by
    rw [funnelWord, Nat.sub_sub_self (Nat.mod_lt n (by decide)).le, BitVec.or_comm]
  rw [List.zipWith_comm]
  simp only [shiftWordsRight, wordsMovedDown, hword]

theorem wordsValue_shiftWordsLeft :
    wordsValue (shiftWordsLeft ws n) = wordsValue ws * 2 ^ n % 2 ^ (64 * ws.length) := by
  have hk : n % 64 ≤ 64 := (Nat.mod_lt n (by decide)).le
  have hshift (vs : List (BitVec 64)) :
      wordsValue (0#64 :: vs) / 2 ^ (64 - n % 64) = 2 ^ (n % 64) * wordsValue vs := by
    rw [wordsValue_cons, BitVec.toNat_zero, Nat.zero_add, ← pow_sub_mul_pow 2 hk, Nat.mul_assoc,
      Nat.mul_div_cancel_left _ (Nat.two_pow_pos _)]
  have hcount : 2 ^ (n % 64) * 2 ^ (64 * (n / 64)) = 2 ^ n := by rw [← Nat.pow_add, Nat.mod_add_div]
  rw [shiftWordsLeft_eq, wordsValue_zipWith_funnelWord hk, hshift, wordsMovedUp_length, wordsValue_wordsMovedUp,
    Nat.mul_mod_mod, ← Nat.mul_assoc, hcount, Nat.mul_comm]

theorem wordsValue_shiftWordsRight : wordsValue (shiftWordsRight ws n) = wordsValue ws / 2 ^ n := by
  rw [shiftWordsRight_eq, wordsValue_zipWith_funnelWord_zero (Nat.sub_le ..), wordsValue_wordsMovedDown,
    Nat.sub_sub_self (Nat.mod_lt n (by decide)).le, Nat.div_div_eq_div_mul, ← Nat.pow_add, Nat.div_add_mod]

end

/-- Settles O51: the shifter shifts the words' value, and the words of a value make the value. -/
theorem wordShifterComputesTheShifts : Obligations.WordShifterComputesTheShifts := by
  intro w a n
  have hdvd : 64 ∣ w.bits := w.dvd_bits (by decide)
  rw [wordsValue_shiftWordsLeft, wordsValue_shiftWordsRight, wordsValue_wordsOf a hdvd, wordsOf_length,
    Nat.mul_div_cancel' hdvd]
  exact ⟨BitVec.eq_of_toNat_eq (by simp), rfl⟩

end Machine

end Sys2Proof
end

section
/-! The logic commands (R81 to R84): each bit of the result is one function of the sources' bits there, and the words of
NOT with an unused field set. -/

namespace Sys2Proof

/-- Where RS2 and RD2 are unused, both must be 0 (R46). -/
theorem decodeTwo_eq_error {c : CommandWord} (i : Instr) (h : rs2Field c ≠ 0 ∨ rd2Field c ≠ 0) :
    ∃ e, decodeTwo c i = .error e := by
  cases hdec : decodeTwo c i with
  | error e => exact ⟨e, rfl⟩
  | ok j =>
    obtain ⟨-, hrd2, hrs2, -⟩ := decodeTwo_eq_ok.mp hdec
    exact h.elim (absurd hrs2) (absurd hrd2)

theorem decode_not_eq_decodeTwo {c : CommandWord} (hop : (opField c).toNat = 0x0D) :
    decode c = decodeTwo c (.not (widthField c) (signField c) (rdField c) (rs1Field c)) := by
  simp [decode, hop]

namespace Machine

/-- A source has the register's bits below W (R15). -/
theorem source_getLsbD (s : State) {w : Width} (r : Reg) {b : Nat} (hb : b < w.bits) :
    (s.source w r).getLsbD b = (s.reg r).getLsbD b := by
  rw [State.source, BitVec.getLsbD_setWidth, decide_eq_true hb, Bool.true_and]

/-- A command whose W-bit result has the bits `f` writes those bits, and 0 from bit W on (R16). -/
theorem completes_bits {i : Instr} {s : State} {w : Width} {d : Reg} {v : BitVec w.bits} {f : Nat → Bool}
    (hexec : exec i s = s.complete d v) (hbits : ∀ b < w.bits, v.getLsbD b = f b) :
    ∃ t x, exec i s = .next t ∧ Completes s t [(d, x)] ∧ ∀ b, x.getLsbD b = (decide (b < w.bits) && f b) := by
  obtain ⟨t, ht, hc⟩ := completes_of_exec v hexec rfl
  refine ⟨t, _, ht, hc, fun b => ?_⟩
  rw [BitVec.getLsbD_setWidth]
  by_cases hb : b < w.bits
  · rw [hbits b hb, decide_eq_true hb, decide_eq_true (hb.trans_le w.bits_le)]
  · simp [hb, BitVec.getLsbD_of_ge v b (Nat.not_lt.mp hb)]

/-- Settles O36: each command's result is that operation on the two sources, bit by bit. -/
theorem logicWorksBitByBitOnTheLowBits : Obligations.LogicWorksBitByBitOnTheLowBits := by
  intro w sg rd rs1 rs2 rd2 s
  refine ⟨⟨decode_wordR 0x0A rfl rfl, completes_bits rfl fun b hb => ?_⟩,
    ⟨decode_wordR 0x0B rfl rfl, completes_bits rfl fun b hb => ?_⟩,
    ⟨decode_wordR 0x0C rfl rfl, completes_bits rfl fun b hb => ?_⟩,
    decode_wordR 0x0D rfl rfl, fun hfields => ?_, completes_bits rfl fun b hb => ?_⟩
  · rw [BitVec.getLsbD_and, source_getLsbD s rs1 hb, source_getLsbD s rs2 hb]
  · rw [BitVec.getLsbD_or, source_getLsbD s rs1 hb, source_getLsbD s rs2 hb]
  · rw [BitVec.getLsbD_xor, source_getLsbD s rs1 hb, source_getLsbD s rs2 hb]
  · obtain ⟨hop, -, -, -, -, hrs2, hrd2, -⟩ := wordR_decoded 0x0D (by decide) w sg rd rs1 rs2 rd2
    rw [decode_not_eq_decodeTwo hop]
    exact decodeTwo_eq_error _ (by rwa [hrs2, hrd2])
  · rw [BitVec.getLsbD_not, source_getLsbD s rs1 hb, decide_eq_true hb, Bool.true_and]

end Machine

end Sys2Proof
end

section
/-! DECACC (R85): the decimal step by number, its two endings, and the words that the decoder rejects. -/

namespace Sys2Proof

theorem lt_two_pow_iff_le_maxU (w : Width) (x : Nat) : x < 2 ^ w.bits ↔ x ≤ maxU w :=
  Nat.lt_iff_le_pred (Nat.two_pow_pos _)

/-- Both MaxU(W) end in the digit 5. -/
theorem maxU_mod_ten (w : Width) : maxU w % 10 = 5 := by cases w <;> decide

/-- DECACC has no signed form (R46). -/
theorem decode_decacc_signed {c : CommandWord} (hop : (opField c).toNat = 0x0E) (hsg : signField c = .signed) :
    decode c = .error .signBit := by
  simp [decode, requireSign, require, hop, hsg]

theorem decode_decacc_digit {c : CommandWord} (hop : (opField c).toNat = 0x0E) (hsg : signField c = .unsigned)
    (himm : 9 < (immField c).toNat) : decode c = .error .digit := by
  simp [decode, requireSign, require, hop, hsg, himm]

theorem decode_decacc (w : Width) (rd rs1 : Reg) {digit : BitVec 4} (h : digit.toNat ≤ 9) :
    decode (wordI 0x0E w .unsigned rd rs1 digit.toNat) = .ok (.decacc w rd rs1 digit) := by
  have himm : (digit.setWidth 16).toNat = digit.toNat := BitVec.toNat_setWidth_of_le (by decide)
  rw [← himm]
  exact decode_wordI 0x0E rfl (decide_eq_true h)

namespace Machine

/-! ### The decimal step -/

section
variable {n : Nat} {m : BitVec n} {d : Nat}

theorem decimalStep_of_lt (h : m.toNat * 10 + d < 2 ^ n) :
    decimalStep m d = some (BitVec.ofNat n (m.toNat * 10 + d)) := if_pos h

theorem decimalStep_of_le (h : 2 ^ n ≤ m.toNat * 10 + d) : decimalStep m d = none := if_neg h.not_gt

end

/-! ### The endings of the command -/

section
variable {w : Width} {rd rs1 : Reg} {digit : BitVec 4} {s : State} (hdigit : digit.toNat ≤ 9)
include hdigit

theorem decacc_completes (h : uval w (s.reg rs1) * 10 + digit.toNat ≤ maxU w) :
    exec (.decacc w rd rs1 digit) s =
      s.complete rd (BitVec.ofNat w.bits (uval w (s.reg rs1) * 10 + digit.toNat)) := by
  rw [← lt_two_pow_iff_le_maxU, ← source_toNat] at h
  rw [exec, execDecacc, if_neg hdigit.not_gt, decimalStep_of_lt h, source_toNat]

theorem decacc_fails (h : maxU w < uval w (s.reg rs1) * 10 + digit.toNat) :
    exec (.decacc w rd rs1 digit) s = s.fail .overflow := by
  rw [← Nat.not_le, ← lt_two_pow_iff_le_maxU, ← source_toNat, Nat.not_lt] at h
  rw [exec, execDecacc, if_neg hdigit.not_gt, decimalStep_of_le h]

/-- R85's threshold, from the last digit of MaxU(W). -/
theorem maxU_lt_iff_threshold (m : Nat) :
    maxU w < m * 10 + digit.toNat ↔ maxU w / 10 < m ∨ (m = maxU w / 10 ∧ 6 ≤ digit.toNat) := by
  have := maxU_mod_ten w
  omega

end

/-- Settles O37: the decimal step is exact, so it overflows exactly above MaxU(W); the decoder rejects the rest. -/
theorem decaccAccumulatesOrOverflows : Obligations.DecaccAccumulatesOrOverflows := by
  refine fun w rd rs1 digit s => ⟨fun imm himm => ?_, fun imm => ?_, fun hdigit =>
    ⟨decode_decacc w rd rs1 hdigit, fun hle => completes_of_exec _ (decacc_completes hdigit hle) ?_,
      fun hlt => raises_of_exec (decacc_fails hdigit hlt), maxU_lt_iff_threshold hdigit _⟩⟩
  · obtain ⟨hop, -, hsg, -, -, hfield⟩ := wordI_decoded 0x0E (by decide) w .unsigned rd rs1 imm
    exact decode_decacc_digit hop hsg (by rwa [hfield])
  · obtain ⟨hop, -, hsg, -⟩ := wordI_decoded 0x0E (by decide) w .signed rd rs1 imm
    exact decode_decacc_signed hop hsg
  · rw [setWidth_eq_enc, BitVec.toNat_ofNat, Nat.mod_eq_of_lt ((lt_two_pow_iff_le_maxU ..).mpr hle)]
    push_cast
    rfl

end Machine

end Sys2Proof
end

section
/-! Decimal text (R87 to R89, R92): a text of digits is read as the number it writes in base ten, and FormatDecU writes
the digits of its number without a leading zero. -/

namespace Sys2Proof.Machine

/-! ### The sign -/

/-- A text whose characters all pass a test that no sign passes has no sign. -/
theorem splitSign_of_all {p : Char → Bool} (hminus : p '-' = false) (hplus : p '+' = false) {text : List Char}
    (h : text.all p = true) : splitSign text = (false, text) := by
  unfold splitSign
  split
  next => simp [hminus] at h
  next => simp [hplus] at h
  next => rfl

/-! ### Texts of digits -/

theorem decimalDigit?_decimalChar {d : Nat} (h : d < 10) : decimalDigit? (decimalChar d) = some d := by
  have hall : ∀ d : Fin 10, decimalDigit? (decimalChar d.val) = some d.val := by decide
  exact hall ⟨d, h⟩

theorem decimalChar_eq_zero_iff {d : Nat} (h : d < 10) : decimalChar d = '0' ↔ d = 0 := by
  have hall : ∀ d : Fin 10, decimalChar d.val = '0' ↔ d.val = 0 := by decide
  exact hall ⟨d, h⟩

section
variable {zeros : LeadingZeros} {w : Width} {sg : Signedness} {allowNeg neg : Bool} {ds : List Nat}
  (hlt : ∀ d ∈ ds, d < 10)
include hlt

theorem all_decimalDigit?_decimalChar : (ds.map decimalChar).all (fun c => (decimalDigit? c).isSome) = true := by
  simp +contextual [decimalDigit?_decimalChar, hlt]

theorem splitSign_decimalChar : splitSign (ds.map decimalChar) = (false, ds.map decimalChar) :=
  splitSign_of_all (by decide) (by decide) (all_decimalDigit?_decimalChar hlt)

/-- The grammar of R87 admits digits that lead with no zero, and any digits where leading zeros are accepted. -/
theorem decimalGrammar_decimalChar (hne : ds ≠ [])
    (hzeros : zeros = .accept ∨ ds.length = 1 ∨ ds.head? ≠ some 0) :
    decimalGrammar zeros (ds.map decimalChar) = true := by
  refine Bool.and_eq_true_iff.mpr ⟨all_decimalDigit?_decimalChar hlt, ?_⟩
  match ds with
  | [] => exact absurd rfl hne
  | [_] => rfl
  | d :: _ :: _ =>
    have hd : d < 10 := hlt d List.mem_cons_self
    simpa [decimalChar_eq_zero_iff hd] using hzeros

/-- The accumulation reads base ten, with its start value as one more digit in front: it is nothing exactly when the
number does not fit, since no prefix of the digits writes a greater number. -/
theorem accumulate_decimalChar {n : Nat} (m : BitVec n) :
    accumulate m (ds.map decimalChar) =
      if Nat.ofDigits 10 (m.toNat :: ds).reverse < 2 ^ n then
        some (BitVec.ofNat n (Nat.ofDigits 10 (m.toNat :: ds).reverse))
      else none := by
  induction ds generalizing m with
  | nil => simp [accumulate, m.isLt]
  | cons d ds ih =>
    have hvalue : Nat.ofDigits 10 (m.toNat :: d :: ds).reverse =
        Nat.ofDigits 10 ((m.toNat * 10 + d) :: ds).reverse := by
      rw [Nat.ofDigits_reverse_cons, Nat.ofDigits_reverse_cons, Nat.ofDigits_reverse_cons, List.length_cons]
      ring
    rw [List.map_cons, accumulate, decimalDigit?_decimalChar (hlt d List.mem_cons_self), Option.getD_some, hvalue]
    obtain hfits | hover := Nat.lt_or_ge (m.toNat * 10 + d) (2 ^ n)
    · have hrest := ih (fun e he => hlt e (List.mem_cons_of_mem d he)) (BitVec.ofNat n (m.toNat * 10 + d))
      rw [BitVec.toNat_ofNat, Nat.mod_eq_of_lt hfits] at hrest
      rw [decimalStep_of_lt hfits]
      exact hrest
    · rw [decimalStep_of_le hover]
      have hprefix : m.toNat * 10 + d ≤ Nat.ofDigits 10 ((m.toNat * 10 + d) :: ds).reverse := by
        rw [Nat.ofDigits_reverse_cons]
        exact (Nat.le_mul_of_pos_left _ (by positivity)).trans (Nat.le_add_left ..)
      rw [if_neg (hover.trans hprefix).not_gt]

/-- ParseDec on a text whose digits the grammar admits (R89). -/
theorem parseDec_eq {text : List Char} (hsplit : splitSign text = (neg, ds.map decimalChar)) (hne : ds ≠ [])
    (hzeros : zeros = .accept ∨ ds.length = 1 ∨ ds.head? ≠ some 0) :
    parseDec zeros w sg allowNeg text =
      if Nat.ofDigits 10 ds.reverse ≤ maxU w then
        signMagnitude w sg allowNeg neg (BitVec.ofNat w.bits (Nat.ofDigits 10 ds.reverse))
      else .error .overflow := by
  have hvalue : Nat.ofDigits 10 ((0#w.bits).toNat :: ds).reverse = Nat.ofDigits 10 ds.reverse := by
    rw [BitVec.toNat_zero, List.reverse_cons, Nat.ofDigits_append_zero]
  simp only [parseDec, hsplit, decimalGrammar_decimalChar hlt hne hzeros, accumulate_decimalChar hlt, hvalue,
    lt_two_pow_iff_le_maxU, Bool.not_true, Bool.false_eq_true, if_false]
  split_ifs <;> rfl

end

/-! ### The range check -/

section
variable {w : Width} (allowNeg : Bool) {m : BitVec w.bits}

theorem signMagnitude_zero (sg : Signedness) (neg : Bool) : signMagnitude w sg allowNeg neg 0 = .ok 0 := if_pos rfl

theorem signMagnitude_unsigned : signMagnitude w .unsigned allowNeg false m = .ok m := by
  by_cases h0 : m = 0
  · rw [h0, signMagnitude_zero]
  · exact if_neg h0

theorem signMagnitude_signed_positive (h : m.msb = false) : signMagnitude w .signed allowNeg false m = .ok m := by
  rw [BitVec.msb_eq_false_iff_two_mul_lt] at h
  have hmax : ¬ (m.toNat : Int) > maxS w := by
    have hpow := Nat.two_pow_pred_mul_two w.bits_pos
    rw [maxS]
    zify at h hpow
    omega
  by_cases h0 : m = 0
  · rw [h0, signMagnitude_zero]
  · exact (if_neg h0).trans (if_neg hmax)

/-- The magnitude 2^(W-1) of the least value passes. -/
theorem signMagnitude_signed_negative (h : m.toNat ≤ 2 ^ (w.bits - 1)) :
    signMagnitude w .signed allowNeg true m = .ok (negate m) := by
  by_cases h0 : m = 0
  · rw [h0, signMagnitude_zero, negate_eq_neg, BitVec.ofNat_eq_ofNat, BitVec.neg_zero]
  · exact (if_neg h0).trans (if_neg h.not_gt)

end

/-! ### FormatDecU (R88) -/

/-- The decimal digits of a number, the most significant first; 0 has one. -/
def decimalDigits (u : Nat) : List Nat := if u = 0 then [0] else (Nat.digits 10 u).reverse

theorem formatDecLoop_eq {fuel u : Nat} (h : u < 10 ^ fuel) (text : List Char) :
    formatDecLoop fuel u text = (Nat.digits 10 u).reverse.map decimalChar ++ text := by
  induction fuel generalizing u text with
  | zero => simp [formatDecLoop, Nat.lt_one_iff.mp h]
  | succ fuel ih =>
    rw [formatDecLoop]
    split_ifs with h0
    · simp [h0]
    · rw [ih (Nat.div_lt_of_lt_mul (by rwa [← Nat.pow_succ'])), Nat.digits_def' (by decide) (Nat.pos_of_ne_zero h0)]
      simp

theorem formatDecU_eq (u : Nat) : formatDecU u = (decimalDigits u).map decimalChar := by
  rw [formatDecU, decimalDigits]
  split_ifs with h0
  · rfl
  · have hfuel : u < 10 ^ (u.log2 + 1) := Nat.lt_log2_self.trans_le (Nat.pow_le_pow_left (by decide) _)
    rw [formatDecLoop_eq hfuel, List.append_nil]

section
variable (u : Nat)

theorem decimalDigits_lt : ∀ d ∈ decimalDigits u, d < 10 := by
  rw [decimalDigits]
  split_ifs
  · simp
  · exact fun d hd => Nat.digits_lt_base (by decide) (List.mem_reverse.mp hd)

theorem decimalDigits_ne_nil : decimalDigits u ≠ [] := by
  rw [decimalDigits]
  split_ifs with h0
  · simp
  · exact List.reverse_ne_nil_iff.mpr (Nat.digits_ne_nil_iff_ne_zero.mpr h0)

/-- Only 0 itself leads with a zero. -/
theorem decimalDigits_head : (decimalDigits u).length = 1 ∨ (decimalDigits u).head? ≠ some 0 := by
  rw [decimalDigits]
  split_ifs with h0
  · exact .inl rfl
  · have hlast := Nat.getLast_digit_ne_zero 10 h0
    rw [List.head?_reverse, List.getLast?_eq_some_getLast (Nat.digits_ne_nil_iff_ne_zero.mpr h0)]
    exact .inr fun h => hlast (Option.some.inj h)

theorem ofDigits_decimalDigits : Nat.ofDigits 10 (decimalDigits u).reverse = u := by
  rw [decimalDigits]
  split_ifs with h0
  · rw [h0]
    rfl
  · rw [List.reverse_reverse, Nat.ofDigits_digits]

end

/-- The text of a number below 2^W, with or without a sign, is read as that magnitude. -/
theorem parseDec_of_formatDecU {zeros : LeadingZeros} {w : Width} {sg : Signedness} {allowNeg neg : Bool}
    {text : List Char} (m : BitVec w.bits) (hsplit : splitSign text = (neg, formatDecU m.toNat)) :
    parseDec zeros w sg allowNeg text = signMagnitude w sg allowNeg neg m := by
  rw [formatDecU_eq] at hsplit
  rw [parseDec_eq (decimalDigits_lt _) hsplit (decimalDigits_ne_nil _) (.inr (decimalDigits_head _)),
    ofDigits_decimalDigits, if_pos ((lt_two_pow_iff_le_maxU ..).mp m.isLt), BitVec.ofNat_toNat, BitVec.setWidth_eq]

theorem splitSign_formatDecU (u : Nat) : splitSign (formatDecU u) = (false, formatDecU u) := by
  rw [formatDecU_eq, splitSign_decimalChar (decimalDigits_lt u)]

/-! ### Round trip and reading -/

/-- The least value's magnitude, 2^(W-1), is the greatest. -/
theorem negate_toNat_le {w : Width} {v : BitVec w.bits} (h : v.msb = true) :
    (negate v).toNat ≤ 2 ^ (w.bits - 1) := by
  rw [BitVec.msb_eq_true_iff_two_mul_ge] at h
  have hpow := Nat.two_pow_pred_mul_two w.bits_pos
  rw [negate_eq_neg, BitVec.toNat_neg]
  exact (Nat.mod_le ..).trans (by omega)

/-- Settles O52: FormatDec writes the magnitude's digits behind the value's sign, and the magnitude passes the range
check of its own sign. -/
theorem decimalTextRoundTrips : Obligations.DecimalTextRoundTrips := by
  intro zeros w sg allowNeg v
  rw [formatDec]
  split_ifs with hneg
  · obtain ⟨rfl, hmsb⟩ := hneg
    rw [parseDec_of_formatDecU (negate v) rfl, signMagnitude_signed_negative allowNeg (negate_toNat_le hmsb),
      negate_eq_neg, negate_eq_neg, BitVec.neg_neg]
  · rw [parseDec_of_formatDecU v (splitSign_formatDecU _)]
    cases sg with
    | unsigned => exact signMagnitude_unsigned allowNeg
    | signed => exact signMagnitude_signed_positive allowNeg (Bool.eq_false_iff.mpr fun hmsb => hneg ⟨rfl, hmsb⟩)

/-- Settles O54: without a sign the range check passes every magnitude. -/
theorem parseDecReadsTheNumberInBaseTen : Obligations.ParseDecReadsTheNumberInBaseTen := by
  intro zeros w allowNeg digits hne hzeros
  have hlt : ∀ d ∈ digits.map Fin.val, d < 10 := by simp
  have hhead : zeros = .accept ∨ (digits.map Fin.val).length = 1 ∨ (digits.map Fin.val).head? ≠ some 0 := by
    rw [List.length_map, List.head?_map]
    exact hzeros.imp_right (Or.imp_right (Option.map_injective Fin.val_injective).ne)
  have htext : (digits.map fun d => decimalChar d.val) = (digits.map Fin.val).map decimalChar := by simp
  rw [htext, parseDec_eq hlt (splitSign_decimalChar hlt) (by simpa using hne) hhead, List.map_reverse,
    signMagnitude_unsigned]

end Sys2Proof.Machine
end

section
/-! Hexadecimal text (R90 to R92): leading zeros neither change the number that a text writes nor look like a sign or a
prefix, so only the count of characters tells a padded text from the nibbles of the value. -/

namespace Sys2Proof.Machine

/-! ### Texts of digits -/

/-- R91's digits of a text, of either case. -/
def isHexText (text : List Char) : Bool := text.all fun c => (hexDigit? c).isSome

/-- The number that a text writes in base sixteen. -/
def hexValue (text : List Char) : Nat := text.foldl (fun acc c => acc * 16 + (hexDigit? c).getD 0) 0

theorem hexDigit?_hexChar (upper : Bool) (d : BitVec 4) : hexDigit? (hexChar upper d.toNat) = some d.toNat := by
  have hall : ∀ upper, ∀ d : Fin 16, hexDigit? (hexChar upper d.val) = some d.val := by decide
  exact hall upper ⟨d.toNat, d.isLt⟩

theorem dropHexPrefix_of_isHexText {text : List Char} (h : isHexText text = true) : dropHexPrefix text = text := by
  have hx : hexDigit? 'x' = none := by decide
  have hX : hexDigit? 'X' = none := by decide
  unfold dropHexPrefix
  split
  next => simp [isHexText, hx] at h
  next => simp [isHexText, hX] at h
  next => simp [isHexText, hx] at h
  next => simp [isHexText, hX] at h
  next => rfl

theorem splitHexSign_of_isHexText (sg : Signedness) {text : List Char} (h : isHexText text = true) :
    splitHexSign sg text = (false, text) := by
  cases sg with
  | unsigned => rfl
  | signed => exact splitSign_of_all (by decide) (by decide) h

/-- ParseHex on digits alone: their count decides (R91). -/
theorem parseHex_of_isHexText {w : Width} {sg : Signedness} {text : List Char} (h : isHexText text = true)
    (hne : text ≠ []) :
    parseHex w sg text =
      if text.length ≤ w.bits / 4 then .ok (BitVec.ofNat w.bits (hexValue text)) else .error .overflow := by
  have hform : ¬ (text = [] ∨ (!isHexText text) = true) := by simp [hne, h]
  rw [← ite_not (text.length ≤ w.bits / 4)]
  simp only [parseHex, splitHexSign_of_isHexText sg h, dropHexPrefix_of_isHexText h, Nat.not_le]
  exact if_neg hform

/-! ### Leading zeros -/

section
variable (text : List Char) (k : Nat)

theorem isHexText_append_zeros : isHexText (List.replicate k '0' ++ text) = isHexText text := by
  have h0 : (hexDigit? '0').isSome = true := by decide
  simp [isHexText, h0]

theorem hexValue_append_zeros : hexValue (List.replicate k '0' ++ text) = hexValue text := by
  induction k with
  | zero => rfl
  | succ k ih => exact ih

/-- `trimZeros` takes zeros off, and never the last character. -/
theorem exists_zeros_append_trimZeros : ∃ k, text = List.replicate k '0' ++ trimZeros text := by
  induction text using trimZeros.induct with
  | case1 c rest ih =>
    obtain ⟨k, hk⟩ := ih
    exact ⟨k + 1, by rw [trimZeros, List.replicate_succ, List.cons_append, ← hk]⟩
  | case2 text h => exact ⟨0, (trimZeros.eq_2 text h).symm⟩

theorem trimZeros_ne_nil (h : text ≠ []) : trimZeros text ≠ [] := by
  induction text using trimZeros.induct with
  | case1 c rest ih => exact ih (by simp)
  | case2 text hkept => rwa [trimZeros.eq_2 text hkept]

end

/-! ### FormatHex (R90) -/

section
variable {n : Nat} (upper : Bool) (v : BitVec n)

theorem nibbleText_eq : nibbleText upper v = (wordsOf 4 v).reverse.map fun d => hexChar upper d.toNat := by
  simp [nibbleText, wordsOf, List.map_reverse, Function.comp_def]

theorem nibbleText_length : (nibbleText upper v).length = n / 4 := by simp [nibbleText]

theorem nibbleText_isHexText : isHexText (nibbleText upper v) = true := by
  simp [isHexText, nibbleText_eq, hexDigit?_hexChar]

theorem hexValue_nibbleText (h : 4 ∣ n) : hexValue (nibbleText upper v) = v.toNat := by
  rw [← wordsValue_wordsOf v h, nibbleText_eq, hexValue, List.foldl_map, List.foldl_reverse, wordsValue]
  simp only [hexDigit?_hexChar, Option.getD_some]
  congr! 3 with d acc
  ring

end

/-- The digits before padding. -/
def unpaddedHex {n : Nat} (upper trim : Bool) (v : BitVec n) : List Char :=
  if trim then trimZeros (nibbleText upper v) else nibbleText upper v

section
variable {n : Nat} (upper trim : Bool) (v : BitVec n)

theorem exists_zeros_append_unpaddedHex :
    ∃ k, nibbleText upper v = List.replicate k '0' ++ unpaddedHex upper trim v := by
  cases trim with
  | false => exact ⟨0, rfl⟩
  | true => exact exists_zeros_append_trimZeros _

theorem unpaddedHex_isHexText : isHexText (unpaddedHex upper trim v) = true := by
  obtain ⟨k, hk⟩ := exists_zeros_append_unpaddedHex upper trim v
  rw [← isHexText_append_zeros _ k, ← hk, nibbleText_isHexText]

theorem hexValue_unpaddedHex (h : 4 ∣ n) : hexValue (unpaddedHex upper trim v) = v.toNat := by
  obtain ⟨k, hk⟩ := exists_zeros_append_unpaddedHex upper trim v
  rw [← hexValue_append_zeros _ k, ← hk, hexValue_nibbleText upper v h]

theorem unpaddedHex_length_le : (unpaddedHex upper trim v).length ≤ n / 4 := by
  obtain ⟨k, hk⟩ := exists_zeros_append_unpaddedHex upper trim v
  rw [← nibbleText_length upper v, hk, List.length_append]
  exact Nat.le_add_left ..

theorem unpaddedHex_ne_nil (h : 4 ≤ n) : unpaddedHex upper trim v ≠ [] := by
  have hne : nibbleText upper v ≠ [] := List.ne_nil_of_length_pos (by rw [nibbleText_length]; omega)
  cases trim with
  | false => exact hne
  | true => exact trimZeros_ne_nil _ hne

end

theorem formatHex_eq (w : Width) (upper trim : Bool) (n : Nat) (v : BitVec w.bits) :
    formatHex w upper n trim v =
      List.replicate (n - (unpaddedHex upper trim v).length) '0' ++ unpaddedHex upper trim v := rfl

/-- Settles O53: the text is the value's nibbles but for leading zeros, and the padding count decides on its length. -/
theorem hexTextRoundTrips : Obligations.HexTextRoundTrips := by
  intro w sg upper trim n v
  have hdvd : 4 ∣ w.bits := w.dvd_bits (by decide)
  have hge : 4 ≤ w.bits := Nat.le_of_dvd w.bits_pos hdvd
  have hlen := unpaddedHex_length_le upper trim v
  have hcount : n - (unpaddedHex upper trim v).length + (unpaddedHex upper trim v).length ≤ w.bits / 4 ↔
      n ≤ w.bits / 4 := by omega
  rw [formatHex_eq, parseHex_of_isHexText (by rw [isHexText_append_zeros, unpaddedHex_isHexText])
    (List.append_ne_nil_of_right_ne_nil _ (unpaddedHex_ne_nil upper trim v hge)), hexValue_append_zeros,
    hexValue_unpaddedHex upper trim v hdvd, BitVec.ofNat_toNat, BitVec.setWidth_eq, List.length_append,
    List.length_replicate]
  simp only [hcount]

end Sys2Proof.Machine
end

section
/-! Width conversion (R93 to R96, R99): extension keeps the value read at its signedness, and narrowing keeps it when
it fits, so that the commands and the native conversions are two uses of one lemma each. -/

namespace Sys2Proof

/-! ### The words that the decoder rejects (R46) -/

section
variable {c : CommandWord}

theorem decode_ldi_rs1Field (hop : (opField c).toNat = 0x0F) (h : rs1Field c ≠ 0) :
    decode c = .error .rs1Field := by
  simp [decode, require, hop, h, -rs1Field_eq_zero_iff]

/-- EXT has no 128-bit form. -/
theorem decode_ext_w128 (hop : (opField c).toNat = 0x10) (hw : widthField c = .w128) :
    decode c = .error .widthBit := by
  simp [decode, requireWidth, require, hop, hw]

/-- TRUNC and TRUNCC have no 256-bit form. -/
theorem decode_truncation_w256 (hop : (opField c).toNat = 0x11 ∨ (opField c).toNat = 0x12)
    (hw : widthField c = .w256) : decode c = .error .widthBit := by
  obtain hop | hop := hop <;> simp [decode, requireWidth, require, hop, hw]

theorem decode_trunc_signed (hop : (opField c).toNat = 0x11) (hw : widthField c = .w128)
    (hsg : signField c = .signed) : decode c = .error .signBit := by
  simp [decode, requireWidth, requireSign, require, hop, hw, hsg]

end

namespace Machine

/-! ### Readings -/

/-- A source's value at a signedness is the reading of that signedness. -/
theorem valueAt_source (s : State) (w : Width) (sg : Signedness) (r : Reg) :
    valueAt sg (s.source w r) = if sg = .signed then sval w (s.reg r) else uval w (s.reg r) := by
  cases sg
  case unsigned => exact congrArg Int.ofNat (source_toNat s w r)
  case signed => exact source_toInt s w r

/-- R93's reading of the immediate: its top bit counts -2^15 at S = 1. -/
theorem valueAt_imm16 (sg : Signedness) (imm : BitVec 16) :
    valueAt sg imm =
      (if sg = .signed ∧ 2 ^ 15 ≤ imm.toNat then (imm.toNat : Int) - 2 ^ 16 else imm.toNat : Int) := by
  cases sg
  case unsigned => rfl
  case signed =>
    rw [valueAt, BitVec.toInt_eq_toNat_cond]
    simp only [true_and]
    split_ifs <;> omega

/-- A W-bit vector, zero-extended to a register, is `enc` of its value at either signedness. -/
theorem setWidth_eq_enc_valueAt {w : Width} (sg : Signedness) (v : BitVec w.bits) :
    v.setWidth 256 = enc w (valueAt sg v) := by
  cases sg
  case unsigned => exact setWidth_eq_enc v
  case signed => exact setWidth_eq_enc_toInt v

/-! ### Extension -/

/-- LDI extends its immediate as a native integer of 16 bits is extended. -/
theorem immediate_eq_fromNative (w : Width) (sg : Signedness) (imm : BitVec 16) :
    immediate w.bits sg imm = fromNative w sg .n16 imm := by cases sg <;> rfl

theorem valueAt_immediate (w : Width) (sg : Signedness) (imm : BitVec 16) :
    valueAt sg (immediate w.bits sg imm) = valueAt sg imm := by
  rw [immediate_eq_fromNative]
  exact valueAt_fromNative w sg .n16 imm

theorem valueAt_widen (sg : Signedness) (a : BitVec 128) : valueAt sg (widen sg a) = valueAt sg a := by
  cases sg
  case unsigned => exact congrArg Int.ofNat (BitVec.toNat_setWidth_of_le (by decide))
  case signed => exact BitVec.toInt_signExtend_of_le (by decide)

/-- Settles O38: the immediate at W bits has the value it has at 16. -/
theorem ldiWritesTheExtendedImmediate : Obligations.LdiWritesTheExtendedImmediate := by
  refine fun w sg rd rs1 imm s => ⟨decode_wordI 0x0F rfl rfl, fun hrs1 => ?_, completes_of_exec _ rfl ?_⟩
  · obtain ⟨hop, -, -, -, hfield, -⟩ := wordI_decoded 0x0F (by decide) w sg rd rs1 imm
    exact decode_ldi_rs1Field hop (by rwa [hfield])
  · rw [setWidth_eq_enc_valueAt sg, valueAt_immediate, valueAt_imm16]

/-- Settles O39: the source's low 128 bits have the same value at 256 bits. -/
theorem extWidensTo256Bits : Obligations.ExtWidensTo256Bits := by
  refine fun sg rd rs1 s => ⟨decode_wordR 0x10 rfl rfl, ?_, completes_of_exec _ rfl ?_⟩
  · obtain ⟨hop, hw, -⟩ := wordR_decoded 0x10 (by decide) .w128 sg rd rs1 0 0
    exact decode_ext_w128 hop hw
  · rw [← valueAt_source]
    exact (setWidth_eq_enc_valueAt (w := .w256) sg _).trans (congrArg _ (valueAt_widen sg _))

/-! ### Narrowing -/

/-- The integer is a value of the n-bit type of the signedness. -/
def FitsIn (n : Nat) (sg : Signedness) (x : Int) : Prop :=
  match sg with
  | .unsigned => 0 ≤ x ∧ x < 2 ^ n
  | .signed => -2 ^ (n - 1) ≤ x ∧ x < 2 ^ (n - 1)

theorem inNativeRange_iff_fitsIn (native : Signedness) (size : NativeSize) (x : Int) :
    inNativeRange native size x = true ↔ FitsIn size.bits native x := by
  cases native <;> simp [inNativeRange, FitsIn]

/-- The n-bit vector of an integer that fits reads back as that integer. -/
theorem valueAt_ofInt {n : Nat} {sg : Signedness} {x : Int} (hn : 0 < n) (h : FitsIn n sg x) :
    valueAt sg (BitVec.ofInt n x) = x := by
  cases sg
  case unsigned =>
    obtain ⟨h0, hlt⟩ := h
    rw [valueAt, BitVec.toNat_ofInt, Int.emod_eq_of_lt h0 (by exact_mod_cast hlt), Int.toNat_of_nonneg h0]
  case signed =>
    obtain ⟨hge, hlt⟩ := h
    exact BitVec.toInt_ofInt_eq_self hn hge hlt

/-- The low n bits of a vector are the n-bit vector of its value, at whichever signedness it is read. -/
theorem ofInt_valueAt {m n : Nat} (hle : n ≤ m) (sg : Signedness) (v : BitVec m) :
    BitVec.ofInt n (valueAt sg v) = v.setWidth n := by
  cases sg
  case unsigned => rw [valueAt, BitVec.ofInt_natCast, BitVec.ofNat_toNat]
  case signed => exact BitVec.signExtend_eq_setWidth_of_le v hle

/-- Narrowing keeps a value that fits, also where the destination is read at the other signedness. -/
theorem valueAt_setWidth {m n : Nat} {sg dst : Signedness} {v : BitVec m} (hn : 0 < n) (hle : n ≤ m)
    (h : FitsIn n dst (valueAt sg v)) : valueAt dst (v.setWidth n) = valueAt sg v := by
  rw [← ofInt_valueAt hle sg, valueAt_ofInt hn h]

/-! ### TRUNC and TRUNCC -/

theorem uval_w256 (v : RegWord) : uval .w256 v = v.toNat := Nat.mod_eq_of_lt v.isLt

theorem sval_w256 (v : RegWord) : sval .w256 v = v.toInt := by
  rw [← toInt_setWidth]
  exact congrArg BitVec.toInt (BitVec.setWidth_eq v)

theorem fits128_unsigned_iff (v : RegWord) : fits128 .unsigned v = true ↔ uval .w256 v ≤ maxU .w128 := by
  rw [fits128, uval_w256, decide_eq_true_eq]

theorem fits128_signed_iff (v : RegWord) :
    fits128 .signed v = true ↔ minS .w128 ≤ sval .w256 v ∧ sval .w256 v ≤ maxS .w128 := by
  rw [fits128, sval_w256, Bool.and_eq_true, decide_eq_true_eq, decide_eq_true_eq]

theorem fits128_iff_fitsIn (sg : Signedness) (v : RegWord) :
    fits128 sg v = true ↔ FitsIn 128 sg (valueAt sg v) := by
  cases sg
  case unsigned =>
    rw [fits128_unsigned_iff, uval_w256, ← lt_two_pow_iff_le_maxU, FitsIn, valueAt]
    exact_mod_cast (and_iff_right (Nat.zero_le _)).symm
  case signed =>
    rw [fits128_signed_iff, sval_w256, maxS, Int.le_sub_one_iff]
    rfl

/-- The low 128 bits of a register are its 256-bit reading modulo 2^128. -/
theorem setWidth_128_eq_enc (v : RegWord) : (v.setWidth 128).setWidth 256 = enc .w128 (uval .w256 v) := by
  rw [← setWidth_ofInt, uval_w256, BitVec.ofInt_natCast, BitVec.ofNat_toNat]
  rfl

/-- Settles O40: the result is the low half of the source. -/
theorem truncKeepsTheLow128Bits : Obligations.TruncKeepsTheLow128Bits := by
  refine fun rd rs1 s => ⟨decode_wordR 0x11 rfl rfl, fun sg => ?_, ?_, completes_of_exec _ rfl (setWidth_128_eq_enc _)⟩
  · obtain ⟨hop, hw, -⟩ := wordR_decoded 0x11 (by decide) .w256 sg rd rs1 0 0
    exact decode_truncation_w256 (.inl hop) hw
  · obtain ⟨hop, hw, hsg, -⟩ := wordR_decoded 0x11 (by decide) .w128 .signed rd rs1 0 0
    exact decode_trunc_signed hop hw hsg

section
variable {sg : Signedness} {rd rs1 : Reg} {s : State}

theorem truncc_completes (h : fits128 sg (s.reg rs1) = true) :
    ∃ t, exec (.truncc sg rd rs1) s = .next t ∧ Completes s t [(rd, enc .w128 (uval .w256 (s.reg rs1)))] ∧
      valueAt sg (t.source .w128 rd) = valueAt sg (s.reg rs1) := by
  have hexec : exec (.truncc sg rd rs1) s = s.complete rd (s.source .w128 rs1) := if_pos h
  obtain ⟨t, ht, hc⟩ := completes_of_exec _ hexec (setWidth_128_eq_enc _)
  refine ⟨t, ht, hc, ?_⟩
  rw [complete_source_same (hexec.symm.trans ht)]
  exact valueAt_setWidth (by decide) (by decide) ((fits128_iff_fitsIn ..).mp h)

theorem truncc_fails (h : ¬ fits128 sg (s.reg rs1) = true) : exec (.truncc sg rd rs1) s = s.fail .overflow := if_neg h

end

/-- Settles O41: the range check is the range of the 128-bit type, and narrowing keeps a value in it. -/
theorem trunccNarrowsOrOverflows : Obligations.TrunccNarrowsOrOverflows := by
  refine fun rd rs1 s => ⟨fun sg => ⟨decode_wordR 0x12 rfl rfl, ?_⟩, fun h => ?_, fun h => ?_, fun h => ?_, fun h => ?_⟩
  · obtain ⟨hop, hw, -⟩ := wordR_decoded 0x12 (by decide) .w256 sg rd rs1 0 0
    exact decode_truncation_w256 (.inr hop) hw
  · obtain ⟨t, ht, hc, hvalue⟩ := truncc_completes (rd := rd) ((fits128_unsigned_iff _).mpr h)
    refine ⟨t, ht, hc, ?_⟩
    rw [← source_toNat, uval_w256]
    exact Int.ofNat_inj.mp hvalue
  · exact raises_of_exec (truncc_fails (by rwa [fits128_unsigned_iff, Nat.not_le]))
  · obtain ⟨t, ht, hc, hvalue⟩ := truncc_completes (rd := rd) ((fits128_signed_iff _).mpr h)
    refine ⟨t, ht, hc, ?_⟩
    rw [← source_toInt, sval_w256]
    exact hvalue
  · exact raises_of_exec (truncc_fails (by rwa [fits128_signed_iff, not_and_or, not_le, not_le]))

/-! ### Native integers -/

theorem NativeSize.bits_pos (size : NativeSize) : 0 < size.bits := by cases size <;> decide

/-- Settles O56: the range check is the destination type's range, and narrowing keeps a value in it. -/
theorem nativeConversionsKeepTheValue : Obligations.NativeConversionsKeepTheValue := by
  refine ⟨fun w sg native size v => ⟨fun h => ⟨v.setWidth size.bits, if_pos h, ?_⟩, fun h => ?_⟩, valueAt_fromNative⟩
  · exact valueAt_setWidth size.bits_pos (size.bits_le w) ((inNativeRange_iff_fitsIn ..).mp h)
  · exact if_neg (Bool.eq_false_iff.mp h)

end Machine

end Sys2Proof
end

section
/-! The assembler reads back what the disassembler prints (R52): a printed line is cut at its spaces and commas into the
parts it was joined from, and each part is read as what it was printed for. -/

namespace Sys2Proof.Machine

/-! ### Spaces -/

/-- A text without spaces at its ends. -/
def Trimmed (text : List Char) : Prop := text.head? ≠ some ' ' ∧ text.getLast? ≠ some ' '

/-- A part of a line that no space or comma cuts. -/
def IsToken (text : List Char) : Prop := text ≠ [] ∧ ∀ c ∈ text, c ≠ ' ' ∧ c ≠ ','

section
variable {x y text : List Char}

theorem dropSpaces_of_head? (h : text.head? ≠ some ' ') : text.dropWhile (· == ' ') = text := by
  cases text with
  | nil => rfl
  | cons c rest => exact List.dropWhile_cons_of_neg (by simpa using h)

theorem trimSpaces_of_trimmed (h : Trimmed text) : trimSpaces text = text := by
  obtain ⟨hhead, hlast⟩ := h
  rw [trimSpaces, dropSpaces_of_head? hhead, dropSpaces_of_head? (by rwa [List.head?_reverse]), List.reverse_reverse]

theorem IsToken.trimmed (h : IsToken text) : Trimmed text :=
  ⟨fun hhead => (h.2 ' ' (List.mem_of_head? hhead)).1 rfl, fun hlast => (h.2 ' ' (List.mem_of_getLast? hlast)).1 rfl⟩

/-- What lies between two trimmed texts is at neither end. -/
theorem Trimmed.append (hx : Trimmed x) (hy : Trimmed y) (hx0 : x ≠ []) (hy0 : y ≠ []) (mid : List Char) :
    Trimmed (x ++ mid ++ y) := by
  simpa [Trimmed, List.head?_append_of_ne_nil, List.getLast?_append_of_ne_nil, hx0, hy0] using ⟨hx.1, hy.2⟩

end

/-! ### Commas -/

section
variable {x : List Char} (h : ∀ c ∈ x, c ≠ ',') (text : List Char)

theorem splitCommas_ne_nil : splitCommas text ≠ [] := by
  fun_cases splitCommas text <;> simp_all

include h in
theorem splitCommas_of_no_comma : splitCommas x = [x] := by
  induction x with
  | nil => rfl
  | cons c x ih =>
    obtain ⟨hc, hx⟩ := List.forall_mem_cons.mp h
    rw [splitCommas.eq_3 c x hc, ih hx]

include h in
theorem splitCommas_append_comma : splitCommas (x ++ ',' :: text) = x :: splitCommas text := by
  induction x with
  | nil => rfl
  | cons c x ih =>
    obtain ⟨hc, hx⟩ := List.forall_mem_cons.mp h
    rw [List.cons_append, splitCommas.eq_3 c _ hc, ih hx]

/-- The space after a comma stands before the next operand, where it is cut off. -/
theorem parseOperands_space : parseOperands (splitCommas (' ' :: text)) = parseOperands (splitCommas text) := by
  rw [splitCommas.eq_3 ' ' text (by decide)]
  cases hparts : splitCommas text with
  | nil => exact absurd hparts (splitCommas_ne_nil text)
  | cons first others => rfl

end

/-! ### Numbers -/

section
variable (u : Nat)

theorem decimalDigit?_of_mem_formatDecU {c : Char} (h : c ∈ formatDecU u) : (decimalDigit? c).isSome = true := by
  rw [formatDecU_eq] at h
  exact List.all_eq_true.mp (all_decimalDigit?_decimalChar (decimalDigits_lt u)) c h

/-- The digits of a number have no character that is no digit. -/
theorem not_mem_formatDecU {c : Char} (hc : decimalDigit? c = none) : c ∉ formatDecU u := fun h => by
  simpa [hc] using decimalDigit?_of_mem_formatDecU u h

theorem formatDecU_ne_nil : formatDecU u ≠ [] := by
  rw [formatDecU_eq, Ne, List.map_eq_nil_iff]
  exact decimalDigits_ne_nil u

end

/-- Reading digits from the left is base ten. -/
theorem foldl_decimalChar {ds : List Nat} (hlt : ∀ d ∈ ds, d < 10) :
    (ds.map decimalChar).foldl (fun acc c => acc * 10 + (decimalDigit? c).getD 0) 0 = Nat.ofDigits 10 ds.reverse := by
  rw [Nat.ofDigits_eq_foldr, List.foldr_reverse, List.foldl_map]
  refine List.foldl_ext _ _ _ fun acc d hd => ?_
  rw [decimalDigit?_decimalChar (hlt d hd), Option.getD_some, Nat.mul_comm, Nat.add_comm]
  rfl

theorem parseNumber_formatDecU (u : Nat) : parseNumber (formatDecU u) = some u := by
  unfold parseNumber
  split
  next digits heq =>
    have hx : 'x' ∉ formatDecU u := not_mem_formatDecU u (by decide)
    exact absurd (by simp [heq]) hx
  next =>
    have hall := List.all_eq_true.mpr fun c => decimalDigit?_of_mem_formatDecU u (c := c)
    rw [if_pos ⟨formatDecU_ne_nil u, hall⟩, formatDecU_eq, foldl_decimalChar (decimalDigits_lt u),
      ofDigits_decimalDigits]

/-! ### Operands and suffixes -/

theorem immText_of_neg {n : Int} (h : n < 0) : immText n = '#' :: '-' :: formatDecU n.natAbs :=
  congrArg _ (if_pos h)

theorem immText_of_nonneg {n : Int} (h : 0 ≤ n) : immText n = '#' :: formatDecU n.natAbs :=
  congrArg _ (if_neg h.not_gt)

theorem isToken_cons_digits {c : Char} (hc : c ≠ ' ' ∧ c ≠ ',') (u : Nat) : IsToken (c :: formatDecU u) :=
  ⟨List.cons_ne_nil _ _, List.forall_mem_cons.mpr ⟨hc, fun _ hd =>
    ⟨ne_of_mem_of_not_mem hd (not_mem_formatDecU u (by decide)),
      ne_of_mem_of_not_mem hd (not_mem_formatDecU u (by decide))⟩⟩⟩

theorem IsToken.cons {c : Char} {text : List Char} (hc : c ≠ ' ' ∧ c ≠ ',') (h : IsToken text) :
    IsToken (c :: text) :=
  ⟨List.cons_ne_nil _ _, List.forall_mem_cons.mpr ⟨hc, h.2⟩⟩

theorem operandText_isToken (o : AsmOperand) : IsToken o.text := by
  cases o with
  | reg r => exact isToken_cons_digits (by decide) r.val
  | imm n =>
    rw [AsmOperand.text]
    obtain hn | hn := lt_or_ge n 0
    · rw [immText_of_neg hn]
      exact (isToken_cons_digits (by decide) _).cons (by decide)
    · rw [immText_of_nonneg hn]
      exact isToken_cons_digits (by decide) _

theorem parseReg_regText : ∀ r, parseReg (regText r) = some r := by decide

theorem parseOperand_text (o : AsmOperand) : parseOperand o.text = some o := by
  cases o with
  | reg r => exact congrArg (Option.map AsmOperand.reg) (parseReg_regText r)
  | imm n =>
    rw [AsmOperand.text]
    obtain hn | hn := lt_or_ge n 0
    · rw [immText_of_neg hn]
      have habs : -(n.natAbs : Int) = n := by omega
      rw [parseOperand, parseNumber_formatDecU]
      exact congrArg (fun m => some (AsmOperand.imm m)) habs
    · rw [immText_of_nonneg hn]
      have habs : (n.natAbs : Int) = n := by omega
      have hminus : ∀ digits, formatDecU n.natAbs ≠ '-' :: digits := fun digits heq =>
        not_mem_formatDecU n.natAbs (c := '-') (by decide) (by simp [heq])
      rw [parseOperand.eq_2 _ hminus, parseNumber_formatDecU]
      exact congrArg (fun m => some (AsmOperand.imm m)) habs

theorem parseSuffix_suffixText (sg : Signedness) (w : Width) : parseSuffix (suffixText sg w) = some (some (sg, w)) := by
  cases sg <;> cases w <;> decide

theorem operandsText_trimmed {os : List AsmOperand} (h : os ≠ []) :
    operandsText os ≠ [] ∧ Trimmed (operandsText os) := by
  fun_induction operandsText os with
  | case1 => exact absurd rfl h
  | case2 o => exact ⟨(operandText_isToken o).1, (operandText_isToken o).trimmed⟩
  | case3 o rest hrest ih =>
    have ho := operandText_isToken o
    obtain ⟨hne, htrim⟩ := ih hrest
    exact ⟨List.append_ne_nil_of_right_ne_nil _ hne, ho.trimmed.append htrim ho.1 hne _⟩

theorem parseOperands_operandsText {os : List AsmOperand} (h : os ≠ []) :
    parseOperands (splitCommas (operandsText os)) = some os := by
  fun_induction operandsText os with
  | case1 => exact absurd rfl h
  | case2 o =>
    have ho := operandText_isToken o
    rw [splitCommas_of_no_comma fun c hc => (ho.2 c hc).2]
    simp only [parseOperands, trimSpaces_of_trimmed ho.trimmed, parseOperand_text]
  | case3 o rest hrest ih =>
    have ho := operandText_isToken o
    rw [List.append_assoc, List.cons_append, splitCommas_append_comma fun c hc => (ho.2 c hc).2]
    simp only [List.cons_append, List.nil_append, parseOperands, trimSpaces_of_trimmed ho.trimmed, parseOperand_text,
      parseOperands_space, ih hrest]

/-! ### Lines -/

/-- The mnemonic of a line can be told from a suffix and from the operands. -/
def IsMnemonic (name : List Char) : Prop := name ≠ [] ∧ ∀ c ∈ name, c ≠ ' ' ∧ c ≠ ',' ∧ c ≠ '.'

/-- The text of a suffix, if a line has one. -/
def optionalSuffixText : Option (Signedness × Width) → List Char
  | none => []
  | some (sg, w) => suffixText sg w

/-- A line's mnemonic with its suffix. -/
def AsmLine.head (l : AsmLine) : List Char := l.name ++ optionalSuffixText l.suffix

/-- What follows the suffix: a space and the operands, if there are any. -/
def operandsPart (os : List AsmOperand) : List Char := if os = [] then [] else ' ' :: operandsText os

theorem AsmLine.text_eq (l : AsmLine) : l.text = l.head ++ operandsPart l.operands := rfl

section
variable (suffix : Option (Signedness × Width))

theorem optionalSuffixText_no_cut : ∀ c ∈ optionalSuffixText suffix, c ≠ ' ' ∧ c ≠ ',' := by
  obtain _ | ⟨sg, w⟩ := suffix
  · simp [optionalSuffixText]
  · cases sg <;> cases w <;> simp [optionalSuffixText, suffixText]

/-- A suffix begins with its dot. -/
theorem optionalSuffixText_dot :
    (optionalSuffixText suffix).takeWhile (· != '.') = [] ∧
      (optionalSuffixText suffix).dropWhile (· != '.') = optionalSuffixText suffix := by
  obtain _ | ⟨sg, w⟩ := suffix
  · exact ⟨rfl, rfl⟩
  · cases sg <;> cases w <;> decide

theorem parseSuffix_optionalSuffixText : parseSuffix (optionalSuffixText suffix) = some suffix := by
  obtain _ | ⟨sg, w⟩ := suffix
  · rfl
  · exact parseSuffix_suffixText sg w

end

section
variable {l : AsmLine} (h : IsMnemonic l.name)
include h

theorem AsmLine.head_isToken : IsToken l.head := by
  refine ⟨List.append_ne_nil_of_left_ne_nil h.1 _, List.forall_mem_append.mpr ⟨fun c hc => ?_, ?_⟩⟩
  · exact ⟨(h.2 c hc).1, (h.2 c hc).2.1⟩
  · exact optionalSuffixText_no_cut l.suffix

theorem AsmLine.head_cut :
    l.head.takeWhile (· != '.') = l.name ∧ l.head.dropWhile (· != '.') = optionalSuffixText l.suffix := by
  have hname : ∀ c ∈ l.name, (c != '.') = true := fun c hc => bne_iff_ne.mpr (h.2 c hc).2.2
  obtain ⟨htake, hdrop⟩ := optionalSuffixText_dot l.suffix
  rw [AsmLine.head, List.takeWhile_append_of_pos hname, List.dropWhile_append_of_pos hname, htake, hdrop,
    List.append_nil]
  exact ⟨rfl, rfl⟩

end

section
variable (os : List AsmOperand)

theorem operandsPart_space :
    (operandsPart os).takeWhile (· != ' ') = [] ∧ (operandsPart os).dropWhile (· != ' ') = operandsPart os := by
  cases os <;> simp [operandsPart]

theorem trimSpaces_operandsPart : trimSpaces (operandsPart os) = operandsText os := by
  cases os with
  | nil => rfl
  | cons o os => exact trimSpaces_of_trimmed (operandsText_trimmed (List.cons_ne_nil o os)).2

theorem parseOperands_or_none :
    (if operandsText os = [] then some [] else parseOperands (splitCommas (operandsText os))) = some os := by
  cases os with
  | nil => rfl
  | cons o os =>
    have hne := List.cons_ne_nil o os
    rw [if_neg (operandsText_trimmed hne).1, parseOperands_operandsText hne]

end

theorem AsmLine.text_trimmed {l : AsmLine} (h : IsMnemonic l.name) : Trimmed l.text := by
  have hhead := AsmLine.head_isToken h
  rw [l.text_eq]
  cases hos : l.operands with
  | nil => exact (List.append_nil l.head).symm ▸ hhead.trimmed
  | cons o os =>
    obtain ⟨hne, htrim⟩ := operandsText_trimmed (List.cons_ne_nil o os)
    exact List.append_assoc l.head [' '] _ ▸ hhead.trimmed.append htrim hhead.1 hne [' ']

/-- A printed line is read as itself. -/
theorem parseLine_text {l : AsmLine} (h : IsMnemonic l.name) : parseLine l.text = some l := by
  have hhead : ∀ c ∈ l.head, (c != ' ') = true := fun c hc => bne_iff_ne.mpr ((AsmLine.head_isToken h).2 c hc).1
  obtain ⟨hname, hsuffix⟩ := AsmLine.head_cut h
  obtain ⟨htake, hdrop⟩ := operandsPart_space l.operands
  have hcut : l.text.takeWhile (· != ' ') = l.head ∧ l.text.dropWhile (· != ' ') = operandsPart l.operands := by
    rw [l.text_eq, List.takeWhile_append_of_pos hhead, List.dropWhile_append_of_pos hhead, htake, hdrop,
      List.append_nil]
    exact ⟨rfl, rfl⟩
  simp only [parseLine, trimSpaces_of_trimmed (AsmLine.text_trimmed h), hcut, hname, hsuffix,
    trimSpaces_operandsPart, parseOperands_or_none, parseSuffix_optionalSuffixText]

/-! ### Commands -/

theorem disassembleLine_isMnemonic {i : Instr} {l : AsmLine} (h : disassembleLine i = some l) : IsMnemonic l.name := by
  cases i <;> cases h <;> simp [IsMnemonic]

theorem exists_disassembleLine {i : Instr} (h : i.legal = true) : ∃ l, disassembleLine i = some l := by
  cases i with
  | reserved => exact absurd h Bool.false_ne_true
  | _ => exact ⟨_, rfl⟩

/-- The assembler's conditions on a line hold of every printed one: the immediates are in range (R52), and the rest is
the command's legality (R46). -/
theorem assembleLine_disassembleLine {i : Instr} {l : AsmLine} (hlegal : i.legal = true)
    (h : disassembleLine i = some l) : assembleLine l = some i := by
  cases i with
  | divremU w rd rd2 rs1 rs2 =>
    cases h
    have hne : rd ≠ rd2 := bne_iff_ne.mp hlegal
    simp [assembleLine, hne]
  | divremS w rd rd2 rs1 rs2 =>
    cases h
    have hne : rd ≠ rd2 := bne_iff_ne.mp hlegal
    simp [assembleLine, hne]
  | decacc w rd rs1 digit =>
    cases h
    have hdigit : digit.toNat ≤ 9 := of_decide_eq_true hlegal
    have hrange : (digit.toNat : Int) ≤ 9 := by omega
    simp [assembleLine, assembleImm, hrange]
  | shli w sg rd rs1 imm =>
    cases h
    have hrange : (imm.toNat : Int) ≤ 65535 := by omega
    simp [assembleLine, assembleImm, hrange]
  | shri w rd rs1 imm =>
    cases h
    have hrange : (imm.toNat : Int) ≤ 65535 := by omega
    simp [assembleLine, assembleImm, hrange]
  | ldi w sg rd imm =>
    cases h
    cases sg with
    | unsigned =>
      have hrange : (imm.toNat : Int) ≤ 65535 := by omega
      simp [assembleLine, assembleLoad, ldiNumber, hrange]
    | signed =>
      have hrange : -32768 ≤ imm.toInt ∧ imm.toInt ≤ 32767 :=
        ⟨imm.le_toInt, Int.lt_add_one_iff.mp imm.toInt_lt⟩
      simp [assembleLine, assembleLoad, ldiNumber, hrange]
  | reserved => cases h
  | _ =>
    cases h
    simp [assembleLine, assembleTwo, assembleThree]

/-- Settles O57: a printed line is read as itself, and the line of a legal command is that command's. -/
theorem assembleInvertsDisassemble : Obligations.AssembleInvertsDisassemble := by
  intro i hlegal
  obtain ⟨l, hl⟩ := exists_disassembleLine hlegal
  refine ⟨l.text, congrArg (Option.map AsmLine.text) hl, ?_⟩
  rw [assemble, parseLine_text (disassembleLine_isMnemonic hl)]
  exact assembleLine_disassembleLine hlegal hl

end Sys2Proof.Machine
end

section
/-! The sign unit (R101 to R103), the system commands (R104, R105) and the reserved row (R47): what each writes, and the
words of their opcodes that the decoder rejects. -/

namespace Sys2Proof

/-! ### Words that the decoder rejects (R43, R46) -/

section
variable {c : CommandWord}

theorem decode_neg_eq_decodeTwo (hop : (opField c).toNat = 0x13) :
    decode c = decodeTwo c (.neg (widthField c) (signField c) (rdField c) (rs1Field c)) := by
  simp [decode, hop]

theorem decode_abs_eq_decodeTwo (hop : (opField c).toNat = 0x14) (hsg : signField c = .signed) :
    decode c = decodeTwo c (.abs (widthField c) (rdField c) (rs1Field c)) := by
  simp [decode, requireSign, require, hop, hsg]

/-- ABS has no unsigned form. -/
theorem decode_abs_unsigned (hop : (opField c).toNat = 0x14) (hsg : signField c = .unsigned) :
    decode c = .error .signBit := by
  simp [decode, requireSign, require, hop, hsg]

theorem decode_sign_eq_decodeTwo (hop : (opField c).toNat = 0x15) :
    decode c = decodeTwo c (.sign (widthField c) (signField c) (rdField c) (rs1Field c)) := by
  simp [decode, hop]

/-- A word whose arm leaves RS2 and RD2 unused is rejected when either is set. -/
theorem decode_unused_fields {op : Nat} (hop : op < 64) {w : Width} {sg : Signedness} {rd rs1 rs2 rd2 : Reg}
    {i : Instr} (harm : decode (wordR op w sg rd rs1 rs2 rd2) = decodeTwo (wordR op w sg rd rs1 rs2 rd2) i)
    (h : rs2 ≠ 0 ∨ rd2 ≠ 0) : ∃ e, decode (wordR op w sg rd rs1 rs2 rd2) = .error e := by
  obtain ⟨-, -, -, -, -, hrs2, hrd2, -⟩ := wordR_decoded op hop w sg rd rs1 rs2 rd2
  rw [harm]
  exact decodeTwo_eq_error i (by rwa [hrs2, hrd2])

/-- Of format N, only the word itself passes. -/
theorem require_fixedWord {n : Nat} (hn : n < 2 ^ 32) (i : Instr) :
    require (c == BitVec.ofNat 32 n) .fixedWord (.ok i) = if c.toNat = n then .ok i else .error .fixedWord := by
  have hiff : c.toNat = n ↔ (c == BitVec.ofNat 32 n) = true := by
    rw [beq_iff_eq, ← BitVec.toNat_inj, BitVec.toNat_ofNat, Nat.mod_eq_of_lt hn]
  simp only [hiff, require]

theorem opField_toNat_eq_mod (c : CommandWord) : (opField c).toNat = c.toNat % 2 ^ 6 := by
  rw [opField_toNat, fieldAt, Nat.pow_zero, Nat.div_one]

theorem decode_nop_word (h : c.toNat % 2 ^ 6 = 0) :
    decode c = if c.toNat = 0 then .ok .nop else .error .fixedWord := by
  rw [← require_fixedWord (by decide), decode]
  simp only [opField_toNat_eq_mod, h]

theorem decode_clrst_word (h : c.toNat % 2 ^ 6 = 0x16) :
    decode c = if c.toNat = 0x16 then .ok .clrst else .error .fixedWord := by
  rw [← require_fixedWord (by decide), decode]
  simp only [opField_toNat_eq_mod, h]

/-- The reserved row's word, written as a number, is its 26 high bits above its opcode. -/
theorem ofNat_reserved_word (op : BitVec 6) (rest : BitVec 26) :
    BitVec.ofNat 32 (rest.toNat * 2 ^ 6 + op.toNat) = rest ++ op := by
  rw [← toNat_append_eq_add, BitVec.ofNat_toNat, BitVec.setWidth_eq]

end

/-! ### The magnitude of a reading -/

/-- The magnitude of a signed W-bit value is below 2^W, so the unsigned reading holds it. -/
theorem uval_enc_abs (w : Width) (v : RegWord) : uval w (enc w |sval w v|) = (sval w v).natAbs := by
  have hge := BitVec.le_two_mul_toInt (x := v.setWidth w.bits)
  have hlt := BitVec.two_mul_toInt_lt (x := v.setWidth w.bits)
  have hpos := Nat.two_pow_pos w.bits
  rw [toInt_setWidth] at hge hlt
  have habs := Int.natCast_natAbs (sval w v)
  zify
  rw [uval_enc]
  zify at hpos
  exact Int.emod_eq_of_lt (abs_nonneg _) (by omega)

/-- The magnitude of MinS(W) wraps to MinS(W) when read signed. -/
theorem sval_enc_abs_minS (w : Width) : sval w (enc w |minS w|) = minS w := by
  rw [sval_enc]
  cases w <;> decide

namespace Machine

/-! ### NEG, ABS and SIGN -/

/-- Settles O42: negating the source negates its reading. -/
theorem negWritesTheNegation : Obligations.NegWritesTheNegation := by
  refine fun w sg rd rs1 rs2 rd2 s => ⟨decode_wordR 0x13 rfl rfl, ?_, completes_of_exec _ rfl ?_⟩
  · obtain ⟨hop, -⟩ := wordR_decoded 0x13 (by decide) w sg rd rs1 rs2 rd2
    exact decode_unused_fields (by decide) (decode_neg_eq_decodeTwo hop)
  · rw [negate_eq_neg, ← ofInt_uval, ← BitVec.ofInt_neg, setWidth_ofInt]

section
variable (s : State) (w : Width) (d r : Reg)

theorem source_msb_iff : (s.source w r).msb = true ↔ sval w (s.reg r) < 0 := by
  rw [BitVec.msb_eq_toInt, decide_eq_true_eq, source_toInt]

theorem exec_abs : exec (.abs w d r) s = s.complete d (BitVec.ofInt w.bits |sval w (s.reg r)|) := by
  simp only [exec, execAbs, source_msb_iff]
  split_ifs with hneg
  · rw [abs_of_neg hneg, BitVec.ofInt_neg, ofInt_sval, negate_eq_neg]
  · rw [abs_of_nonneg (not_lt.mp hneg), ofInt_sval]

theorem exec_sign (sg : Signedness) : exec (.sign w sg d r) s = s.complete d (BitVec.ofInt w.bits
    (if sg = .signed then (sval w (s.reg r)).sign else if uval w (s.reg r) = 0 then 0 else 1)) := by
  rw [exec, execSign, ternary_eq_ofInt]
  cases sg with
  | unsigned => simp [← source_eq_zero_iff_uval]
  | signed =>
    rw [if_pos rfl, ← Int.sub_zero (sval w (s.reg r)), ← ite_lt_eq_sign_sub]
    simp [source_msb_iff, ← source_eq_zero_iff_sval]

end

/-- Settles O43: the result is the magnitude modulo 2^W, which both readings then give. -/
theorem absWritesTheMagnitude : Obligations.AbsWritesTheMagnitude := by
  intro w rd rs1 rs2 rd2 s
  obtain ⟨t, ht, hc⟩ := completes_of_exec _ (exec_abs s w rd rs1) (setWidth_ofInt w _)
  have hreg : t.reg rd = enc w |sval w (s.reg rs1)| := (hc.1 _ List.mem_cons_self).1
  refine ⟨decode_wordR 0x14 rfl rfl, ?_, ?_, t, ht, hc, ?_, fun hmin => ?_⟩
  · obtain ⟨hop, -, hsg, -⟩ := wordR_decoded 0x14 (by decide) w .signed rd rs1 rs2 rd2
    exact decode_unused_fields (by decide) (decode_abs_eq_decodeTwo hop hsg)
  · obtain ⟨hop, -, hsg, -⟩ := wordR_decoded 0x14 (by decide) w .unsigned rd rs1 0 0
    exact decode_abs_unsigned hop hsg
  · rw [hreg, uval_enc_abs]
  · rw [hreg, hmin, sval_enc_abs_minS]

/-- Settles O44: the source's order against 0 is its reading's. -/
theorem signWritesTheSign : Obligations.SignWritesTheSign := by
  refine fun w sg rd rs1 rs2 rd2 s =>
    ⟨decode_wordR 0x15 rfl rfl, ?_, completes_of_exec _ (exec_sign s w rd rs1 sg) (setWidth_ofInt w _)⟩
  obtain ⟨hop, -⟩ := wordR_decoded 0x15 (by decide) w sg rd rs1 rs2 rd2
  exact decode_unused_fields (by decide) (decode_sign_eq_decodeTwo hop)

/-! ### NOP, CLRST and the reserved row -/

/-- Settles O45: NOP completes with no write, and format N has one word. -/
theorem nopClearsOnlyTheCode : Obligations.NopClearsOnlyTheCode :=
  ⟨fun s => ⟨_, rfl, succeed_completes s⟩, fun _ => decode_nop_word⟩

/-- Every sticky bit that is set in the first state is set in the second. -/
def StickyKept (s t : State) : Prop :=
  (s.dz = true → t.dz = true) ∧ (s.ov = true → t.ov = true) ∧ (s.il = true → t.il = true)

section
variable {s t : State}

theorem StickyKept.of_status_eq (h : t.status = s.status) : StickyKept s t := by
  simp [StickyKept, State.dz, State.ov, State.il, h]

theorem Raises.stickyKept {e : ErrorKind} (h : Raises s t e) : StickyKept s t := by
  obtain ⟨-, -, hdz, hov, hil, -⟩ := h
  simp +contextual [StickyKept, hdz, hov, hil]

theorem CommandEffect.stickyKept {i : Instr} (h : CommandEffect i s t) (hi : i ≠ .clrst) : StickyKept s t := by
  obtain ⟨-, hkept⟩ | ⟨e, he⟩ := h.succeeds_or_raises
  · obtain ⟨hdz, hov, hil⟩ := hkept hi
    simp [StickyKept, hdz, hov, hil]
  · exact he.stickyKept

/-- CLRST has one word, so issuing another runs another command or raises an error. -/
theorem hostIssue_stickyKept {c : CommandWord} (hc : c ≠ 0x00000016#32) (h : s.hostIssue c = .next t) :
    StickyKept s t := by
  cases hd : decode c with
  | error why =>
    rw [hostIssue_illegal s c why hd] at h
    cases h
    exact (raise_raises s _).stickyKept
  | ok i =>
    rw [hostIssue_decoded s c i hd] at h
    refine (effect_of_exec h).stickyKept ?_
    rintro rfl
    exact hc (encodeInvertsDecode c _ hd).1.symm

end

theorem perform_stickyKept {s t : State} {op : PortOp} (hreset : op ≠ .reset) (hclrst : op ≠ .issue 0x00000016#32)
    (h : s.perform op = .next t) : StickyKept s t := by
  cases op with
  | reset => exact absurd rfl hreset
  | issue c => exact hostIssue_stickyKept (fun hc => hclrst (congrArg PortOp.issue hc)) h
  | _ =>
    cases h
    exact .of_status_eq rfl

/-- Settles O46: a step that neither resets nor issues CLRST's word performs an operation that keeps the sticky bits. -/
theorem clrstClearsAllOfStatus : Obligations.ClrstClearsAllOfStatus := by
  refine ⟨fun s => ⟨_, rfl, rfl, fun _ => ⟨rfl, rfl⟩, fun _ => rfl, rfl, rfl, rfl⟩, fun _ => decode_clrst_word,
    fun s t h hreset hclrst => ?_⟩
  obtain ⟨-, rfl⟩ | ⟨op, rest, hp, h⟩ := step_cases h
  · exact StickyKept.of_status_eq rfl
  · rw [hp] at hreset hclrst
    exact perform_stickyKept (s := { s with pending := rest }) (fun hop => hreset (congrArg some hop))
      (fun hop => hclrst (congrArg some hop)) h

/-- Settles O5: the word's fields are the row's, and the row fails. -/
theorem reservedOpcodesRaiseIllegalCommand : Obligations.ReservedOpcodesRaiseIllegalCommand := by
  refine fun op rest s => ⟨fun hop => ?_, raises_of_exec rfl⟩
  rw [ofNat_reserved_word]
  exact decodeInvertsEncode (.reserved op rest) (decide_eq_true hop)

end Machine

end Sys2Proof
end

section
/-! How commands end (R107 to R112): a command completes with all its destinations written or raises one error and
writes none, and which commands can raise which error. -/

namespace Sys2Proof

/-- Only the reserved row, DIVREM and DECACC have terms that are no legal command. -/
theorem mnemonicOf_of_not_legal {i : Instr} (h : i.legal = false) :
    mnemonicOf i = "DIVREM" ∨ mnemonicOf i = "DECACC" ∨ mnemonicOf i = "(reserved)" := by
  cases i with
  | divremU => exact .inl rfl
  | divremS => exact .inl rfl
  | decacc => exact .inr (.inl rfl)
  | reserved => exact .inr (.inr rfl)
  | _ => exact absurd h.symm Bool.false_ne_true

namespace Machine

/-! ### Completing or raising -/

/-- A command that raises an error raises one of three; one that completes writes its destinations, unless it is CLRST,
which has none. -/
theorem CommandEffect.completes_or_raises {i : Instr} {s t : State} (h : CommandEffect i s t) :
    (∃ writes, writes.map Prod.fst = destinations i ∧ Completes s t writes) ∨
      (i = .clrst ∧ t = s.clearStatus) ∨
      Raises s t .divideByZero ∨ Raises s t .overflow ∨ Raises s t .illegalCommand := by
  cases h with
  | one d v hd =>
    obtain ⟨t, ht, hc⟩ := complete_completes s d v
    cases ht
    exact .inl ⟨[(d, v)], hd.symm, by simpa using hc⟩
  | two d e v u hd hne =>
    obtain ⟨t, ht, hc⟩ := completeTwo_completes s d e v u hne
    cases ht
    exact .inl ⟨[(d, v), (e, u)], hd.symm, by simpa using hc⟩
  | nothing hi => exact .inl ⟨[], by rw [hi]; rfl, succeed_completes s⟩
  | cleared hi => exact .inr (.inl ⟨hi, rfl⟩)
  | divideByZero _ => exact .inr (.inr (.inl (raise_raises s _)))
  | overflow _ => exact .inr (.inr (.inr (.inl (raise_raises s _))))
  | illegal _ => exact .inr (.inr (.inr (.inr (raise_raises s _))))

/-- Settles O16: what completes has written its destinations; CLRST has none. -/
theorem commandsCompleteOrRaisePrecisely : Obligations.CommandsCompleteOrRaisePrecisely := by
  intro i s
  obtain ⟨t, ht, he⟩ := exec_effect i s
  refine ⟨t, ht, ?_⟩
  obtain ⟨writes, hdest, hwritten, hframe, hcode, -, hrest⟩ | ⟨rfl, rfl⟩ | hraises := he.completes_or_raises
  · refine .inl ⟨hcode, fun d hd => ?_, hdest ▸ hframe, hrest⟩
    obtain ⟨p, hp, rfl⟩ := List.mem_map.mp (hdest ▸ hd)
    exact (hwritten p hp).2
  · exact .inl ⟨rfl, fun d hd => absurd hd List.not_mem_nil, fun _ _ => ⟨rfl, rfl⟩, fun _ => rfl, rfl, rfl, rfl⟩
  · exact .inr hraises

/-! ### Which command raises which error -/

/-- A command that ends with an error is one of three, or of the reserved row. -/
theorem CommandEffect.code_zero_or_mnemonic {i : Instr} {s t : State} (h : CommandEffect i s t) :
    t.code = 0#3 ∨ mnemonicOf i ∈ ["DIVREM", "DECACC", "TRUNCC", "(reserved)"] := by
  cases h with
  | one | two | nothing => exact .inl (succeed_code _)
  | cleared => exact .inl rfl
  | divideByZero hm => simp [hm]
  | overflow hm => obtain hm | hm := hm <;> simp [hm]
  | illegal hlegal => obtain hm | hm | hm := mnemonicOf_of_not_legal hlegal <;> simp [hm]

/-- Settles O18: none of the twenty mnemonics is that of a command with an error to raise. -/
theorem twentyCommandsNeverRaise : Obligations.TwentyCommandsNeverRaise := by
  intro i s hmem
  obtain ⟨t, ht, he⟩ := exec_effect i s
  refine ⟨t, ht, he.code_zero_or_mnemonic.resolve_right ?_⟩
  generalize mnemonicOf i = m at hmem
  revert m
  decide

theorem raise_code (s : State) (e : ErrorKind) : (s.raise e).code = e.code := (raise_raises s e).2.1

/-- A command that completes with two results, or raises DivideByZero, by its divisor. -/
theorem divrem_code {i : Instr} {s : State} {w : Width} {r d1 d2 : Reg} {v1 v2 : BitVec w.bits}
    (hcompletes : s.source w r ≠ 0 → exec i s = s.completeTwo d1 v1 d2 v2)
    (hfails : s.source w r = 0 → exec i s = s.fail .divideByZero) :
    ∃ t, exec i s = .next t ∧ t.code = if uval w (s.reg r) = 0 then 1#3 else 0#3 := by
  have hiff := source_eq_zero_iff_uval s w r
  split_ifs with hzero
  · exact ⟨_, hfails (hiff.mpr hzero), raise_code s _⟩
  · exact ⟨_, hcompletes (mt hiff.mp hzero), succeed_code _⟩

/-- Settles O19: each of the commands has two endings, whose CODE is known. -/
theorem eachCommandRaisesOneKindOfError : Obligations.EachCommandRaisesOneKindOfError := by
  refine ⟨fun w rd rd2 rs1 rs2 s hne => ⟨divrem_code (divremU_completes hne) (divremU_fails hne),
    divrem_code (divremS_completes hne) (divremS_fails hne)⟩, fun w rd rs1 digit s hdigit => ?_, fun sg rd rs1 s => ?_⟩
  · obtain hlt | hle := Nat.lt_or_ge (maxU w) (uval w (s.reg rs1) * 10 + digit.toNat)
    · exact ⟨_, decacc_fails hdigit hlt, .inr (raise_code s _)⟩
    · exact ⟨_, decacc_completes hdigit hle, .inl (succeed_code _)⟩
  · by_cases hfits : fits128 sg (s.reg rs1) = true
    · obtain ⟨t, ht, ⟨-, -, hcode, -⟩, -⟩ := truncc_completes (rd := rd) hfits
      exact ⟨t, ht, .inl hcode⟩
    · exact ⟨_, truncc_fails hfits, .inr (raise_code s _)⟩

end Machine

end Sys2Proof
end

section
/-! Steps end and follow each other (R116, R119 to R121): every step answers a next state, a read sees what the command
before it left, HostReset clears the bookkeeping, and when the checked step faults (R26). -/

namespace Sys2Proof.Machine

theorem perform_next (s : State) (op : PortOp) : ∃ t, s.perform op = .next t := by
  cases op with
  | issue c =>
    simp only [State.perform]
    cases hd : decode c with
    | error why => exact ⟨_, hostIssue_illegal s c why hd⟩
    | ok i =>
      obtain ⟨t, ht, -⟩ := exec_effect i s
      exact ⟨t, (hostIssue_decoded s c i hd).trans ht⟩
  | _ => exact ⟨_, rfl⟩

/-- Settles O15: every port operation answers a next state. -/
theorem everyStepAnswersANextState : Obligations.EveryStepAnswersANextState := by
  refine fun s => ⟨?_, step_ended s⟩
  cases hp : s.pending with
  | nil => exact ⟨s, step_ended s hp⟩
  | cons op rest =>
    rw [step_performs s op rest hp]
    exact perform_next _ op

theorem CommandEffect.sameRest {i : Instr} {s t : State} (h : CommandEffect i s t) : SameRest s t := by
  cases h <;> exact ⟨fun _ => rfl, rfl, rfl, rfl⟩

theorem hostIssue_sameRest {s t : State} {c : CommandWord} (h : s.hostIssue c = .next t) : SameRest s t := by
  obtain rfl | ⟨i, hi⟩ := hostIssue_cases h
  · exact ⟨fun _ => rfl, rfl, rfl, rfl⟩
  · exact hi.sameRest

/-- Settles O11: the command leaves the host's lists alone, so the next step is the read, of the state it left. -/
theorem readsAfterACommandSeeItsResult : Obligations.ReadsAfterACommandSeeItsResult := by
  intro s c op rest hp
  obtain ⟨t, ht⟩ := perform_next { s with pending := op :: rest } (.issue c)
  obtain ⟨-, hpending, hreplies, -⟩ := hostIssue_sameRest ht
  refine ⟨t, (step_performs s _ _ hp).trans ht, hpending, ?_, ?_⟩
  · rintro rfl
    exact ⟨_, step_performs t _ _ hpending, congrArg (· ++ _) hreplies⟩
  · rintro i k rfl
    exact ⟨_, step_performs t _ _ hpending, congrArg (· ++ _) hreplies⟩

/-- Settles O12, field by field from what `hostReset` leaves. -/
theorem hostResetClearsStatusAndBookkeeping : Obligations.HostResetClearsStatusAndBookkeeping := by
  refine ⟨fun s rest hp => ⟨_, step_performs s _ rest hp, hostReset_status _,
    fun r => ⟨hostReset_isWritten _ r, hostReset_hostMask _ r⟩, hostReset_pending _, hostReset_replies _⟩, rfl,
    fun r => ?_⟩
  simp [State.reset, State.isWritten, State.hostMask]

theorem strictStep_faults {s : State} {c : CommandWord} {rest : List PortOp} {i : Instr} {q : Reg}
    (hp : s.pending = .issue c :: rest) (hd : decode c = .ok i) (hq : unwrittenSource i s = some q) :
    strictStep s = .fault (.unwrittenRead q) := by
  simp only [strictStep, hp, hd, hq]

/-- Settles O22: the check finds an unwritten source exactly if there is one. -/
theorem checkedStepFaultsOnUnwrittenReads : Obligations.CheckedStepFaultsOnUnwrittenReads := by
  refine fun s => ⟨fun c rest i r hp hd hr hunwritten => ?_, strictStep_eq_step⟩
  cases hq : unwrittenSource i s with
  | none =>
    have hall : ∀ r ∈ sources i, s.isWritten r = true := by simpa [unwrittenSource, List.find?_eq_none] using hq
    exact absurd (hunwritten.symm.trans (hall r hr)) Bool.false_ne_true
  | some q =>
    have hq' : s.isWritten q = false := by simpa using List.find?_some (p := fun r => !s.isWritten r) hq
    exact ⟨q, List.mem_of_find?_eq_some hq, hq', strictStep_faults hp hd hq⟩

end Sys2Proof.Machine
end
